-- ==== Sys2Proof/Config.lean ====
section
/-! DEFINITION. The two parameters the spec leaves to the implementation (spec/00_scope.md R8,
spec/92_eei_decisions.md D3, D4). They are plain data that State carries and no step changes, so a
statement about every state is a statement about every parameter value. The constants that are no
parameters (R6, R7 and the rest of R8) stand where they are used. The spec leaves no value free, so
there is no opaque constant here (R17: no rule draws a free value). -/

namespace Sys2Proof

/-- `SINGLE_SYMBOL_POLICY` (R8, R145): what an input of one distinct symbol does. -/
inductive SingleSymbolPolicy where
  /-- The symbol gets the one-bit code "0" (R145, R162). -/
  | oneBitCode
  /-- TREE_BUILD raises `SingleSymbolInput` (R145, R252). -/
  | fault
  deriving DecidableEq, Repr

/-- The parameters of R8: `CNT_W`, the width of a count, and `SINGLE_SYMBOL_POLICY`. -/
structure Config where
  cntW : Nat
  policy : SingleSymbolPolicy
  deriving DecidableEq, Repr

/-- The default parameter values of R8. -/
def Config.default : Config := { cntW := 32, policy := .oneBitCode }

/-- `2^CNT_W − 1`, the greatest count (R27). -/
def Config.maxCount (c : Config) : Nat := 2 ^ c.cntW - 1

/-- The width of the REG bus in bits (R63). -/
def Config.busWidth (c : Config) : Nat := max c.cntW 16

end Sys2Proof
end

