-- ==== Sys2Proof/Word.lean ====
section
/-! DEFINITION. The plain data the block is made of: bytes, 16-bit words, and fixed-size register
files (spec/00_scope.md R6, R9, R10; spec/10_state.md R28 to R33). -/

namespace Sys2Proof

/-- A byte of a stream, and a Symbol: one byte value, 0 to 255 (R6 `SYM_W`, R9). -/
abbrev Byte := BitVec 8

/-- A 16-bit word: a command word (R90), a packed code (R70), `ERRINFO` (R24). -/
abbrev Word := BitVec 16

/-- A register file of exactly `n` entries (R28 to R33). The size is part of the data, so every
index of type `Fin n` names an entry. -/
structure Table (α : Type) (n : Nat) where
  cells : List α
  size : cells.length = n
  deriving DecidableEq, Repr

/-- `T[i]` (R12). -/
def Table.get {α : Type} {n : Nat} (t : Table α n) (i : Fin n) : α :=
  t.cells[i.val]'(by rw [t.size]; exact i.isLt)

/-- `T[i] <- v` (R12). -/
def Table.set {α : Type} {n : Nat} (t : Table α n) (i : Fin n) (v : α) : Table α n :=
  ⟨t.cells.set i.val v, by rw [List.length_set]; exact t.size⟩

/-- Every entry holds `v`: the form of a cleared file (R41). -/
def Table.fill {α : Type} (n : Nat) (v : α) : Table α n :=
  ⟨List.replicate n v, List.length_replicate⟩

/-- The entry number of a symbol in the 256-entry files `FT`, `CT_LEN`, `CT_CODE`: the symbol's own
unsigned value (R28, R29). -/
def symIx (b : Byte) : Fin 256 := b.toFin

end Sys2Proof
end

