-- ==== Sys2Proof/Syntax.lean ====
section
/-! DEFINITION. The commands (spec/30_encoding.md R90, R91, spec/opcode_table.json): one constructor
per row. -/

namespace Sys2Proof

/-- The 14 commands of R91. `freqByte` and `packSym` are the two of format `S`: their operand is a
Symbol (R90, R92); the others are of format `Z` and have no operand. -/
inductive Instr where
  /-- CLEAR (R230). -/
  | clear
  /-- REWIND (R231). -/
  | rewind
  /-- FREQ_BYTE `sym` (R130). -/
  | freqByte (sym : Byte)
  /-- FREQ_RUN (R131). -/
  | freqRun
  /-- TREE_BUILD (R140). -/
  | treeBuild
  /-- CODE_GEN (R160). -/
  | codeGen
  /-- ENC_HEADER (R170). -/
  | encHeader
  /-- PACK_SYM `sym` (R201). -/
  | packSym (sym : Byte)
  /-- PACK_RUN (R202). -/
  | packRun
  /-- PACK_FLUSH (R203). -/
  | packFlush
  /-- DEC_HEADER (R172). -/
  | decHeader
  /-- UNPACK_RUN (R216). -/
  | unpackRun
  /-- COMPRESS (R232). -/
  | compress
  /-- DECOMPRESS (R233). -/
  | decompress
  deriving DecidableEq, Repr

/-- The two formats of a command word (R90). -/
inductive Format where
  /-- No operand: bits 7:0 must be 0x00. -/
  | z
  /-- Bits 7:0 are a Symbol, any value. -/
  | s
  deriving DecidableEq, Repr

end Sys2Proof
end

