-- ==== Sys2Proof/WellFormed.lean ====
section
/-! DEFINITION. Which parameter values and which command words are well formed, stated from the
formats of spec/30_encoding.md R90 and R94 and not from the decoder, so that the two can be compared.
The types of `Instr` leave no ill-formed command: the operand of a format `S` command is a byte, and
every byte is a Symbol (R90, R92). -/

namespace Sys2Proof

/-- `CNT_W` is any integer ≥ 1 (spec/92_eei_decisions.md, "Parameters a model takes as arguments"). -/
def Config.wellFormed (c : Config) : Bool := decide (1 ≤ c.cntW)

/-- Every term of `Instr` is a command of R91: its operand, where it has one, is any byte (R92). -/
def Instr.wellFormed (_ : Instr) : Bool := true

/-- The format that goes with an opcode value, `none` for the opcodes R94 lists as illegal. -/
def opcodeFormat (opcode : Byte) : Option Format :=
  if opcode ∈ [0x10#8, 0x50#8] then some .s
  else if opcode ∈ [0x01#8, 0x02#8, 0x11#8, 0x20#8, 0x30#8, 0x40#8, 0x51#8, 0x52#8, 0x60#8, 0x70#8,
    0x80#8, 0x81#8] then some .z
  else none

/-- A well-formed command word `{opcode, operand}`: an opcode of the table, and a zero operand byte
where the format is `Z` (R90, R94). -/
def wordWellFormed (opcode operand : Byte) : Bool :=
  match opcodeFormat opcode with
  | some .s => true
  | some .z => operand == 0
  | none => false

end Sys2Proof
end

