-- ==== Sys2Proof/Decode.lean ====
section
/-! DEFINITION. The command encoding (spec/30_encoding.md R90 to R94, spec/opcode_table.json): the
opcode map as rows of match and mask, the decoder over it, total on all 65536 words and rejecting by
name, and the encoder. There is no instruction fetch and no byte order in a command word: the host
writes it whole (R38, R67). -/

namespace Sys2Proof

/-- Bits 15:8 of a command word (R90). -/
def opcodeOf (w : Word) : Byte := w.extractLsb' 8 8

/-- Bits 7:0 of a command word: the operand, used without extension, scaling or shifting (R90, R92). -/
def operandOf (w : Word) : Byte := w.extractLsb' 0 8

/-- `{opcode, operand}` (R104; `{a, b}` is concatenation with `a` in the high bits, R10). -/
def wordOf (opcode operand : Byte) : Word := opcode ++ operand

/-- One row of the opcode map: a word `w` selects the row when `(w & mask) = pattern` (R91). -/
structure OpcodeRow where
  pattern : Word
  mask : Word
  build : Byte → Instr

/-- The opcode map of R91, row for row. -/
def opcodeTable : List OpcodeRow :=
  [ ⟨0x0100, 0xFFFF, fun _ => .clear⟩,
    ⟨0x0200, 0xFFFF, fun _ => .rewind⟩,
    ⟨0x1000, 0xFF00, .freqByte⟩,
    ⟨0x1100, 0xFFFF, fun _ => .freqRun⟩,
    ⟨0x2000, 0xFFFF, fun _ => .treeBuild⟩,
    ⟨0x3000, 0xFFFF, fun _ => .codeGen⟩,
    ⟨0x4000, 0xFFFF, fun _ => .encHeader⟩ ] ++
  [ ⟨0x5000, 0xFF00, .packSym⟩,
    ⟨0x5100, 0xFFFF, fun _ => .packRun⟩,
    ⟨0x5200, 0xFFFF, fun _ => .packFlush⟩,
    ⟨0x6000, 0xFFFF, fun _ => .decHeader⟩,
    ⟨0x7000, 0xFFFF, fun _ => .unpackRun⟩,
    ⟨0x8000, 0xFFFF, fun _ => .compress⟩,
    ⟨0x8100, 0xFFFF, fun _ => .decompress⟩ ]

/-- Whether word `w` selects the row (R91). -/
def OpcodeRow.selects (row : OpcodeRow) (w : Word) : Bool := (w &&& row.mask) == row.pattern

/-- Why a word is no command (R94). The block reports both as `IllegalCommand`. -/
inductive DecodeReject where
  /-- The opcode byte is in no row of R91. -/
  | reservedOpcode
  /-- The opcode is of format `Z` and the operand byte is not 0x00. -/
  | nonzeroOperand
  deriving DecidableEq, Repr

/-- The name of the rejection of a word that selects no row (R94). -/
def rejectReason (w : Word) : DecodeReject :=
  match opcodeFormat (opcodeOf w) with
  | none => .reservedOpcode
  | some _ => .nonzeroOperand

/-- Decoding (R91, R93): the row the word selects, given the operand byte; a word that selects none is
illegal (R94). -/
def decode (w : Word) : Except DecodeReject Instr :=
  match opcodeTable.find? (·.selects w) with
  | some row => .ok (row.build (operandOf w))
  | none => .error (rejectReason w)

/-- The opcode byte of a command (R91, column "opcode"). -/
def Instr.opcode : Instr → Byte
  | .clear => 0x01
  | .rewind => 0x02
  | .freqByte _ => 0x10
  | .freqRun => 0x11
  | .treeBuild => 0x20
  | .codeGen => 0x30
  | .encHeader => 0x40
  | .packSym _ => 0x50
  | .packRun => 0x51
  | .packFlush => 0x52
  | .decHeader => 0x60
  | .unpackRun => 0x70
  | .compress => 0x80
  | .decompress => 0x81

/-- The operand byte of a command: the Symbol for format `S`, 0x00 for format `Z` (R90). -/
def Instr.operand : Instr → Byte
  | .clear => 0
  | .rewind => 0
  | .freqByte sym => sym
  | .freqRun => 0
  | .treeBuild => 0
  | .codeGen => 0
  | .encHeader => 0
  | .packSym sym => sym
  | .packRun => 0
  | .packFlush => 0
  | .decHeader => 0
  | .unpackRun => 0
  | .compress => 0
  | .decompress => 0

/-- The command word a command assembles to (R90, R104). -/
def encode (i : Instr) : Word := wordOf i.opcode i.operand

/-- What the decoder reads from a command of `nbits` bits numbered as spec/opcode_table.json numbers
them. A command word is one 16-bit word, so its bits above `nbits` are 0, and a row of more than 16
bits is no command of this block. -/
def decodeTableWord (nbits w : Nat) : Option Instr :=
  if 16 < nbits then none
  else (decode (BitVec.ofNat 16 (w % 2 ^ nbits))).toOption

end Sys2Proof
end

