-- ==== Sys2Proof/Machine/State.lean ====
section
/-! DEFINITION. The state of the block as plain data (spec/10_state.md R20 to R45), the reasons a step
can stop, and the state after reset (R41). R20 gives the fields of the block; three more fields hold
the inputs of the step function that R43 keeps apart from the state (`cfg`, `src`, `host`), and one
(`rdata`) holds what the last host read returned: DESIGN CHOICE, log entries 1, 2, 3 and 5. Registers
with a bounded range are finite types or enumerations (DEDUCED, log entry 9). -/

namespace Sys2Proof.Machine

/-- The value of `PHASE` (R21). The values 7 to 14 are reserved and never produced, so they are no
value of this type. -/
inductive Phase where
  | idle
  | counting
  | treeReady
  | codesReady
  | packing
  | tableReady
  | done
  | fault
  deriving DecidableEq, Repr

/-- The error kinds of R250. The codes 0x0D to 0xFF are reserved and never produced, so they are no
value of this type. -/
inductive ErrKind where
  /-- 0x00 `NONE`: no error. -/
  | noError
  /-- 0x01, raised by TREE_BUILD (R251). -/
  | emptyInput
  /-- 0x02, raised by TREE_BUILD under policy `FAULT` (R252). -/
  | singleSymbolInput
  /-- 0x03, raised by CODE_GEN (R253). -/
  | codeTooLong
  /-- 0x04, raised by DEC_HEADER (R254). -/
  | malformedHeader
  /-- 0x05, raised by DEC_HEADER (R255). -/
  | duplicateCode
  /-- 0x06, raised by UNPACK_RUN (R256). -/
  | truncatedPayload
  /-- 0x07, reserved for a platform; no rule raises it (R257). -/
  | ioError
  /-- 0x08, raised by UNPACK_RUN (R258). -/
  | unmatchedCode
  /-- 0x09, raised by PACK_SYM and PACK_RUN (R259). -/
  | noCodeForSymbol
  /-- 0x0A, raised by FREQ_BYTE and FREQ_RUN (R260). -/
  | countOverflow
  /-- 0x0B, raised by dispatch (R261). -/
  | badSequence
  /-- 0x0C, raised by dispatch (R262). -/
  | illegalCommand
  deriving DecidableEq, Repr

/-- A node number, 0 to 510: an entry of the arena (R7 `MAX_NODES` = 511, R30). -/
abbrev NodeIx := Fin 511

/-- `NODE_KIND[i]` (R30): 0 is a Leaf, 1 an Internal. -/
inductive NodeKind where
  | leaf
  | internal
  deriving DecidableEq, Repr

/-- One entry of the five parallel files of the node arena (R30). `freq` is a count of `CNT_W` bits,
held as a number (R9, R27: every count is at most `2^CNT_W − 1`, and none wraps). DEDUCED, log entry 8. -/
structure Node where
  kind : NodeKind
  sym : Byte
  freq : Nat
  left : NodeIx
  right : NodeIx
  deriving DecidableEq, Repr

/-- A code of `len` choices, left-aligned in 16 bits: choice `i` at bit `15 − i` (R29, R70). A length of
0 means no code. -/
structure Code where
  len : Fin 17
  bits : Word
  deriving DecidableEq, Repr

/-- One entry of the inverse table: `IT_SYM`, `IT_LEN` and `IT_CODE` (R33). -/
structure Entry where
  sym : Byte
  code : Code
  deriving DecidableEq, Repr

/-- What the outside world can do to the block between two commands (R40, R296). -/
inductive HostEvent where
  /-- Write `data` to the REG address `addr`; a write to `CMD` executes a command (R38, R39). -/
  | writeReg (addr : Nat) (data : Word)
  /-- Read the REG address `addr` (R39, R40). -/
  | readReg (addr : Nat)
  /-- Attach, replace or reposition the source (R61, R66, R267, R296): its bytes are
  `consumed ++ rest`, and its position is after `consumed`. DEDUCED, log entry 4. -/
  | attachSource (consumed rest : List Byte)
  /-- Assert reset (R290). It is one event between two commands: DEDUCED, log entry 6. -/
  | assertReset
  deriving DecidableEq, Repr

/-- A step stops. -/
inductive Fault where
  /-- Raised by CODE_GEN when the arena's child links lead round in a circle, so that the recursion of
  R161 never ends. R161 rests on R146 (a child number is smaller than its parent's), which every
  TREE_BUILD establishes, so no run from reset reaches such an arena. Safe: the machine stops where
  the spec's own pseudocode has no result. DESIGN CHOICE, log entry 11. -/
  | treeCycle
  deriving DecidableEq, Repr

/-- A step has no meaning. -/
inductive Refusal where
  /-- Raised by `exec` for a command that has no meaning yet; in this model, for none. Safe. -/
  | notModelled (mnemonic : String)
  deriving DecidableEq, Repr

/-- The state: the fields of R20, then the inputs (R43, R61, R296). -/
structure State where
  /-- `PHASE` (R21). -/
  phase : Phase
  /-- `ERR` (R23). -/
  err : ErrKind
  /-- `ERRINFO` (R24). -/
  errInfo : Word
  /-- `NSYM`, 0 to 256 (R25). -/
  nsym : Fin 257
  /-- `PAD`, 0 to 7 (R26). -/
  pad : Fin 8
  /-- `TOTAL`, a count of `CNT_W` bits (R27). -/
  total : Nat
  /-- `FT[0..255]`, counts of `CNT_W` bits (R28). -/
  ft : Table Nat 256
  /-- `NODE_KIND/SYM/FREQ/LEFT/RIGHT[0..510]` (R30). -/
  nodes : Table Node 511
  /-- `NNODES`, 0 to 511 (R31). -/
  nnodes : Fin 512
  /-- `ROOT`, 0 to 510 (R31). -/
  root : NodeIx
  /-- The working list `[WL[0], ..., WL[WL_LEN − 1]]`; `WL_LEN` is its length (R32). -/
  wl : List NodeIx
  /-- The entries `WL[WL_LEN], ..., WL[255]`: what earlier shifts left there (R32). DEDUCED, log
  entry 10. -/
  wlStale : List NodeIx
  /-- `CT_LEN[0..255]`, `CT_CODE[0..255]` (R29). -/
  ct : Table Code 256
  /-- `IT_SYM/LEN/CODE[0..255]` (R33). -/
  it : Table Entry 256
  /-- `IT_N`, 0 to 256 (R33). -/
  itN : Fin 257
  /-- `ACC` (R34). -/
  acc : Byte
  /-- `FILL`, 0 to 7 (R34). -/
  fill : Fin 8
  /-- `CAND` (R35). -/
  cand : Word
  /-- `CAND_LEN`, 0 to 16 (R35). -/
  candLen : Fin 17
  /-- `SP`, the offset of the next source byte (R36). -/
  sp : Nat
  /-- `SNK`, the bytes written since reset, oldest first (R37). A byte space is the sequence of its bytes:
  DEDUCED, log entry 7. -/
  snk : List Byte
  /-- The parameters `CNT_W` and `SINGLE_SYMBOL_POLICY` (R8, R43). No step changes them. DESIGN CHOICE,
  log entry 1. -/
  cfg : Config
  /-- `SRC`, the source bytes; `SRC_LEN` is its length (R43, R61). No command changes them. DESIGN
  CHOICE, log entry 2. -/
  src : List Byte
  /-- What the host does next, in order: one event a step (R16, R17, R40, R296). DESIGN CHOICE, log
  entry 3. -/
  host : List HostEvent
  /-- What the last host read of REG returned (R39). The model's own field: DESIGN CHOICE, log entry 5. -/
  rdata : Nat
  deriving DecidableEq, Repr

/-- An unused arena entry (R30, R41). -/
def Node.zero : Node := { kind := .leaf, sym := 0, freq := 0, left := 0, right := 0 }

/-- No code (R29, R41). -/
def Code.zero : Code := { len := 0, bits := 0 }

/-- An unused inverse-table entry (R33, R41). -/
def Entry.zero : Entry := { sym := 0, code := Code.zero }

/-- The state after reset (R41, R290, R291), with the default parameters (R8), no source attached, and a
host that does nothing (DESIGN CHOICE, log entries 1, 2, 3 and 5). -/
def State.reset : State where
  phase := .idle
  err := .noError
  errInfo := 0
  nsym := 0
  pad := 0
  total := 0
  ft := Table.fill 256 0
  nodes := Table.fill 511 Node.zero
  nnodes := 0
  root := 0
  wl := []
  wlStale := List.replicate 256 0
  ct := Table.fill 256 Code.zero
  it := Table.fill 256 Entry.zero
  itN := 0
  acc := 0
  fill := 0
  cand := 0
  candLen := 0
  sp := 0
  snk := []
  cfg := Config.default
  src := []
  host := []
  rdata := 0

end Sys2Proof.Machine
end

