-- ==== Sys2Proof/Machine/Flags.lean ====
section
/-! DEFINITION. The numbers of the sequencing and error registers (spec/10_state.md R21, R23,
spec/60_exceptions.md R250), the phase table that says which command is legal when (R22), and the two
commands and the reset-like one that run out of `FAULT` (R95). `ERR` is the block's only status flag
(R23): there are no arithmetic condition codes (R45). -/

namespace Sys2Proof.Machine

/-- The 4-bit value of `PHASE` (R21). -/
def Phase.code : Phase → BitVec 4
  | .idle => 0
  | .counting => 1
  | .treeReady => 2
  | .codesReady => 3
  | .packing => 4
  | .tableReady => 5
  | .done => 6
  | .fault => 15

/-- The 8-bit value of `ERR` (R250). -/
def ErrKind.code : ErrKind → Byte
  | .noError => 0x00
  | .emptyInput => 0x01
  | .singleSymbolInput => 0x02
  | .codeTooLong => 0x03
  | .malformedHeader => 0x04
  | .duplicateCode => 0x05
  | .truncatedPayload => 0x06
  | .ioError => 0x07
  | .unmatchedCode => 0x08
  | .noCodeForSymbol => 0x09
  | .countOverflow => 0x0A
  | .badSequence => 0x0B
  | .illegalCommand => 0x0C

/-- `NODE_KIND` as the one bit it is (R30). -/
def NodeKind.code : NodeKind → BitVec 1
  | .leaf => 0
  | .internal => 1

/-- The column "legal in" of R22. -/
def legalIn : Instr → Phase → Bool
  | .clear, _ => true
  | .rewind, p => p != .fault
  | .freqByte _, p => p == .idle || p == .counting
  | .freqRun, p => p == .idle || p == .counting
  | .treeBuild, p => p == .idle || p == .counting
  | .codeGen, p => p == .treeReady
  | .encHeader, p => p == .codesReady
  | .packSym _, p => p == .packing
  | .packRun, p => p == .packing
  | .packFlush, p => p == .packing
  | .decHeader, p => p == .idle
  | .unpackRun, p => p == .tableReady
  | .compress, _ => true
  | .decompress, _ => true

/-- The commands that `FAULT` does not ignore: CLEAR, COMPRESS and DECOMPRESS (R95). -/
def runsInFault : Instr → Bool
  | .clear => true
  | .compress => true
  | .decompress => true
  | .rewind => false
  | .freqByte _ => false
  | .freqRun => false
  | .treeBuild => false
  | .codeGen => false
  | .encHeader => false
  | .packSym _ => false
  | .packRun => false
  | .packFlush => false
  | .decHeader => false
  | .unpackRun => false

end Sys2Proof.Machine
end

