-- ==== Sys2Proof/Machine/Operands.lean ====
section
/-! DEFINITION. The operand forms: symbols and their 16-bit form, codes as bit-strings and as packed
registers (spec/00_scope.md R10, R11, spec/20_memory.md R68 to R70), and the fields of the compressed
file (spec/30_encoding.md R96 to R100). -/

namespace Sys2Proof.Machine

/-- The 256 symbols in ascending unsigned order: `for s in 0..255` (R8 `LEAF_ORDER`, `RECORD_ORDER`;
R15). -/
def symbols : List Byte := (List.range 256).map (BitVec.ofNat 8)

/-- `zext_16` of a symbol (R10). -/
def zext16 (b : Byte) : Word := b.setWidth 16

/-- Bit `7 − j` of a byte: the `j`-th bit in stream order (R10 "MSB-first", R68). -/
def streamBit (b : Byte) (j : Nat) : Bool := b.getMsbD j

/-- A bit-string packed left-aligned in 16 bits: `Σ_k path[k] × 2^(15−k)`, choice `k` at bit `15 − k`
(R70, R161). -/
def leftAlign : List Bool → Word
  | [] => 0
  | b :: rest => (if b then (0x8000 : Word) else 0) ||| (leftAlign rest >>> 1)

/-- The registers `(CT_LEN, CT_CODE)` or `(IT_LEN, IT_CODE)` of a bit-string of at most 16 choices
(R29, R33, R70). -/
def Code.ofBits (c : List Bool) : Code := { len := Fin.ofNat 17 c.length, bits := leftAlign c }

/-- Choice `i` of a packed code: bit `15 − i` of its register (R29, R70). -/
def Code.bit (c : Code) (i : Nat) : Bool := c.bits.getMsbD i

/-- The bit-string a packed code holds, the choice at the root first (R11, R29). -/
def Code.toBits (c : Code) : List Bool := (List.range c.len.val).map c.bit

/-- The character of a choice: ASCII '0' or '1' (R69, R99). PRESUMED by the spec itself, log entry
18. -/
def choiceChar (b : Bool) : Byte := if b then 0x31 else 0x30

/-- The byte written in unused positions of a code field (R8, R99). -/
def filler : Byte := 0x00

/-- The 16 bytes of the code field of a record (R99). -/
def codeField (c : Code) : List Byte :=
  (List.range 16).map fun i => if i < c.len.val then choiceChar (c.bit i) else filler

/-- Reading a code field: the bytes before the first 0x00, or all 16, each of which is the character
of a choice; `none` where the code is empty or a byte is neither 0x30 nor 0x31. The bytes after the
first 0x00 are ignored (R100). -/
def readCodeField (f : List Byte) : Option (List Bool) :=
  let chars := f.takeWhile (· != 0x00)
  if chars.isEmpty then none
  else if chars.all (fun ch => ch == 0x30 || ch == 0x31) then some (chars.map (· == 0x31))
  else none

/-- The paddingBitCount byte (R96). -/
def padByte (pad : Fin 8) : Byte := BitVec.ofNat 8 pad.val

/-- The uniqueSymbolCount byte: 256 is encoded as 0 (R97). -/
def countByte (nsym : Fin 257) : Byte := BitVec.ofNat 8 (nsym.val % 256)

/-- The count a uniqueSymbolCount byte means: 0 means 256 (R97). -/
def readCountByte (c : Byte) : Fin 257 := if c = 0 then 256 else Fin.ofNat 257 c.toNat

/-- The 17 bytes of a SymbolCodeRecord (R98, R99). -/
def recordBytes (sym : Byte) (c : Code) : List Byte := sym :: codeField c

/-- The padding of a payload of `bits` bits (R171). -/
def padOf (bits : Nat) : Fin 8 := Fin.ofNat 8 ((8 - bits % 8) % 8)

end Sys2Proof.Machine
end

