-- ==== Sys2Proof/Machine/Ops.lean ====
section
/-! DEFINITION. The named operations over the state: the register files, the two streams
(spec/00_scope.md R13), trap entry (spec/60_exceptions.md R263), clearing (the only return from a trap,
R267, R230), how a command's body ends, and the dispatch checks every command starts with
(spec/30_encoding.md R93). -/

namespace Sys2Proof.Machine

/-! ### How the body of a command ends -/

/-- The result of running pseudocode: it ran to its end, it raised (nothing after the raise ran, R14), or
it has no end (`Fault`). -/
inductive Run where
  | done (s : State)
  | raised (s : State)
  | stuck (f : Fault)
  deriving DecidableEq, Repr

/-- Statement after statement: what follows runs only if what precedes ran to its end (R14, R15). -/
def Run.andThen (r : Run) (k : State → Run) : Run :=
  match r with
  | .done s => k s
  | .raised s => .raised s
  | .stuck f => .stuck f

/-- A command that completed and one that raised both leave a next state (R17, R42, R263). -/
def Run.outcome : Run → Host.Outcome State Fault Refusal
  | .done s => .next s
  | .raised s => .next s
  | .stuck f => .fault f

/-- `for x in xs: body x` where the body may raise (R14, R15). -/
def forEach {α : Type} (body : α → State → Run) : List α → State → Run
  | [], s => .done s
  | x :: xs, s => (body x s).andThen (forEach body xs)

/-! ### Trap entry -/

/-- What trap entry writes, and nothing else: `ERR`, `ERRINFO` and `PHASE` (R263). Everything written
before it stays (R42, R264). -/
def State.trap (s : State) (k : ErrKind) (info : Word) : State :=
  { s with err := k, errInfo := info, phase := .fault }

/-- `raise K(info)`: the one shared operation of taking an exception (R14, R263). -/
def State.raise (s : State) (k : ErrKind) (info : Word) : Run := .raised (s.trap k info)

/-! ### Clearing: the only exit from a trap -/

/-- Every field of R20 except `SP` and `SNK` gets its reset value (R230, R267, R292). The inputs are no
fields of R20 and stay. -/
def State.clear (s : State) : State :=
  { State.reset with
    sp := s.sp, snk := s.snk, cfg := s.cfg, src := s.src, host := s.host, rdata := s.rdata }

/-! ### The register files -/

/-- `FT[b]` (R28). -/
def State.ftAt (s : State) (b : Byte) : Nat := s.ft.get (symIx b)

/-- `FT[b] <- n` (R28). -/
def State.setFt (s : State) (b : Byte) (n : Nat) : State := { s with ft := s.ft.set (symIx b) n }

/-- `(CT_LEN[b], CT_CODE[b])` (R29). -/
def State.ctAt (s : State) (b : Byte) : Code := s.ct.get (symIx b)

/-- `CT_LEN[b] <- ... ; CT_CODE[b] <- ...` (R29). -/
def State.setCt (s : State) (b : Byte) (c : Code) : State := { s with ct := s.ct.set (symIx b) c }

/-- A node number as the 9-bit registers hold it. Every number written is below `MAX_NODES` (R7, R31);
DEDUCED, log entry 16. -/
def nodeIx (n : Nat) : NodeIx := Fin.ofNat 511 n

/-- `NODE_*[i]` (R30). -/
def State.nodeAt (s : State) (i : NodeIx) : Node := s.nodes.get i

/-- `NODE_*[i] <- ...` (R30). -/
def State.setNode (s : State) (i : NodeIx) (nd : Node) : State := { s with nodes := s.nodes.set i nd }

/-- The entries of the frequency table, in ascending symbol order: the symbols with `FT[b] > 0`, each
with its count (R28, R142). -/
def State.counted (s : State) : List (Byte × Nat) :=
  (symbols.zip s.ft.cells).filter fun e => 0 < e.2

/-- The symbols with an entry in the frequency table, ascending (R28, R142). -/
def State.present (s : State) : List Byte := s.counted.map Prod.fst

/-- The first `IT_N` records, in file order (R33). -/
def State.records (s : State) : List Entry := s.it.cells.take s.itN.val

/-! ### The streams -/

/-- `SRC_LEN` (R61). -/
def State.srcLen (s : State) : Nat := s.src.length

/-- `SrcRemaining() = SRC_LEN − SP` (R13, R65), 0 past the end (DEDUCED, log entry 16). -/
def State.srcRemaining (s : State) : Nat := s.srcLen - s.sp

/-- `MemRead(SRC, SP, 1)` where `SrcRemaining() ≥ 1` (R13); `none` at the end of the source. -/
def State.srcByte (s : State) : Option Byte := s.src[s.sp]?

/-- `SP <- SP + 1` (R13, R36). -/
def State.advance (s : State) : State := { s with sp := s.sp + 1 }

/-- `SrcRewind()`: `SP <- 0` (R13). -/
def State.srcRewind (s : State) : State := { s with sp := 0 }

/-- `n` times `SrcRead()`, in order (R13). It is called only where `SrcRemaining() ≥ n`; at the end of
the source it reads nothing more. -/
def State.srcReads : Nat → State → List Byte × State
  | 0, s => ([], s)
  | n + 1, s =>
    match s.srcByte with
    | none => ([], s)
    | some b => (b :: (State.srcReads n s.advance).1, (State.srcReads n s.advance).2)

/-- `SinkWrite(b)`: append one byte; it never fails (R13, R62; log entry 13). -/
def State.sinkWrite (s : State) (b : Byte) : State := { s with snk := s.snk ++ [b] }

/-- `SinkWrite` of each byte in turn (R62). -/
def State.sinkWrites (s : State) (bs : List Byte) : State := { s with snk := s.snk ++ bs }

/-- `while SrcRemaining() ≥ 1: b <- SrcRead(); body(b)` (R131, R202), at most `fuel` times. -/
def drainFor (body : Byte → State → Run) : Nat → State → Run
  | 0, s => .done s
  | fuel + 1, s =>
    match s.srcByte with
    | none => .done s
    | some b => (body b s.advance).andThen (drainFor body fuel)

/-- The loop of FREQ_RUN and PACK_RUN. `SRC_LEN − SP` bounds it (R310). -/
def drain (body : Byte → State → Run) (s : State) : Run := drainFor body s.srcRemaining s

/-! ### Dispatch -/

/-- A command issued in a state (R93): in `FAULT` every command but CLEAR, COMPRESS and DECOMPRESS is
ignored (R95); a command that is not legal in the phase raises `BadSequence` with its word (R22,
R261); otherwise its rule runs. -/
def issue (i : Instr) (body : State → Run) (s : State) : Host.Outcome State Fault Refusal :=
  if s.phase = .fault ∧ runsInFault i = false then .next s
  else if legalIn i s.phase then (body s).outcome
  else (s.raise .badSequence (encode i)).outcome

end Sys2Proof.Machine
end

