-- ==== Sys2Proof/Machine/CodeTable.lean ====
section
/-! DEFINITION. The code table generator command CODE_GEN (spec/42_code_table_generator.md R160 to
R164). -/

namespace Sys2Proof.Machine

/-- Visit(`i`, `path`) (R161), left before right. `fuel` bounds the length of the path: a path of more
than `MAX_NODES` nodes meets a node twice, and then the recursion of R161 has no end (`treeCycle`). DESIGN CHOICE, log entry 11. -/
def visit : Nat → NodeIx → List Bool → State → Run
  | 0, _, _, _ => .stuck .treeCycle
  | fuel + 1, i, path, s =>
    match (s.nodeAt i).kind with
    | .leaf =>
      if 16 < path.length then s.raise .codeTooLong (zext16 (s.nodeAt i).sym)
      else .done (s.setCt (s.nodeAt i).sym (Code.ofBits path))
    | .internal =>
      (visit fuel (s.nodeAt i).left (path ++ [false]) s).andThen fun s' =>
        visit fuel (s.nodeAt i).right (path ++ [true]) s'

/-- The codes of a tree (R160): a Leaf as root gets the code "0" (R162). -/
def assignCodes (s : State) : Run :=
  match (s.nodeAt s.root).kind with
  | .leaf => .done (s.setCt (s.nodeAt s.root).sym (Code.ofBits [false]))
  | .internal => visit 511 s.root [] s

/-- The body of CODE_GEN (R160). -/
def generateCodes (s : State) : Run :=
  (assignCodes s).andThen fun s => .done { s with phase := .codesReady }

/-- CODE_GEN (R160). -/
def execCodeGen (s : State) : Host.Outcome State Fault Refusal :=
  issue .codeGen generateCodes s

end Sys2Proof.Machine
end

