-- ==== Sys2Proof/Machine/Framer.lean ====
section
/-! DEFINITION. The codec framer commands ENC_HEADER and DEC_HEADER (spec/43_codec_framer.md R170 to
R178). -/

namespace Sys2Proof.Machine

/-- The total encoded bit length `Σ_s FT[s] × CT_LEN[s]` (R170, R171). -/
def State.encodedBits (s : State) : Nat :=
  (List.zipWith (fun n c => n * c.len.val) s.ft.cells s.ct.cells).sum

/-- The records ENC_HEADER writes, ascending by symbol (R170, R98). -/
def State.tableBytes (s : State) : List Byte :=
  (symbols.zip s.ct.cells).flatMap fun e => if e.2.len.val = 0 then [] else recordBytes e.1 e.2

/-- The body of ENC_HEADER (R170). -/
def writeHeader (s : State) : Run :=
  let pad := padOf s.encodedBits
  let s1 : State := { s with pad := pad }
  let s2 := s1.sinkWrites (padByte pad :: countByte s.nsym :: s.tableBytes)
  .done { s2 with acc := 0, fill := 0, phase := .packing }

/-- ENC_HEADER (R170). -/
def execEncHeader (s : State) : Host.Outcome State Fault Refusal :=
  issue .encHeader writeHeader s

/-- The 16-bit diagnostic value of an error in record `r` (R254, R255). -/
def recordInfo (r : Nat) : Word := BitVec.ofNat 16 r

/-- The number of an inverse-table entry; every record index is below 256 (R33). -/
def entryIx (r : Nat) : Fin 256 := Fin.ofNat 256 r

/-- Accepting record `r`: `IT_SYM[r]`, `IT_LEN[r]`, `IT_CODE[r]`, then `IT_N <- r + 1` (R173). -/
def State.acceptRecord (s : State) (r : Nat) (sym : Byte) (c : Code) : State :=
  { s with it := s.it.set (entryIx r) { sym := sym, code := c }, itN := Fin.ofNat 257 (r + 1) }

/-- ReadRecord(`r`) (R173). -/
def readRecord (r : Nat) (s : State) : Run :=
  if s.srcRemaining < 17 then s.raise .malformedHeader (recordInfo r)
  else
    let s1 := (State.srcReads 17 s).2
    match (State.srcReads 17 s).1 with
    | [] => s1.raise .malformedHeader (recordInfo r)
    | sym :: field =>
      match readCodeField field with
      | none => s1.raise .malformedHeader (recordInfo r)
      | some c =>
        if (s1.it.cells.take r).any (fun e => e.code == Code.ofBits c) then
          s1.raise .duplicateCode (recordInfo r)
        else .done (s1.acceptRecord r sym (Code.ofBits c))

/-- The body of DEC_HEADER after its two header bytes `p` and `c` have been read (R172). -/
def readTable (p c : Byte) (s : State) : Run :=
  if 7 < p.toNat then s.raise .malformedHeader 0xFFFF
  else
    let s1 : State := { s with pad := Fin.ofNat 8 p.toNat, nsym := readCountByte c }
    (forEach readRecord (List.range s1.nsym.val) s1).andThen fun s =>
      .done { s with cand := 0, candLen := 0, phase := .tableReady }

/-- The body of DEC_HEADER (R172). -/
def readHeader (s : State) : Run :=
  if s.srcRemaining < 2 then s.raise .malformedHeader 0xFFFF
  else
    match State.srcReads 2 s with
    | ([p, c], s1) => readTable p c s1
    | (_, s1) => s1.raise .malformedHeader 0xFFFF

/-- DEC_HEADER (R172). -/
def execDecHeader (s : State) : Host.Outcome State Fault Refusal :=
  issue .decHeader readHeader s

end Sys2Proof.Machine
end

