-- ==== Sys2Proof/Machine/Frequency.lean ====
section
/-! DEFINITION. The frequency analyzer commands FREQ_BYTE and FREQ_RUN
(spec/40_frequency_analyzer.md R130, R131). -/

namespace Sys2Proof.Machine

/-- The body of FREQ_BYTE (R130). -/
def countSymbol (sym : Byte) (s : State) : Run :=
  if s.total = s.cfg.maxCount then s.raise .countOverflow (zext16 sym)
  else .done { s.setFt sym (s.ftAt sym + 1) with total := s.total + 1, phase := .counting }

/-- The body of FREQ_RUN (R131). -/
def countSource (s : State) : Run :=
  (drain countSymbol s).andThen fun s => .done { s with phase := .counting }

/-- FREQ_BYTE `sym` (R130). -/
def execFreqByte (sym : Byte) (s : State) : Host.Outcome State Fault Refusal :=
  issue (.freqByte sym) (countSymbol sym) s

/-- FREQ_RUN (R131). -/
def execFreqRun (s : State) : Host.Outcome State Fault Refusal :=
  issue .freqRun countSource s

end Sys2Proof.Machine
end

