-- ==== Sys2Proof/Machine/Packer.lean ====
section
/-! DEFINITION. The bit packer commands PACK_SYM, PACK_RUN and PACK_FLUSH (spec/44_bit_packer.md R200 to
R204). -/

namespace Sys2Proof.Machine

/-- `ACC <- 0 ; FILL <- 0` (R200, R203). -/
def State.emptyAcc (s : State) : State := { s with acc := 0, fill := 0 }

/-- `ACC` with the bit `b` at position `7 − FILL` set or left clear (R200). -/
def placeBit (acc : Byte) (fill : Fin 8) (b : Bool) : Byte :=
  if b then acc ||| ((1 : Byte) <<< (7 - fill.val)) else acc

/-- PutBit(`b`) (R200): the eighth bit writes the byte out. -/
def putBit (s : State) (b : Bool) : State :=
  let acc := placeBit s.acc s.fill b
  if s.fill = 7 then ({ s with acc := acc }.sinkWrite acc).emptyAcc
  else { s with acc := acc, fill := s.fill + 1 }

/-- The body of PACK_SYM (R201): the choice at the root first. -/
def packSymbol (sym : Byte) (s : State) : Run :=
  if (s.ctAt sym).len.val = 0 then s.raise .noCodeForSymbol (zext16 sym)
  else .done ((s.ctAt sym).toBits.foldl putBit s)

/-- The body of PACK_RUN (R202). -/
def packSource (s : State) : Run := drain packSymbol s

/-- The body of PACK_FLUSH (R203). -/
def flush (s : State) : Run :=
  let s1 := if s.fill = 0 then s else (s.sinkWrite s.acc).emptyAcc
  .done { s1 with phase := .done }

/-- PACK_SYM `sym` (R201). -/
def execPackSym (sym : Byte) (s : State) : Host.Outcome State Fault Refusal :=
  issue (.packSym sym) (packSymbol sym) s

/-- PACK_RUN (R202). -/
def execPackRun (s : State) : Host.Outcome State Fault Refusal :=
  issue .packRun packSource s

/-- PACK_FLUSH (R203). -/
def execPackFlush (s : State) : Host.Outcome State Fault Refusal :=
  issue .packFlush flush s

end Sys2Proof.Machine
end

