-- ==== Sys2Proof/Machine/TreeBuilder.lean ====
section
/-! DEFINITION. The tree builder command TREE_BUILD (spec/41_tree_builder.md R140 to R145). -/

namespace Sys2Proof.Machine

/-- The Leaf of a symbol (R30, R140 step 1). -/
def leafOf (b : Byte) (freq : Nat) : Node :=
  { kind := .leaf, sym := b, freq := freq, left := 0, right := 0 }

/-- Leaf creation (R140 step 1, R142): the entries of the frequency table, ascending, become the nodes
`n`, `n + 1`, ... -/
def placeLeaves : List (Byte × Nat) → Nat → State → State
  | [], _, s => s
  | e :: es, n, s => placeLeaves es (n + 1) (s.setNode (nodeIx n) (leafOf e.1 e.2))

/-- `NODE_FREQ[i]` (R30). -/
def State.freqOf (s : State) (i : NodeIx) : Nat := (s.nodeAt i).freq

/-- The position InsertOrdered finds: the least `k` with `NODE_FREQ[WL[k]] > NODE_FREQ[x]`, or `WL_LEN`
(R141). -/
def State.insertPos (s : State) (x : NodeIx) : Nat :=
  s.wl.findIdx fun k => decide (s.freqOf x < s.freqOf k)

/-- InsertOrdered(`x`) (R141). The entries from the position on move up by one, the last of them over
`WL[WL_LEN]`. -/
def State.insertOrdered (s : State) (x : NodeIx) : State :=
  { s with
    wl := s.wl.take (s.insertPos x) ++ x :: s.wl.drop (s.insertPos x)
    wlStale := s.wlStale.drop 1 }

/-- `for i in 0..n-1: InsertOrdered(i)` from an empty list (R140, R142). -/
def insertLeaves : List Nat → State → State
  | [], s => s
  | i :: is, s => insertLeaves is (s.insertOrdered (nodeIx i))

/-- `WL_LEN <- 0` (R140): the entries stay in the file, none of them in the list. -/
def State.emptyWl (s : State) : State := { s with wl := [], wlStale := s.wl ++ s.wlStale }

/-- The Internal node of a merge: the first removed is the left child, the second the right (R143). -/
def mergedNode (s : State) (a b : NodeIx) : Node :=
  { kind := .internal, sym := 0, freq := s.freqOf a + s.freqOf b, left := a, right := b }

/-- One merge step (R140 step 2, R143), given the two head entries `a`, `b` and the rest of the list: the
rest moves down by two, which leaves the last two entries of the file as they were. -/
def mergeStep (a b : NodeIx) (rest : List NodeIx) (s : State) : State :=
  let x := nodeIx s.nnodes.val
  let s1 : State :=
    { s with wl := rest, wlStale := (a :: b :: rest).drop rest.length ++ s.wlStale }
  let s2 : State :=
    { s1.setNode x (mergedNode s a b) with nnodes := Fin.ofNat 512 (s.nnodes.val + 1) }
  s2.insertOrdered x

/-- `while WL_LEN ≥ 2:` merge (R140 step 2), at most `fuel` times. Each merge shortens the list by one
(R143), so `WL_LEN` bounds the loop. -/
def mergeFor : Nat → State → State
  | 0, s => s
  | fuel + 1, s =>
    match s.wl with
    | a :: b :: rest => mergeFor fuel (mergeStep a b rest s)
    | _ => s

/-- The body of TREE_BUILD (R140). -/
def buildTree (s : State) : Run :=
  let n := s.counted.length
  let s1 : State := { placeLeaves s.counted 0 s with nsym := Fin.ofNat 257 n }
  if n = 0 then s1.raise .emptyInput 0
  else if n = 1 ∧ s.cfg.policy = .fault then
    s1.raise .singleSymbolInput (zext16 (s1.nodeAt 0).sym)
  else
    let s2 := insertLeaves (List.range n) { s1.emptyWl with nnodes := Fin.ofNat 512 n }
    let s3 := mergeFor s2.wl.length s2
    .done { s3 with root := s3.wl.headD 0, phase := .treeReady }

/-- TREE_BUILD (R140). -/
def execTreeBuild (s : State) : Host.Outcome State Fault Refusal :=
  issue .treeBuild buildTree s

end Sys2Proof.Machine
end

