-- ==== Sys2Proof/Machine/Unpacker.lean ====
section
/-! DEFINITION. The bit unpacker command UNPACK_RUN (spec/45_bit_unpacker.md R215 to R218). -/

namespace Sys2Proof.Machine

/-- `CAND <- 0 ; CAND_LEN <- 0` (R215). -/
def State.emptyCand (s : State) : State := { s with cand := 0, candLen := 0 }

/-- The candidate with the bit `b` appended: `CAND | (b << (15 − CAND_LEN))`, one choice longer (R215).
Between two bits `CAND_LEN ≤ 15` (R35); DEDUCED, log entry 16. -/
def State.appendCand (s : State) (b : Bool) : State :=
  { s with
    cand := s.cand ||| (if b then (1 : Word) <<< (15 - s.candLen.val) else 0)
    candLen := Fin.ofNat 17 (s.candLen.val + 1) }

/-- The record whose code is the candidate: same length and same bits (R33, R215). It is the only one
when DEC_HEADER filled the table (R175). -/
def State.matchCand (s : State) : Option Entry :=
  s.records.find? fun e => e.code == { len := s.candLen, bits := s.cand }

/-- UnpackBit(`b`) (R215): the match is tested after every bit. -/
def unpackBit (b : Bool) (s : State) : Run :=
  let s1 := s.appendCand b
  match s1.matchCand with
  | some e => .done (s1.sinkWrite e.sym).emptyCand
  | none => if s1.candLen = 16 then s1.raise .unmatchedCode s1.cand else .done s1

/-- The bits of a payload byte in stream order: 8 of them, or `8 − PAD` of the final byte (R216). -/
def payloadBits (b : Byte) (count : Nat) : List Bool := (List.range count).map (streamBit b)

/-- The loop over the payload bytes of UNPACK_RUN, `m` of them left (R216). -/
def unpackFor : Nat → State → Run
  | 0, s => .done s
  | m + 1, s =>
    match s.srcByte with
    | none => .done s
    | some b =>
      let nb := if m = 0 then 8 - s.pad.val else 8
      (forEach unpackBit (payloadBits b nb) s.advance).andThen (unpackFor m)

/-- After the last bit the candidate must be empty (R216). -/
def checkCand (s : State) : Run :=
  if s.candLen ≠ 0 then s.raise .truncatedPayload (BitVec.ofNat 16 s.candLen.val) else .done s

/-- The payload of `m = SrcRemaining()` bytes (R216): with no byte there must be no padding. -/
def decodePayload (s : State) : Run :=
  if s.srcRemaining = 0 then
    if s.pad ≠ 0 then s.raise .truncatedPayload 0 else .done s
  else (unpackFor s.srcRemaining s).andThen checkCand

/-- The body of UNPACK_RUN (R216). -/
def unpackPayload (s : State) : Run :=
  (decodePayload s).andThen fun s => .done { s with phase := .done }

/-- UNPACK_RUN (R216). -/
def execUnpackRun (s : State) : Host.Outcome State Fault Refusal :=
  issue .unpackRun unpackPayload s

end Sys2Proof.Machine
end

