-- ==== Sys2Proof/Machine/Control.lean ====
section
/-! DEFINITION. The control and top-level commands CLEAR, REWIND, COMPRESS and DECOMPRESS
(spec/46_control_and_top.md R230 to R233). -/

namespace Sys2Proof.Machine

/-- The body of CLEAR (R230). -/
def clearAll (s : State) : Run := .done s.clear

/-- The body of REWIND (R231). -/
def rewindSource (s : State) : Run := .done s.srcRewind

/-- The body of COMPRESS (R232): the bodies of the unit commands in order, up to the first raise. The
dispatch checks are not repeated: each step leaves the phase the next one needs (DEDUCED, log
entry 19). -/
def compressSource (s : State) : Run :=
  (clearAll s)
    |>.andThen rewindSource
    |>.andThen countSource
    |>.andThen buildTree
    |>.andThen generateCodes
    |>.andThen writeHeader
    |>.andThen rewindSource
    |>.andThen packSource
    |>.andThen flush

/-- The body of DECOMPRESS (R233). -/
def decompressSource (s : State) : Run :=
  (clearAll s)
    |>.andThen readHeader
    |>.andThen unpackPayload

/-- CLEAR (R230). -/
def execClear (s : State) : Host.Outcome State Fault Refusal :=
  issue .clear clearAll s

/-- REWIND (R231). -/
def execRewind (s : State) : Host.Outcome State Fault Refusal :=
  issue .rewind rewindSource s

/-- COMPRESS (R232). -/
def execCompress (s : State) : Host.Outcome State Fault Refusal :=
  issue .compress compressSource s

/-- DECOMPRESS (R233). -/
def execDecompress (s : State) : Host.Outcome State Fault Refusal :=
  issue .decompress decompressSource s

end Sys2Proof.Machine
end

