-- ==== Sys2Proof/Machine/Dispatch.lean ====
section
/-! DEFINITION. One arm per command: the meaning of each row of spec/opcode_table.json. -/

namespace Sys2Proof.Machine

def exec (i : Instr) (s : State) : Host.Outcome State Fault Refusal :=
  match i with
  | .clear => Sys2Proof.Machine.execClear s
  | .rewind => Sys2Proof.Machine.execRewind s
  | .freqByte sym => Sys2Proof.Machine.execFreqByte sym s
  | .freqRun => Sys2Proof.Machine.execFreqRun s
  | .treeBuild => Sys2Proof.Machine.execTreeBuild s
  | .codeGen => Sys2Proof.Machine.execCodeGen s
  | .encHeader => Sys2Proof.Machine.execEncHeader s
  | .packSym sym => Sys2Proof.Machine.execPackSym sym s
  | .packRun => Sys2Proof.Machine.execPackRun s
  | .packFlush => Sys2Proof.Machine.execPackFlush s
  | .decHeader => Sys2Proof.Machine.execDecHeader s
  | .unpackRun => Sys2Proof.Machine.execUnpackRun s
  | .compress => Sys2Proof.Machine.execCompress s
  | .decompress => Sys2Proof.Machine.execDecompress s

end Sys2Proof.Machine
end

