-- ==== Sys2Proof/Machine/Regs.lean ====
section
/-! DEFINITION. The REG space (spec/10_state.md R38 to R40, spec/20_memory.md R63): what a host read of
each address returns, zero-extended to the bus width. -/

namespace Sys2Proof.Machine

/-- `WL[k]` for `k` in 0..255, the entries past `WL_LEN` included (R32, R39; DEDUCED, log entry 10). -/
def State.wlAt (s : State) (k : Nat) : Nat :=
  match (s.wl ++ s.wlStale)[k]? with
  | some x => x.val
  | none => 0

/-- The registers at the addresses 0x0000 to 0x000E (R39). `CMD` reads 0 (R38). -/
def State.scalarReg (s : State) (addr : Nat) : Nat :=
  match addr with
  | 0x0000 => 0
  | 0x0001 => s.phase.code.toNat
  | 0x0002 => s.err.code.toNat
  | 0x0003 => s.errInfo.toNat
  | 0x0004 => s.nsym.val
  | 0x0005 => s.pad.val
  | 0x0006 => s.total
  | 0x0007 => s.nnodes.val
  | 0x0008 => s.root.val
  | 0x0009 => s.wl.length
  | 0x000A => s.acc.toNat
  | 0x000B => s.fill.val
  | 0x000C => s.cand.toNat
  | 0x000D => s.candLen.val
  | 0x000E => s.itN.val
  | _ => 0

/-- A window of `n` registers from `base` up: the read of the entry the address names, if it names one. -/
def window (base n : Nat) (read : Fin n → Nat) (addr : Nat) : Option Nat :=
  if h : base ≤ addr ∧ addr < base + n then some (read ⟨addr - base, by omega⟩) else none

/-- The 256-entry and 511-entry windows of R39, the first that holds the address. -/
def State.fileReg (s : State) (addr : Nat) : Option Nat :=
  window 0x0100 256 (fun i => s.ft.get i) addr
    <|> window 0x0200 256 (fun i => (s.ct.get i).len.val) addr
    <|> window 0x0300 256 (fun i => (s.ct.get i).bits.toNat) addr
    <|> window 0x0400 256 (fun i => s.wlAt i.val) addr
    <|> window 0x0500 256 (fun i => (s.it.get i).sym.toNat) addr
    <|> window 0x0600 256 (fun i => (s.it.get i).code.len.val) addr
    <|> window 0x0700 256 (fun i => (s.it.get i).code.bits.toNat) addr
    <|> window 0x0800 511 (fun i => (s.nodeAt i).kind.code.toNat) addr
    <|> window 0x0A00 511 (fun i => (s.nodeAt i).sym.toNat) addr
    <|> window 0x0C00 511 (fun i => (s.nodeAt i).freq) addr
    <|> window 0x0E00 511 (fun i => (s.nodeAt i).left.val) addr
    <|> window 0x1000 511 (fun i => (s.nodeAt i).right.val) addr

/-- What a host read of `addr` returns (R39): an address that is not listed reads 0. -/
def State.readReg (s : State) (addr : Nat) : Nat :=
  match s.fileReg addr with
  | some v => v
  | none => s.scalarReg addr

end Sys2Proof.Machine
end

