-- ==== Sys2Proof/Machine/Interface.lean ====
section
/-! DEFINITION. What the outside world does to the block between two commands: writes and reads of the
REG space, attaching a source, reset (spec/10_state.md R38 to R40, spec/20_memory.md R61, R66,
spec/70_reset_and_hazards.md R290, R296), and the dispatch of a command word (spec/30_encoding.md
R93). -/

namespace Sys2Proof.Machine

/-- `Execute(w)` (R93): a word that is a command is issued; any other raises `IllegalCommand`, or is
ignored in `FAULT` (R94, R95, R262). -/
def command (w : Word) (s : State) : Host.Outcome State Fault Refusal :=
  match decode w with
  | .ok i => exec i s
  | .error _ => if s.phase = .fault then .next s else (s.raise .illegalCommand w).outcome

/-- Reset (R290, R292): every field of R20 gets its reset value. The parameters, the source bytes, what
the host goes on to do and what it last read are no fields of R20 (DEDUCED, log entry 6). -/
def State.afterReset (s : State) : State :=
  { State.reset with cfg := s.cfg, src := s.src, host := s.host, rdata := s.rdata }

/-- A source whose position is after `consumed` (R61, R66; DEDUCED, log entry 4). -/
def State.attach (s : State) (consumed rest : List Byte) : State :=
  { s with src := consumed ++ rest, sp := consumed.length }

/-- The address of `CMD` (R39). -/
def cmdAddr : Nat := 0x0000

/-- One event of the host. A write to any address but `CMD` is ignored, and a read has no side effect on
the block (R39, R40). The data of a write to `CMD` is the 16 bits of `CMD` (DEDUCED, log entry 12). -/
def hostEvent (e : HostEvent) (s : State) : Host.Outcome State Fault Refusal :=
  match e with
  | .writeReg addr data => if addr = cmdAddr then command data s else .next s
  | .readReg addr => .next { s with rdata := s.readReg addr }
  | .attachSource consumed rest => .next (s.attach consumed rest)
  | .assertReset => .next s.afterReset

/-- The next thing that happens: the host's next event, or nothing, since the block does nothing until
the host writes `CMD` (R291). DESIGN CHOICE, log entry 3. -/
def advanceHost (s : State) : Host.Outcome State Fault Refusal :=
  match s.host with
  | [] => .next s
  | e :: rest => hostEvent e { s with host := rest }

/-- The host's next event becomes the write to `CMD` of the word whose bits are `w`, those above
`nbits` being 0 (R38, R90). -/
def State.withCommand (s : State) (nbits w : Nat) : State :=
  { s with host := .writeReg cmdAddr (BitVec.ofNat 16 (w % 2 ^ nbits)) :: s.host }

end Sys2Proof.Machine
end

