-- ==== Sys2Proof/Machine/Step.lean ====
section
/-! DEFINITION. One step of the machine: one event of the host, which is one command where the host
writes `CMD` (spec/00_scope.md R16, R17). -/

namespace Sys2Proof.Machine

/-- One step: total and deterministic (R17). -/
def step (s : State) : Host.Outcome State Fault Refusal := advanceHost s

/-- The state in which the very next step runs the given command word. -/
def State.withFetchWord (s : State) (nbits w : Nat) : State := s.withCommand nbits w

end Sys2Proof.Machine
end

