-- ==== Sys2Proof/Safety.lean ====
section
/-! DEFINITION. The terms in which claims about the block are stated: bit-strings in the streams, the
launch premises (spec/70_reset_and_hazards.md R294), walks in the tree, and the invariant of every state a run from reset reaches (spec/10_state.md R21 to R37,
spec/41_tree_builder.md R146, spec/42_code_table_generator.md R163, spec/43_codec_framer.md R175). -/

namespace Sys2Proof.Machine

/-- A step is safe when it leaves a next state: neither a fault nor a refusal. A trap is a next state. -/
def Safe (o : Host.Outcome State Fault Refusal) : Prop := ∃ t, o = .next t

/-! ### The streams as memory -/

/-- The form of the byte spaces `SRC` and `SNK`. Each is a finite sequence of bytes, so its offsets
0, 1, ... are all there and none is there twice; what remains to say is that the only address the block
holds, `SP`, is an offset of `SRC` or its end (R36, R60, R64). DEDUCED, log entry 7. -/
abbrev Memory.wf (s : State) : Prop := s.sp ≤ s.srcLen

/-! ### Bit-strings in the streams -/

/-- The bits of a byte sequence in stream order, MSB first (R68). -/
def bitsOf (bytes : List Byte) : List Bool := bytes.flatMap fun b => (List.range 8).map (streamBit b)

/-- The bits in the accumulator, not yet in the sink (R34). -/
def State.pendingBits (s : State) : List Bool := (List.range s.fill.val).map (streamBit s.acc)

/-- The codes of a symbol sequence, one after the other (R102). -/
def State.codeBits (s : State) (xs : List Byte) : List Bool := xs.flatMap fun b => (s.ctAt b).toBits

/-- The source bytes not yet read (R36, R65). -/
def State.rest (s : State) : List Byte := s.src.drop s.sp

/-! ### The launch premises (spec/70_reset_and_hazards.md R294) -/

/-- *CleanEntry* (R294): `PHASE = IDLE`, `ERR = 0`, all tables at their reset values: the frequency table,
the tree, the working list, the code table and the inverse table of R20, with their counts. Unit-level
sequences that do not begin with CLEAR need it. -/
structure CleanEntry (s : State) : Prop where
  phaseIdle : s.phase = .idle
  noError : s.err = .noError
  ftReset : s.ft = State.reset.ft
  nodesReset : s.nodes = State.reset.nodes
  nnodesReset : s.nnodes = State.reset.nnodes
  rootReset : s.root = State.reset.root
  wlReset : s.wl = State.reset.wl
  wlStaleReset : s.wlStale = State.reset.wlStale
  ctReset : s.ct = State.reset.ct
  itReset : s.it = State.reset.it
  itNReset : s.itN = State.reset.itN

/-- *SourceAtStart* (R294): `SP = 0`. DECOMPRESS and DEC_HEADER need it when the file is the whole source,
and unit-level FREQ_RUN to count the whole source. -/
abbrev SourceAtStart (s : State) : Prop := s.sp = 0

/-- *SourceFixed* (R294, R61): a pass begun in `t` reads the same `SRC` as one begun in `s`. FREQ_RUN
followed by PACK_RUN needs it, because the host may attach another source in between; inside one
command, so inside COMPRESS, nothing can break it. -/
abbrev SourceFixed (s t : State) : Prop := t.src = s.src

/-- *NoIOFailure* (R294, R257): the collaborators deliver every byte asked for and accept every byte
written. Every command that touches a stream needs it. The model's streams are those of R61 and R62, so
it holds (log entry 13). -/
def NoIOFailure : Prop :=
  ∀ s : State,
    (1 ≤ s.srcRemaining → s.srcByte.isSome = true) ∧
    (∀ n, n ≤ s.srcRemaining → (s.srcReads n).1.length = n) ∧
    (∀ b, (s.sinkWrite b).snk = s.snk ++ [b]) ∧
    (∀ bs, (s.sinkWrites bs).snk = s.snk ++ bs)

/-- *SinkBase* (R294): `SNK = S0` for a known `S0`; outputs are stated as `SNK = S0 ++ ...`. Every command
that writes the sink needs it. -/
abbrev SinkBase (S0 : List Byte) (s : State) : Prop := s.snk = S0

/-! ### Records of a file -/

/-- One SymbolCodeRecord as any conforming writer may lay it out: the symbol, its code, and the filler
bytes after the terminator (R98, R100, spec/93_implementation_defined.md U1). -/
structure FileRecord where
  sym : Byte
  code : List Bool
  junk : List Byte
  deriving DecidableEq, Repr

/-- The code field of a record: the characters of the code, then a 0x00 and the filler where there is
room (R99, R100). -/
def FileRecord.field (r : FileRecord) : List Byte :=
  r.code.map choiceChar ++ (if r.code.length < 16 then 0x00 :: r.junk else [])

/-- A record has a code of 1 to 16 choices, and its field has 16 bytes (R98, R99). -/
def FileRecord.Valid (r : FileRecord) : Prop :=
  1 ≤ r.code.length ∧ r.code.length ≤ 16 ∧ r.field.length = 16

/-- The 17 bytes of a record (R98). -/
def FileRecord.bytes (r : FileRecord) : List Byte := r.sym :: r.field

/-- The inverse-table entry of a record (R33, R173). -/
def FileRecord.entry (r : FileRecord) : Entry := { sym := r.sym, code := Code.ofBits r.code }

/-- A code field that R100 rejects: it is empty, or a byte before the first 0x00 is no character of a
choice. -/
def BadField (f : List Byte) : Prop :=
  f.head? = some 0x00 ∨ ∃ ch ∈ f.takeWhile (· != 0x00), ch ≠ 0x30 ∧ ch ≠ 0x31

/-- Neither of two bit-strings is a prefix of the other (R163 item 3, R217). -/
def Incomparable (c d : List Bool) : Prop := ¬ c <+: d ∧ ¬ d <+: c

/-! ### The tree -/

/-- The node reached from `i` by a sequence of choices, 0 to the left child and 1 to the right (R161). -/
def State.walk (s : State) : NodeIx → List Bool → Option NodeIx
  | i, [] => some i
  | i, b :: bs =>
    match (s.nodeAt i).kind with
    | .leaf => none
    | .internal => s.walk (if b then (s.nodeAt i).right else (s.nodeAt i).left) bs

/-- `path` leads from the root to a Leaf, the node `i` (R161). -/
def State.LeafPath (s : State) (path : List Bool) (i : NodeIx) : Prop :=
  s.walk s.root path = some i ∧ (s.nodeAt i).kind = .leaf

/-- The children of the Internals `n`, `n + 1`, ..., `m − 1`, left before right. -/
def State.childrenOf (s : State) (n m : Nat) : List NodeIx :=
  (List.range' n (m - n)).flatMap fun k => [(s.nodeAt (nodeIx k)).left, (s.nodeAt (nodeIx k)).right]

/-- The invariants of a completed TREE_BUILD (R146 items 1 to 5). -/
structure State.TreeOk (s : State) : Prop where
  /-- There is at least one symbol. -/
  nsymPos : 1 ≤ s.nsym.val
  /-- Item 1: `NNODES = 2n − 1`. -/
  nnodesEq : s.nnodes.val = 2 * s.nsym.val - 1
  /-- Item 2: `ROOT = 2n − 2`. -/
  rootEq : s.root.val = 2 * s.nsym.val - 2
  /-- Item 2: `WL_LEN = 1`, `WL[0] = ROOT`. -/
  wlEq : s.wl = [s.root]
  /-- Items 1 and 4: the nodes 0 to `n − 1` are the Leaves of the frequency table's entries, in ascending
  symbol order. -/
  leavesEq : (List.range s.nsym.val).map (fun k => s.nodeAt (nodeIx k)) =
    s.counted.map fun e => leafOf e.1 e.2
  /-- Items 1, 3 and 5: the nodes `n` to `2n − 2` are Internals, each with two children of smaller node
  number, whose frequencies it adds. -/
  internals : ∀ i : NodeIx, s.nsym.val ≤ i.val → i.val < s.nnodes.val →
    (s.nodeAt i).kind = .internal ∧ (s.nodeAt i).sym = 0 ∧
    (s.nodeAt i).left.val < i.val ∧ (s.nodeAt i).right.val < i.val ∧
    (s.nodeAt i).freq = s.freqOf (s.nodeAt i).left + s.freqOf (s.nodeAt i).right
  /-- Item 3: every node but the root is the child of exactly one Internal, on one side. -/
  oneParent : (s.childrenOf s.nsym.val s.nnodes.val).Perm ((List.range s.root.val).map nodeIx)
  /-- Item 5: `NODE_FREQ[ROOT]` is the sum of the table. -/
  rootFreq : s.freqOf s.root = s.ft.cells.sum

/-- The codes of a completed CODE_GEN (R163 items 1 and 3). -/
structure State.CodesOk (s : State) : Prop where
  /-- Item 1: exactly the symbols with a count have a code. -/
  codedIffCounted : ∀ b : Byte, 0 < (s.ctAt b).len.val ↔ 0 < s.ftAt b
  /-- Item 3: no code is a prefix of another. -/
  prefixFree : ∀ b c : Byte, b ≠ c → 0 < (s.ctAt b).len.val → 0 < (s.ctAt c).len.val →
    ¬ (s.ctAt b).toBits <+: (s.ctAt c).toBits

/-- The inverse table of a completed DEC_HEADER (R33, R172, R175). -/
structure State.TableOk (s : State) : Prop where
  itNEq : s.itN.val = s.nsym.val
  itNPos : 1 ≤ s.itN.val
  lenPos : ∀ e ∈ s.records, 1 ≤ e.code.len.val
  distinct : s.records.Pairwise fun e f => e.code ≠ f.code
  candEmpty : s.cand = 0 ∧ s.candLen = 0

/-- Node `i` stands before node `j` in the order of the working list: by frequency, then by number
(R144). -/
def State.Before (s : State) (i j : NodeIx) : Prop :=
  s.freqOf i < s.freqOf j ∨ s.freqOf i = s.freqOf j ∧ i.val < j.val

/-- Node `y` is in the working list when the Internal `x` is created: it is older, and no Internal made
before `x` has it as a child (R143, R144). -/
def State.LiveAt (s : State) (x y : NodeIx) : Prop :=
  y.val < x.val ∧ ∀ z : NodeIx, s.nsym.val ≤ z.val → z.val < x.val →
    (s.nodeAt z).left ≠ y ∧ (s.nodeAt z).right ≠ y

/-! ### Sequences of commands -/

/-- The commands of a list issued one after the other (R75). -/
def execAll : List Instr → State → Host.Outcome State Fault Refusal
  | [], s => .next s
  | i :: is, s =>
    match exec i s with
    | .next t => execAll is t
    | .fault f => .fault f
    | .refused r => .refused r

/-- The column "legal in" of R22, as lists. -/
def legalPhases : Instr → List Phase
  | .clear => [.idle, .counting, .treeReady, .codesReady, .packing, .tableReady, .done, .fault]
  | .rewind => [.idle, .counting, .treeReady, .codesReady, .packing, .tableReady, .done]
  | .freqByte _ => [.idle, .counting]
  | .freqRun => [.idle, .counting]
  | .treeBuild => [.idle, .counting]
  | .codeGen => [.treeReady]
  | .encHeader => [.codesReady]
  | .packSym _ => [.packing]
  | .packRun => [.packing]
  | .packFlush => [.packing]
  | .decHeader => [.idle]
  | .unpackRun => [.tableReady]
  | .compress => [.idle, .counting, .treeReady, .codesReady, .packing, .tableReady, .done, .fault]
  | .decompress => [.idle, .counting, .treeReady, .codesReady, .packing, .tableReady, .done, .fault]

/-- The column "next on completion" of R22, from the phase the command was issued in. -/
def nextPhase : Instr → Phase → Phase
  | .clear, _ => .idle
  | .rewind, p => p
  | .freqByte _, _ => .counting
  | .freqRun, _ => .counting
  | .treeBuild, _ => .treeReady
  | .codeGen, _ => .codesReady
  | .encHeader, _ => .packing
  | .packSym _, _ => .packing
  | .packRun, _ => .packing
  | .packFlush, _ => .done
  | .decHeader, _ => .tableReady
  | .unpackRun, _ => .done
  | .compress, _ => .done
  | .decompress, _ => .done

/-- The addresses R39 does not list. -/
def Unlisted (addr : Nat) : Prop :=
  0x000F ≤ addr ∧ addr ≤ 0x00FF ∨ addr = 0x09FF ∨ addr = 0x0BFF ∨ addr = 0x0DFF ∨ addr = 0x0FFF ∨
    addr = 0x11FF ∨ 0x1200 ≤ addr

/-! ### The invariant -/

/-- The phases from a completed TREE_BUILD to PACK_FLUSH (R21, R31). -/
def Phase.hasTree (p : Phase) : Bool := p == .treeReady || p == .codesReady || p == .packing

/-- The phases in which `CT` is valid (R21). -/
def Phase.hasCodes (p : Phase) : Bool := p == .codesReady || p == .packing

/-- The bits of a left-aligned code register below its last choice are 0 (R29, R33, R35). -/
def LeftAligned (len : Nat) (bits : Word) : Prop := ∀ i, len ≤ i → bits.getMsbD i = false

/-- What holds of every state a run from reset reaches. -/
structure State.Inv (s : State) : Prop where
  /-- `ERR ≠ 0` if and only if `PHASE = FAULT` (R23). -/
  errIff : s.err ≠ .noError ↔ s.phase = .fault
  /-- Without an error `ERRINFO` is 0 (R24, R41). -/
  errInfoZero : s.err = .noError → s.errInfo = 0
  /-- Nothing raises `IOError` (R257). -/
  noIoError : s.err ≠ .ioError
  /-- `TOTAL = Σ_s FT[s]` (R27). -/
  totalEq : s.total = s.ft.cells.sum
  /-- `TOTAL ≤ 2^CNT_W − 1` (R27). -/
  totalLe : s.total ≤ s.cfg.maxCount
  /-- Every node frequency fits `CNT_W` bits (R27). -/
  freqLe : ∀ i : NodeIx, s.freqOf i ≤ s.cfg.maxCount
  /-- `SP ≤ SRC_LEN` (R36). -/
  spLe : Memory.wf s
  /-- The working-list file has 256 entries (R32). -/
  wlSize : s.wl.length + s.wlStale.length = 256
  /-- Bits `7 − FILL` down to 0 of `ACC` are 0 (R34). -/
  accClear : ∀ j, s.fill.val ≤ j → s.acc.getMsbD j = false
  /-- Bits `15 − CAND_LEN` down to 0 of `CAND` are 0 (R35). -/
  candClear : LeftAligned s.candLen.val s.cand
  /-- Between bits `CAND_LEN ≤ 15` (R35). -/
  candShort : s.phase ≠ .fault → s.candLen.val ≤ 15
  /-- Bits `15 − L` down to 0 of `CT_CODE[s]` are 0 (R29). -/
  ctClear : ∀ b : Byte, LeftAligned (s.ctAt b).len.val (s.ctAt b).bits
  /-- The same of `IT_CODE[r]` (R33). -/
  itClear : ∀ r, LeftAligned (s.it.get r).code.len.val (s.it.get r).code.bits
  /-- In `IDLE` nothing has been done since reset or CLEAR: all tables are empty (R21). -/
  idleFresh : s.phase = .idle → s.clear = s
  /-- In `COUNTING` only `FT` and `TOTAL` have been written (R21, R22). -/
  countingFresh : s.phase = .counting →
    { s.clear with phase := .counting, ft := s.ft, total := s.total } = s
  /-- Until CODE_GEN completes no symbol has a code (R160). -/
  ctFresh : s.phase = .treeReady → s.ct = Table.fill 256 Code.zero
  /-- The tree is the one TREE_BUILD left (R146). -/
  tree : s.phase.hasTree = true → s.TreeOk
  /-- The codes are the ones CODE_GEN left (R163). -/
  codes : s.phase.hasCodes = true → s.CodesOk
  /-- The inverse table is the one DEC_HEADER left (R175). -/
  table : s.phase = .tableReady → s.TableOk

end Sys2Proof.Machine
end

