-- ==== Sys2Proof/Certificates/Slice0/Obligations.lean ====
section
/-! DEFINITION. The statements for the provers. Each formalises rules of spec/; its docstring cites
them. `t = { s with f := t.f, ... }` says that every field of the state but the named ones is as it was
(the frame of the command). The launch premises are those of R294, under its names: `CleanEntry`,
`SourceAtStart`, `SourceFixed`, `NoIOFailure`, `SinkBase`; a command that writes the sink is stated from a
known base `S0`, as `SNK = S0 ++ ...`. A statement about every command or every step carries no launch
premise: it holds without any. -/

open Sys2Proof Sys2Proof.Machine

/-! ### Encoding (spec/30_encoding.md) -/

/-- R91, R92: the words of the opcode map, with every symbol as the operand of format `S`. -/
def Obligations.OpcodeWordsDecode : Prop :=
  decode 0x0100 = .ok .clear ∧ decode 0x0200 = .ok .rewind ∧ decode 0x1100 = .ok .freqRun ∧
  decode 0x2000 = .ok .treeBuild ∧ decode 0x3000 = .ok .codeGen ∧ decode 0x4000 = .ok .encHeader ∧
  decode 0x5100 = .ok .packRun ∧ decode 0x5200 = .ok .packFlush ∧ decode 0x6000 = .ok .decHeader ∧
  decode 0x7000 = .ok .unpackRun ∧ decode 0x8000 = .ok .compress ∧ decode 0x8100 = .ok .decompress ∧
  (∀ sym : Byte, decode (0x10#8 ++ sym) = .ok (.freqByte sym)) ∧
  (∀ sym : Byte, decode (0x50#8 ++ sym) = .ok (.packSym sym))

/-- R90 to R92: decoding the word of a command gives the command back, every operand included. -/
def Obligations.DecodeEncodeAgree : Prop :=
  ∀ i : Instr, decode (encode i) = .ok i

/-- R90, R91, D19: a word that decodes to a command is that command's word, so no two words are one
command. -/
def Obligations.DecodedWordEncodesBack : Prop :=
  ∀ (w : Word) (i : Instr), decode w = .ok i → encode i = w

/-- R94: the words that decode are exactly those with an opcode of the table and, for format `Z`, a zero
operand byte. -/
def Obligations.DecodeAcceptsExactlyWellFormedWords : Prop :=
  ∀ w : Word, (∃ i, decode w = .ok i) ↔ wordWellFormed (opcodeOf w) (operandOf w) = true

/-- R91: at most one row of the opcode map selects a word. -/
def Obligations.OpcodeRowsNeverOverlap : Prop :=
  ∀ w : Word, (opcodeTable.filter (·.selects w)).length ≤ 1

/-! ### Dispatch (spec/30_encoding.md R93 to R95, spec/10_state.md R22) -/

/-- R38, R93: a step in which the host writes a well-formed word to `CMD` is `exec` of the command it
decodes to, at the state with that host event consumed. -/
def Obligations.StepRunsDecodedCommand : Prop :=
  ∀ (s : State) (w : Word) (i : Instr) (rest : List HostEvent),
    s.host = .writeReg 0x0000 w :: rest → decode w = .ok i → step s = exec i { s with host := rest }

/-- R262: outside `FAULT` an illegal word raises `IllegalCommand` with the word in `ERRINFO`. -/
def Obligations.IllegalWordTraps : Prop :=
  ∀ (s : State) (w : Word) (rest : List HostEvent),
    s.host = .writeReg 0x0000 w :: rest → s.phase ≠ .fault →
    wordWellFormed (opcodeOf w) (operandOf w) = false →
    step s = .next { s with
      host := rest, err := .illegalCommand, errInfo := w, phase := .fault }

/-- R95: in `FAULT` a write of any word but 0x0100, 0x8000 and 0x8100 changes no state. -/
def Obligations.FaultIgnoresOtherWords : Prop :=
  ∀ (s : State) (w : Word) (rest : List HostEvent),
    s.host = .writeReg 0x0000 w :: rest → s.phase = .fault →
    w ≠ 0x0100 → w ≠ 0x8000 → w ≠ 0x8100 → step s = .next { s with host := rest }

/-- R22, R261: where a command is not legal it traps with its word and does nothing else; where it is,
it ends in the phase of the column "next on completion", or in `FAULT` after a raise. -/
def Obligations.CommandsFollowThePhaseTable : Prop :=
  ∀ (i : Instr) (s : State),
    (s.phase ≠ .fault → s.phase ∉ legalPhases i →
      exec i s = .next { s with err := .badSequence, errInfo := encode i, phase := .fault }) ∧
    (s.phase = .fault → s.phase ∉ legalPhases i → exec i s = .next s) ∧
    (s.phase ∈ legalPhases i → ∀ t, exec i s = .next t →
      t.phase = nextPhase i s.phase ∨ t.phase = .fault ∧ t.err ≠ .noError)

/-! ### Reset and control (spec/10_state.md R41, spec/46_control_and_top.md R230, R231) -/

/-- R41: the value of every field after reset; so reset leaves the start conditions of R294. -/
def Obligations.ResetLeavesEveryFieldEmpty : Prop :=
  let r := State.reset
  r.phase = .idle ∧ r.err = .noError ∧ r.errInfo = 0 ∧ r.nsym.val = 0 ∧ r.pad.val = 0 ∧ r.total = 0 ∧
  (∀ b : Byte, r.ftAt b = 0) ∧ (∀ b : Byte, r.ctAt b = { len := 0, bits := 0 }) ∧
  (∀ i : NodeIx, r.nodeAt i = { kind := .leaf, sym := 0, freq := 0, left := 0, right := 0 }) ∧
  r.nnodes.val = 0 ∧ r.root.val = 0 ∧ r.wl = [] ∧ (∀ k, k < 256 → r.wlAt k = 0) ∧
  (∀ k : Fin 256, r.it.get k = { sym := 0, code := { len := 0, bits := 0 } }) ∧ r.itN.val = 0 ∧
  r.acc = 0 ∧ r.fill.val = 0 ∧ r.cand = 0 ∧ r.candLen.val = 0 ∧ r.sp = 0 ∧ r.snk = [] ∧
  CleanEntry r ∧ SourceAtStart r ∧ SinkBase [] r

/-- R290: reset gives every field of R20 its reset value, whatever the block was doing. That the fields
of the model that are no fields of R20 stay is the model's choice (log entries 1, 2, 3, 5 and 6). -/
def Obligations.ResetEventRestoresTheResetState : Prop :=
  ∀ (s : State) (rest : List HostEvent), s.host = .assertReset :: rest →
    step s = .next { State.reset with cfg := s.cfg, src := s.src, host := rest, rdata := s.rdata }

/-- R230, R292, R294: CLEAR runs in every phase and gives every field of R20 except `SP` and `SNK` its reset
value; so what it leaves is a *CleanEntry* with the same sink base. -/
def Obligations.ClearRestoresAllButTheStreams : Prop :=
  ∀ (s : State) (S0 : List Byte), SinkBase S0 s →
    ∃ t, exec .clear s = .next t ∧ CleanEntry t ∧ SinkBase S0 t ∧ SourceFixed s t ∧
      t = { State.reset with
        sp := s.sp, snk := s.snk, cfg := s.cfg, src := s.src, host := s.host, rdata := s.rdata }

/-- R231: REWIND sets `SP` to 0 and changes nothing else, which is *SourceAtStart*; in `FAULT` it is ignored. -/
def Obligations.RewindMovesTheSourceToItsStart : Prop :=
  ∀ s : State,
    (s.phase ≠ .fault → exec .rewind s = .next { s with sp := 0 } ∧
      SourceAtStart { s with sp := 0 }) ∧
    (s.phase = .fault → exec .rewind s = .next s)

/-! ### Frequency analyzer (spec/40_frequency_analyzer.md) -/

/-- R130: FREQ_BYTE counts one symbol, or raises `CountOverflow` at the bound and counts nothing. -/
def Obligations.FreqByteCountsOneSymbol : Prop :=
  ∀ (s : State) (sym : Byte), s.phase = .idle ∨ s.phase = .counting →
    (s.total ≠ 2 ^ s.cfg.cntW - 1 → ∃ t, exec (.freqByte sym) s = .next t ∧
      t.ftAt sym = s.ftAt sym + 1 ∧ (∀ b, b ≠ sym → t.ftAt b = s.ftAt b) ∧
      t = { s with ft := t.ft, total := s.total + 1, phase := .counting }) ∧
    (s.total = 2 ^ s.cfg.cntW - 1 → exec (.freqByte sym) s =
      .next { s with err := .countOverflow, errInfo := sym.setWidth 16, phase := .fault })

/-- R131, R132, R294: FREQ_RUN counts every remaining source byte; from a *CleanEntry* at *SourceAtStart*
the table is the count of the whole source. -/
def Obligations.FreqRunCountsTheRemainingSource : Prop :=
  ∀ s : State, NoIOFailure → s.phase = .idle ∨ s.phase = .counting → s.sp ≤ s.src.length →
    s.total + s.rest.length ≤ 2 ^ s.cfg.cntW - 1 →
    ∃ t, exec .freqRun s = .next t ∧ (∀ b, t.ftAt b = s.ftAt b + s.rest.count b) ∧
      (CleanEntry s → SourceAtStart s → ∀ b, t.ftAt b = s.src.count b) ∧
      t = { s with
        ft := t.ft, total := s.total + s.rest.length, sp := s.src.length, phase := .counting }

/-- R131, R260: FREQ_RUN raises at the byte that would pass the bound; that byte has been consumed and
not counted. -/
def Obligations.FreqRunStopsAtCountOverflow : Prop :=
  ∀ s : State, NoIOFailure → s.phase = .idle ∨ s.phase = .counting →
    s.total ≤ 2 ^ s.cfg.cntW - 1 → 2 ^ s.cfg.cntW - 1 < s.total + s.rest.length →
    ∃ t b, exec .freqRun s = .next t ∧ s.rest[2 ^ s.cfg.cntW - 1 - s.total]? = some b ∧
      (∀ c, t.ftAt c = s.ftAt c + (s.rest.take (2 ^ s.cfg.cntW - 1 - s.total)).count c) ∧
      t = { s with
        ft := t.ft, total := 2 ^ s.cfg.cntW - 1, sp := s.sp + (2 ^ s.cfg.cntW - 1 - s.total) + 1,
        err := .countOverflow, errInfo := b.setWidth 16, phase := .fault }

/-! ### Tree builder (spec/41_tree_builder.md) -/

/-- R251: TREE_BUILD of an empty table raises `EmptyInput`; `NSYM` is 0 and nothing else is written. -/
def Obligations.TreeBuildOfEmptyTableTraps : Prop :=
  ∀ s : State, s.phase = .idle ∨ s.phase = .counting → (∀ b, s.ftAt b = 0) →
    exec .treeBuild s =
      .next { s with nsym := 0, err := .emptyInput, errInfo := 0, phase := .fault }

/-- R252: TREE_BUILD of a table with one entry raises `SingleSymbolInput` under the policy `FAULT`. -/
def Obligations.TreeBuildOfOneSymbolTrapsUnderFaultPolicy : Prop :=
  ∀ (s : State) (b : Byte), s.phase = .idle ∨ s.phase = .counting → s.cfg.policy = .fault →
    0 < s.ftAt b → (∀ c, c ≠ b → s.ftAt c = 0) →
    ∃ t, exec .treeBuild s = .next t ∧ t.nodeAt 0 = leafOf b (s.ftAt b) ∧
      (∀ i, i ≠ 0 → t.nodeAt i = s.nodeAt i) ∧
      t = { s with
        nodes := t.nodes, nsym := 1, err := .singleSymbolInput, errInfo := b.setWidth 16,
        phase := .fault }

/-- R140, R146: TREE_BUILD of a table with an entry (two under the policy `FAULT`) completes, and the
arena is a tree with the invariants of R146. -/
def Obligations.TreeBuildEstablishesTheTree : Prop :=
  ∀ s : State, s.phase = .idle ∨ s.phase = .counting → (∃ b, 0 < s.ftAt b) →
    (s.cfg.policy = .oneBitCode ∨ ∃ b c, b ≠ c ∧ 0 < s.ftAt b ∧ 0 < s.ftAt c) →
    ∃ t, exec .treeBuild s = .next t ∧ t.phase = .treeReady ∧ t.TreeOk ∧
      t.nsym.val = (symbols.filter fun b => 0 < s.ftAt b).length ∧
      t = { s with
        nodes := t.nodes, nnodes := t.nnodes, root := t.root, wl := t.wl, wlStale := t.wlStale,
        nsym := t.nsym, phase := .treeReady }

/-- R143, R144, R146 item 6: every merge takes the two least of the live nodes, in the order of
frequency and then node number, the first as its left child; and the frequencies of the Internals do
not fall. -/
def Obligations.TreeBuildMergesTheTwoLeast : Prop :=
  ∀ s t : State, exec .treeBuild s = .next t → t.phase = .treeReady → s.phase ≠ .treeReady →
    ∀ x : NodeIx, t.nsym.val ≤ x.val → x.val < t.nnodes.val →
      t.LiveAt x (t.nodeAt x).left ∧ t.LiveAt x (t.nodeAt x).right ∧
      t.Before (t.nodeAt x).left (t.nodeAt x).right ∧
      (∀ y, t.LiveAt x y → y ≠ (t.nodeAt x).left → y ≠ (t.nodeAt x).right →
        t.Before (t.nodeAt x).right y) ∧
      (∀ y : NodeIx, t.nsym.val ≤ y.val → y.val < x.val → t.freqOf y ≤ t.freqOf x)

/-- R147: TREE_BUILD is a function of `FT` (and the policy) alone, node for node. -/
def Obligations.TreeDependsOnTheTableOnly : Prop :=
  ∀ s s' t t' : State, s.ft = s'.ft → s.cfg.policy = s'.cfg.policy →
    exec .treeBuild s = .next t → exec .treeBuild s' = .next t' →
    t.phase = .treeReady → t'.phase = .treeReady → s.phase ≠ .treeReady → s'.phase ≠ .treeReady →
    t.nsym = t'.nsym ∧ t.nnodes = t'.nnodes ∧ t.root = t'.root ∧ t.wl = t'.wl ∧
      ∀ i : NodeIx, i.val < t.nnodes.val → t.nodeAt i = t'.nodeAt i

/-- R141: InsertOrdered puts a node before the first entry of strictly greater frequency, or last, and
keeps the list in ascending order. -/
def Obligations.InsertOrderedKeepsTheOrder : Prop :=
  ∀ (s : State) (x : NodeIx),
    (∃ front back, s.wl = front ++ back ∧ (s.insertOrdered x).wl = front ++ x :: back ∧
      (∀ k ∈ front, s.freqOf k ≤ s.freqOf x) ∧
      (∀ k, back.head? = some k → s.freqOf x < s.freqOf k)) ∧
    (s.wl.Pairwise (fun i j => s.freqOf i ≤ s.freqOf j) →
      (s.insertOrdered x).wl.Pairwise fun i j => s.freqOf i ≤ s.freqOf j)

/-! ### Code table generator (spec/42_code_table_generator.md) -/

/-- R162: where the root is a Leaf its symbol gets the code "0", of length 1. -/
def Obligations.CodeGenOfSingleLeafAssignsZero : Prop :=
  ∀ s : State, s.phase = .treeReady → (s.nodeAt s.root).kind = .leaf →
    ∃ t, exec .codeGen s = .next t ∧
      t.ctAt (s.nodeAt s.root).sym = { len := 1, bits := 0 } ∧
      (∀ b, b ≠ (s.nodeAt s.root).sym → t.ctAt b = s.ctAt b) ∧
      t = { s with ct := t.ct, phase := .codesReady }

/-- R161, R163 item 2: on a tree of two leaves or more, none deeper than 16, CODE_GEN completes and the
code of a symbol is the path from the root to its Leaf. -/
def Obligations.CodeGenWritesRootToLeafPaths : Prop :=
  ∀ s : State, s.phase = .treeReady → s.TreeOk → 2 ≤ s.nsym.val →
    (∀ path i, s.LeafPath path i → path.length ≤ 16) →
    ∃ t, exec .codeGen s = .next t ∧
      (∀ path i, s.LeafPath path i → (t.ctAt (s.nodeAt i).sym).toBits = path) ∧
      (∀ b, 0 < s.ftAt b → ∃ path i, s.LeafPath path i ∧ (s.nodeAt i).sym = b) ∧
      (∀ b, s.ftAt b = 0 → t.ctAt b = s.ctAt b) ∧
      t = { s with ct := t.ct, phase := .codesReady }

/-- R163: the guarantees of a completed CODE_GEN: the symbols with a count are those with a code, the
codes are prefix-free, of 1 to 16 choices, and for two symbols or more complete. -/
def Obligations.GeneratedCodesArePrefixFreeAndComplete : Prop :=
  ∀ s t : State, s.phase = .treeReady → s.TreeOk → s.ct = Table.fill 256 Code.zero →
    exec .codeGen s = .next t → t.phase = .codesReady →
    t.CodesOk ∧ (∀ b, (t.ctAt b).len.val ≤ 16) ∧
    (((symbols.filter fun b => 0 < (t.ctAt b).len.val).map fun b =>
        2 ^ (16 - (t.ctAt b).len.val)).sum = if 2 ≤ s.nsym.val then 2 ^ 16 else 2 ^ 15)

/-- R164, R253: a leaf deeper than 16 raises `CodeTooLong`; the symbol reported is that of the first such
leaf in left-before-right depth-first order, which is the lexicographic order of the paths. -/
def Obligations.CodeGenTrapsAtFirstTooDeepLeaf : Prop :=
  ∀ s : State, s.phase = .treeReady → s.TreeOk →
    (∃ path i, s.LeafPath path i ∧ 16 < path.length) →
    ∃ t path i, exec .codeGen s = .next t ∧ s.LeafPath path i ∧ 16 < path.length ∧
      (∀ path' i', s.LeafPath path' i' → 16 < path'.length → ¬ path' < path) ∧
      t = { s with
        ct := t.ct, err := .codeTooLong, errInfo := (s.nodeAt i).sym.setWidth 16, phase := .fault }

/-! ### Codec framer (spec/43_codec_framer.md) -/

/-- R170, R171, R96 to R99: the padding, and the bytes ENC_HEADER appends: the padding byte, the count
byte and one record per symbol with a code, ascending. -/
def Obligations.EncHeaderWritesHeaderAndRecords : Prop :=
  ∀ (s : State) (S0 : List Byte), NoIOFailure → SinkBase S0 s → s.phase = .codesReady →
    ∃ t, exec .encHeader s = .next t ∧
    t.pad.val = (8 - (symbols.map fun b => s.ftAt b * (s.ctAt b).len.val).sum % 8) % 8 ∧
    t.snk = S0 ++ (BitVec.ofNat 8 t.pad.val :: BitVec.ofNat 8 (s.nsym.val % 256) ::
      (symbols.filter fun b => 0 < (s.ctAt b).len.val).flatMap fun b =>
        b :: (List.range 16).map fun i =>
          if i < (s.ctAt b).len.val then
            (if (s.ctAt b).bits.getLsbD (15 - i) then 0x31#8 else 0x30#8)
          else 0x00#8) ∧
    t = { s with pad := t.pad, snk := t.snk, acc := 0, fill := 0, phase := .packing }

/-- R172, R174: DEC_HEADER reads a well-formed header and its records, in file order, whatever bytes
follow a code's terminator and whatever follows the records. The file is what is left of the source, or the
whole source at *SourceAtStart* (R294). -/
def Obligations.DecHeaderReadsTheTable : Prop :=
  ∀ (s : State) (p c : Byte) (recs : List FileRecord) (tail : List Byte),
    let file := p :: c :: (recs.flatMap FileRecord.bytes ++ tail)
    NoIOFailure → s.phase = .idle → (s.rest = file ∨ SourceAtStart s ∧ s.src = file) → p.toNat ≤ 7 →
    recs.length = (if c = 0 then 256 else c.toNat) → (∀ r ∈ recs, r.Valid) →
    (recs.map FileRecord.code).Nodup →
    ∃ t, exec .decHeader s = .next t ∧ t.pad.val = p.toNat ∧ t.nsym.val = recs.length ∧
      t.itN.val = recs.length ∧ t.records = recs.map FileRecord.entry ∧
      t = { s with
        pad := t.pad, nsym := t.nsym, it := t.it, itN := t.itN, cand := 0, candLen := 0,
        sp := s.sp + 2 + 17 * recs.length, phase := .tableReady }

/-- R172, R254: fewer than 2 bytes, or a padding byte above 7. -/
def Obligations.DecHeaderRejectsMalformedHeaderBytes : Prop :=
  ∀ s : State, NoIOFailure → s.phase = .idle →
    (s.rest.length < 2 → exec .decHeader s =
      .next { s with err := .malformedHeader, errInfo := 0xFFFF, phase := .fault }) ∧
    (∀ p c tail, s.rest = p :: c :: tail → 7 < p.toNat → exec .decHeader s =
      .next { s with
        sp := s.sp + 2, err := .malformedHeader, errInfo := 0xFFFF, phase := .fault })

/-- R173, R175, R254, R255, R265 item 3: after `r` accepted records, a record that is cut short, has a bad
code field, or has the code of an earlier record is reported by its index, and the records before it
stay accepted. -/
def Obligations.DecHeaderRejectsBadRecords : Prop :=
  ∀ (s : State) (p c : Byte) (recs : List FileRecord) (tail : List Byte),
    NoIOFailure → (CleanEntry s ∨ s.phase = .idle ∧ s.itN = 0) →
    s.rest = p :: c :: (recs.flatMap FileRecord.bytes ++ tail) →
    p.toNat ≤ 7 → recs.length < (if c = 0 then 256 else c.toNat) → (∀ r ∈ recs, r.Valid) →
    (recs.map FileRecord.code).Nodup →
    (tail.length < 17 → ∃ t, exec .decHeader s = .next t ∧
      t.records = recs.map FileRecord.entry ∧ t.phase = .fault ∧ t.err = .malformedHeader ∧
      t.errInfo = BitVec.ofNat 16 recs.length ∧ t.sp = s.sp + 2 + 17 * recs.length) ∧
    (∀ sym field more, tail = sym :: (field ++ more) → field.length = 16 → BadField field →
      ∃ t, exec .decHeader s = .next t ∧
        t.records = recs.map FileRecord.entry ∧ t.phase = .fault ∧ t.err = .malformedHeader ∧
        t.errInfo = BitVec.ofNat 16 recs.length ∧ t.sp = s.sp + 2 + 17 * (recs.length + 1)) ∧
    (∀ (r : FileRecord) more, tail = r.bytes ++ more → r.Valid →
      r.code ∈ recs.map FileRecord.code →
      ∃ t, exec .decHeader s = .next t ∧
        t.records = recs.map FileRecord.entry ∧ t.phase = .fault ∧ t.err = .duplicateCode ∧
        t.errInfo = BitVec.ofNat 16 recs.length ∧ t.sp = s.sp + 2 + 17 * (recs.length + 1))

/-- R177: what DEC_HEADER reads from the header and records that ENC_HEADER wrote. -/
def Obligations.DecHeaderReadsWhatEncHeaderWrote : Prop :=
  ∀ (s t u : State) (S0 payload : List Byte), NoIOFailure → SinkBase S0 s → s.phase = .codesReady →
    (∀ b, LeftAligned (s.ctAt b).len.val (s.ctAt b).bits) →
    (∀ b d, b ≠ d → 0 < (s.ctAt b).len.val → s.ctAt b ≠ s.ctAt d) →
    s.nsym.val = (symbols.filter fun b => 0 < (s.ctAt b).len.val).length → 1 ≤ s.nsym.val →
    exec .encHeader s = .next t → u.phase = .idle →
    (u.rest = t.snk.drop S0.length ++ payload ∨
      SourceAtStart u ∧ u.src = t.snk.drop S0.length ++ payload) →
    ∃ v, exec .decHeader u = .next v ∧ v.phase = .tableReady ∧ v.pad = t.pad ∧ v.nsym = s.nsym ∧
      v.records = (symbols.filter fun b => 0 < (s.ctAt b).len.val).map (fun b =>
        { sym := b, code := s.ctAt b }) ∧
      v.rest = payload

/-! ### Bit packer (spec/44_bit_packer.md) -/

/-- R200, R201: PACK_SYM appends the code of the symbol to the bits in the sink and the accumulator, and
writes exactly `(FILL + CT_LEN) div 8` bytes. -/
def Obligations.PackSymAppendsTheCode : Prop :=
  ∀ (s : State) (sym : Byte) (S0 : List Byte), NoIOFailure → SinkBase S0 s → s.phase = .packing →
    (∀ j, s.fill.val ≤ j → s.acc.getMsbD j = false) →
    0 < (s.ctAt sym).len.val →
    ∃ t bytes, exec (.packSym sym) s = .next t ∧
      bitsOf bytes ++ t.pendingBits = s.pendingBits ++ (s.ctAt sym).toBits ∧
      bytes.length = (s.fill.val + (s.ctAt sym).len.val) / 8 ∧
      t.fill.val = (s.fill.val + (s.ctAt sym).len.val) % 8 ∧
      (∀ j, t.fill.val ≤ j → t.acc.getMsbD j = false) ∧
      t = { s with snk := S0 ++ bytes, acc := t.acc, fill := t.fill }

/-- R201, R259: PACK_SYM of a symbol without a code raises `NoCodeForSymbol` before any bit is placed. -/
def Obligations.PackSymOfUncodedSymbolTraps : Prop :=
  ∀ (s : State) (sym : Byte), NoIOFailure → s.phase = .packing → (s.ctAt sym).len.val = 0 →
    exec (.packSym sym) s =
      .next { s with err := .noCodeForSymbol, errInfo := sym.setWidth 16, phase := .fault }

/-- R202, R294, R300: PACK_RUN appends the codes of every remaining source byte, where each has a code;
and each has one where a FREQ_RUN over the whole of the same source (*SourceAtStart*, *SourceFixed*) made
the table, and every counted symbol has a code. -/
def Obligations.PackRunAppendsTheRemainingSource : Prop :=
  ∀ (s : State) (S0 : List Byte), NoIOFailure → SinkBase S0 s → s.phase = .packing →
    (∀ j, s.fill.val ≤ j → s.acc.getMsbD j = false) → s.sp ≤ s.src.length →
    ((∀ b ∈ s.rest, 0 < (s.ctAt b).len.val) ∨
      ∃ r t, SourceAtStart r ∧ SourceFixed r s ∧ exec .freqRun r = .next t ∧ t.phase = .counting ∧
        s.ft = t.ft ∧ ∀ b, 0 < s.ftAt b → 0 < (s.ctAt b).len.val) →
    ∃ t bytes, exec .packRun s = .next t ∧
      bitsOf bytes ++ t.pendingBits = s.pendingBits ++ s.codeBits s.rest ∧
      (∀ j, t.fill.val ≤ j → t.acc.getMsbD j = false) ∧
      t = { s with snk := S0 ++ bytes, acc := t.acc, fill := t.fill, sp := s.src.length }

/-- R202, R259: PACK_RUN stops at the first source byte without a code, which has been consumed; the bits
before it stay. -/
def Obligations.PackRunStopsAtUncodedByte : Prop :=
  ∀ (s : State) (xs : List Byte) (b : Byte) (ys S0 : List Byte), NoIOFailure → SinkBase S0 s →
    s.phase = .packing →
    (∀ j, s.fill.val ≤ j → s.acc.getMsbD j = false) → s.rest = xs ++ b :: ys →
    (∀ x ∈ xs, 0 < (s.ctAt x).len.val) → (s.ctAt b).len.val = 0 →
    ∃ t bytes, exec .packRun s = .next t ∧
      bitsOf bytes ++ t.pendingBits = s.pendingBits ++ s.codeBits xs ∧
      t = { s with
        snk := S0 ++ bytes, acc := t.acc, fill := t.fill, sp := s.sp + xs.length + 1,
        err := .noCodeForSymbol, errInfo := b.setWidth 16, phase := .fault }

/-- R203: PACK_FLUSH writes the partial byte, if there is one, and finishes. -/
def Obligations.PackFlushWritesThePartialByte : Prop :=
  ∀ (s : State) (S0 : List Byte), NoIOFailure → SinkBase S0 s → s.phase = .packing →
    (s.fill ≠ 0 → exec .packFlush s =
      .next { s with snk := S0 ++ [s.acc], acc := 0, fill := 0, phase := .done }) ∧
    (s.fill = 0 → exec .packFlush s = .next { s with phase := .done })

/-- R204, R102, R171: where exactly the counted symbols are packed, in any order, the payload is their
codes followed by the zero bits the header's padding byte declares. -/
def Obligations.PackedPayloadHasTheDeclaredPadding : Prop :=
  ∀ (s : State) (xs S0 : List Byte), NoIOFailure → SinkBase S0 s → s.phase = .codesReady →
    (∀ b, xs.count b = s.ftAt b) →
    (∀ b, 0 < s.ftAt b → 0 < (s.ctAt b).len.val) →
    ∃ t head payload,
      execAll (.encHeader :: (xs.map .packSym ++ [.packFlush])) s = .next t ∧ t.phase = .done ∧
      t.snk = S0 ++ head ++ payload ∧
      head.length = 2 + 17 * (symbols.filter fun b => 0 < (s.ctAt b).len.val).length ∧
      bitsOf payload = s.codeBits xs ++ List.replicate t.pad.val false ∧
      8 * payload.length = (symbols.map fun b => s.ftAt b * (s.ctAt b).len.val).sum + t.pad.val

/-! ### Bit unpacker (spec/45_bit_unpacker.md) -/

/-- R215: UnpackBit appends the bit to the candidate `c`; a candidate that is a code emits that record's
symbol and is emptied; one of 16 bits that is no code raises `UnmatchedCode`. -/
def Obligations.UnpackBitTestsTheCandidateAfterEveryBit : Prop :=
  ∀ (s : State) (c : List Bool) (b : Bool), c.length ≤ 15 → s.cand = leftAlign c →
    s.candLen.val = c.length →
    (∀ e ∈ s.records, LeftAligned e.code.len.val e.code.bits) →
    s.records.Pairwise (fun e f => e.code ≠ f.code) →
    (∀ e ∈ s.records, e.code.toBits = c ++ [b] →
      unpackBit b s = .done { s with snk := s.snk ++ [e.sym], cand := 0, candLen := 0 }) ∧
    ((∀ e ∈ s.records, e.code.toBits ≠ c ++ [b]) → c.length ≤ 14 →
      unpackBit b s = .done { s with
        cand := leftAlign (c ++ [b]), candLen := Fin.ofNat 17 (c.length + 1) }) ∧
    ((∀ e ∈ s.records, e.code.toBits ≠ c ++ [b]) → c.length = 15 →
      unpackBit b s = .raised { s with
        cand := leftAlign (c ++ [b]), candLen := 16, err := .unmatchedCode,
        errInfo := leftAlign (c ++ [b]), phase := .fault })

/-- R217: UNPACK_RUN over a prefix-free table decodes the concatenation of codes, whatever the padding
bits. -/
def Obligations.UnpackRunDecodesPrefixFreeCodes : Prop :=
  ∀ (s : State) (S0 : List Byte) (ys : List Entry) (padding : List Bool),
    NoIOFailure → SinkBase S0 s → s.phase = .tableReady → s.cand = 0 →
    s.candLen = 0 → s.sp ≤ s.src.length →
    s.records.Pairwise (fun e f => Incomparable e.code.toBits f.code.toBits) →
    (∀ e ∈ s.records, 1 ≤ e.code.len.val ∧ LeftAligned e.code.len.val e.code.bits) →
    (∀ y ∈ ys, y ∈ s.records) → padding.length = s.pad.val →
    bitsOf s.rest = ys.flatMap (fun y => y.code.toBits) ++ padding →
    exec .unpackRun s = .next { s with
      snk := S0 ++ ys.map (fun y => y.sym), sp := s.src.length, phase := .done }

/-- R216, R256: no payload byte: nothing to decode, or `TruncatedPayload(0)` where padding was declared. -/
def Obligations.UnpackRunOfEmptyPayload : Prop :=
  ∀ s : State, NoIOFailure → s.phase = .tableReady → s.rest = [] →
    (s.pad = 0 → exec .unpackRun s = .next { s with phase := .done }) ∧
    (s.pad ≠ 0 → exec .unpackRun s =
      .next { s with err := .truncatedPayload, errInfo := 0, phase := .fault })

/-- R216, R256: the payload's bits, less the padding, end inside a code: `TruncatedPayload` with the
candidate's length; the symbols decoded before stay in the sink. -/
def Obligations.UnpackRunEndingInsideACodeTraps : Prop :=
  ∀ (s : State) (S0 : List Byte) (ys : List Entry) (cut padding : List Bool),
    NoIOFailure → SinkBase S0 s → s.phase = .tableReady → s.cand = 0 →
    s.candLen = 0 → s.sp ≤ s.src.length →
    s.records.Pairwise (fun e f => Incomparable e.code.toBits f.code.toBits) →
    (∀ e ∈ s.records, 1 ≤ e.code.len.val ∧ LeftAligned e.code.len.val e.code.bits) →
    (∀ y ∈ ys, y ∈ s.records) → padding.length = s.pad.val →
    1 ≤ cut.length → cut.length ≤ 15 → (∀ e ∈ s.records, ¬ e.code.toBits <+: cut) →
    bitsOf s.rest = ys.flatMap (fun y => y.code.toBits) ++ cut ++ padding →
    exec .unpackRun s = .next { s with
      snk := S0 ++ ys.map (fun y => y.sym), sp := s.src.length, cand := leftAlign cut,
      candLen := Fin.ofNat 17 cut.length, err := .truncatedPayload,
      errInfo := BitVec.ofNat 16 cut.length, phase := .fault }

/-- R215, R258: 16 bits that match no code raise `UnmatchedCode` with the candidate, at the byte that
holds the sixteenth. -/
def Obligations.UnpackRunOfUnmatchedBitsTraps : Prop :=
  ∀ (s : State) (S0 : List Byte) (ys : List Entry) (lost more : List Bool),
    NoIOFailure → SinkBase S0 s → s.phase = .tableReady → s.cand = 0 →
    s.candLen = 0 → s.records.Pairwise (fun e f => Incomparable e.code.toBits f.code.toBits) →
    (∀ e ∈ s.records, 1 ≤ e.code.len.val ∧ LeftAligned e.code.len.val e.code.bits) →
    (∀ y ∈ ys, y ∈ s.records) → s.pad.val ≤ more.length →
    lost.length = 16 → (∀ e ∈ s.records, ¬ e.code.toBits <+: lost) →
    bitsOf s.rest = ys.flatMap (fun y => y.code.toBits) ++ lost ++ more →
    exec .unpackRun s = .next { s with
      snk := S0 ++ ys.map (fun y => y.sym),
      sp := s.sp + ((ys.flatMap fun y => y.code.toBits).length + 16 + 7) / 8,
      cand := leftAlign lost, candLen := 16, err := .unmatchedCode, errInfo := leftAlign lost,
      phase := .fault }

/-! ### Top level (spec/46_control_and_top.md) -/

/-- R232: COMPRESS is the sequence of unit commands, up to the first raise (after which `FAULT` ignores
the rest, R95). It needs neither *CleanEntry* nor *SourceAtStart*; where both hold, under the invariant,
its CLEAR and its first REWIND have nothing to do (R294). -/
def Obligations.CompressIsTheUnitSequence : Prop :=
  ∀ s : State, NoIOFailure → exec .compress s = execAll
    [.clear, .rewind, .freqRun, .treeBuild, .codeGen, .encHeader, .rewind, .packRun, .packFlush] s ∧
  (s.Inv → CleanEntry s → SourceAtStart s → exec .compress s = execAll
    [.freqRun, .treeBuild, .codeGen, .encHeader, .rewind, .packRun, .packFlush] s)

/-- R233: DECOMPRESS is the sequence of unit commands, up to the first raise. It does not need
*CleanEntry*; where that holds, under the invariant, its CLEAR has nothing to do (R294). -/
def Obligations.DecompressIsTheUnitSequence : Prop :=
  ∀ s : State, NoIOFailure → exec .decompress s = execAll [.clear, .decHeader, .unpackRun] s ∧
    (s.Inv → CleanEntry s → exec .decompress s = execAll [.decHeader, .unpackRun] s)

/-- R232, R234, R164: COMPRESS of a source with a symbol (two under the policy `FAULT`) that is not too
long completes where it has at most 17 distinct symbols, or where the tree TREE_BUILD makes of it is
nowhere deeper than 16; the Stats, and how far the sink has grown. It needs neither
*CleanEntry* nor *SourceAtStart*, and *SourceFixed* holds inside a command (R294). -/
def Obligations.CompressCompletes : Prop :=
  ∀ (s : State) (S0 : List Byte), NoIOFailure → SinkBase S0 s → s.src ≠ [] →
    s.src.length ≤ 2 ^ s.cfg.cntW - 1 →
    (s.cfg.policy = .oneBitCode ∨ ∃ b c, b ≠ c ∧ b ∈ s.src ∧ c ∈ s.src) →
    (s.src.dedup.length ≤ 17 ∨ ∀ t path i,
      execAll [.clear, .rewind, .freqRun, .treeBuild] s = .next t → t.LeafPath path i →
        path.length ≤ 16) →
    ∃ t file, exec .compress s = .next t ∧ t.phase = .done ∧ t.err = .noError ∧
      t.nsym.val = s.src.dedup.length ∧ t.total = s.src.length ∧ t.sp = s.src.length ∧
      (∀ b, t.ftAt b = s.src.count b) ∧ t.snk = S0 ++ file ∧
      8 * file.length = 8 * (2 + 17 * t.nsym.val) +
        (symbols.map fun b => t.ftAt b * (t.ctAt b).len.val).sum + t.pad.val

/-- R232, R251: a COMPRESS that fails raises one of four kinds and writes nothing to the sink. -/
def Obligations.FailedCompressWritesNothing : Prop :=
  ∀ (s t : State) (S0 : List Byte), NoIOFailure → SinkBase S0 s → exec .compress s = .next t →
    t.phase = .fault → SinkBase S0 t ∧
    (t.err = .countOverflow ∨ t.err = .emptyInput ∨ t.err = .singleSymbolInput ∨
      t.err = .codeTooLong)

/-- R236: what COMPRESS does depends on the source and the parameters alone, not on the state before. -/
def Obligations.CompressDependsOnTheSourceOnly : Prop :=
  ∀ (s s' t t' : State) (S0 S0' : List Byte), NoIOFailure → SinkBase S0 s → SinkBase S0' s' →
    SourceFixed s s' → s.cfg = s'.cfg →
    exec .compress s = .next t → exec .compress s' = .next t' →
    ∃ out, t.snk = S0 ++ out ∧ t'.snk = S0' ++ out ∧
      t' = { t with snk := t'.snk, host := s'.host, rdata := s'.rdata }

/-- R233, R216: DECOMPRESS of a file, laid out by any conforming writer with prefix-free codes, completes
and appends its symbols. The file is the whole source at *SourceAtStart* (R294), or what is left of it.
*CleanEntry* is not needed. -/
def Obligations.DecompressReadsAFile : Prop :=
  ∀ (s : State) (p c : Byte) (recs ys : List FileRecord) (payload S0 : List Byte)
    (padding : List Bool),
    let file := p :: c :: (recs.flatMap FileRecord.bytes ++ payload)
    NoIOFailure → SinkBase S0 s → (SourceAtStart s ∧ s.src = file ∨ s.rest = file) → p.toNat ≤ 7 →
    recs.length = (if c = 0 then 256 else c.toNat) → (∀ r ∈ recs, r.Valid) →
    recs.Pairwise (fun r q => Incomparable r.code q.code) → (∀ y ∈ ys, y ∈ recs) →
    padding.length = p.toNat → bitsOf payload = ys.flatMap FileRecord.code ++ padding →
    ∃ t, exec .decompress s = .next t ∧ t.phase = .done ∧ t.err = .noError ∧
      t.snk = S0 ++ ys.map FileRecord.sym ∧ t.sp = s.src.length ∧
      t.nsym.val = recs.length ∧ t.pad.val = p.toNat

/-- R234: DECOMPRESS of what a completed COMPRESS appended to the sink gives back the source:
the second run starts at *SourceAtStart* with what was appended as its whole source, or at a position from
which that is what is left (R294). -/
def Obligations.RoundTripIdentity : Prop :=
  ∀ (s t u : State) (S0 S1 : List Byte), NoIOFailure → SinkBase S0 s → SinkBase S1 u →
    exec .compress s = .next t → t.phase = .done →
    (SourceAtStart u ∧ u.src = t.snk.drop S0.length ∨ u.rest = t.snk.drop S0.length) →
    ∃ v, exec .decompress u = .next v ∧ v.phase = .done ∧ v.snk = S1 ++ s.src

/-! ### Errors and traps (spec/60_exceptions.md) -/

/-- R263: trap entry writes `ERR`, `ERRINFO` and `PHASE`, and nothing else. -/
def Obligations.TrapEntryWritesThreeFields : Prop :=
  ∀ (s : State) (k : ErrKind) (info : Word),
    s.raise k info = .raised { s with err := k, errInfo := info, phase := .fault }

/-- R23, R267: in `FAULT` a step keeps the error, unless the host asserts reset or writes CLEAR, COMPRESS
or DECOMPRESS to `CMD`. -/
def Obligations.ErrorStaysUntilCleared : Prop :=
  ∀ s t : State, s.phase = .fault → step s = .next t →
    (t.phase = .fault ∧ t.err = s.err ∧ t.errInfo = s.errInfo) ∨
    (∃ rest, s.host = .assertReset :: rest) ∨
    (∃ w rest, s.host = .writeReg 0x0000 w :: rest ∧ (w = 0x0100 ∨ w = 0x8000 ∨ w = 0x8100))

/-! ### Rules of the whole machine -/

/-- R37, R62: a step that is no reset leaves every byte of the sink where it was. -/
def Obligations.SinkOnlyGrows : Prop :=
  ∀ s t : State, step s = .next t → (∀ rest, s.host ≠ .assertReset :: rest) → s.snk <+: t.snk

/-- R40, R43, R61, R294: no command changes the source bytes (*SourceFixed*), the parameters, or what the
host does next and what it last read (two fields of the model's own: log entries 3 and 5). -/
def Obligations.CommandsLeaveTheInputsAlone : Prop :=
  ∀ (i : Instr) (s t : State), exec i s = .next t →
    SourceFixed s t ∧ t.cfg = s.cfg ∧ t.host = s.host ∧ t.rdata = s.rdata

/-- R22, R28 to R37 ("Written only by ..."): the frame of every command: the fields it may write,
a raise included. -/
def Obligations.CommandsKeepTheirFrame : Prop :=
  ∀ (i : Instr) (s t : State), exec i s = .next t →
    match i with
    | .clear => t = { State.reset with
        sp := s.sp, snk := s.snk, cfg := s.cfg, src := s.src, host := s.host, rdata := s.rdata }
    | .rewind => t = { s with sp := t.sp }
    | .freqByte sym =>
      (∀ b, b ≠ sym → t.ftAt b = s.ftAt b) ∧ t = { s with
        ft := t.ft, total := t.total, phase := t.phase, err := t.err, errInfo := t.errInfo }
    | .freqRun => t = { s with
        ft := t.ft, total := t.total, sp := t.sp, phase := t.phase, err := t.err,
        errInfo := t.errInfo }
    | .treeBuild => t = { s with
        nodes := t.nodes, nnodes := t.nnodes, root := t.root, wl := t.wl, wlStale := t.wlStale,
        nsym := t.nsym, phase := t.phase, err := t.err, errInfo := t.errInfo }
    | .codeGen => t = { s with
        ct := t.ct, phase := t.phase, err := t.err, errInfo := t.errInfo }
    | .encHeader => s.snk <+: t.snk ∧ t = { s with
        pad := t.pad, snk := t.snk, acc := t.acc, fill := t.fill, phase := t.phase, err := t.err,
        errInfo := t.errInfo }
    | .packSym _ => s.snk <+: t.snk ∧ t = { s with
        snk := t.snk, acc := t.acc, fill := t.fill, phase := t.phase, err := t.err,
        errInfo := t.errInfo }
    | .packRun => s.snk <+: t.snk ∧ t = { s with
        snk := t.snk, acc := t.acc, fill := t.fill, sp := t.sp, phase := t.phase, err := t.err,
        errInfo := t.errInfo }
    | .packFlush => s.snk <+: t.snk ∧ t = { s with
        snk := t.snk, acc := t.acc, fill := t.fill, phase := t.phase, err := t.err,
        errInfo := t.errInfo }
    | .decHeader => t = { s with
        pad := t.pad, nsym := t.nsym, it := t.it, itN := t.itN, cand := t.cand,
        candLen := t.candLen, sp := t.sp, phase := t.phase, err := t.err, errInfo := t.errInfo }
    | .unpackRun => s.snk <+: t.snk ∧ t = { s with
        snk := t.snk, cand := t.cand, candLen := t.candLen, sp := t.sp, phase := t.phase,
        err := t.err, errInfo := t.errInfo }
    | .compress => s.snk <+: t.snk ∧ t = { State.reset with
        phase := t.phase, err := t.err, errInfo := t.errInfo, nsym := t.nsym, pad := t.pad,
        total := t.total, ft := t.ft, nodes := t.nodes, nnodes := t.nnodes, root := t.root,
        wl := t.wl, wlStale := t.wlStale, ct := t.ct, acc := t.acc, fill := t.fill, sp := t.sp,
        snk := t.snk, cfg := s.cfg, src := s.src, host := s.host, rdata := s.rdata }
    | .decompress => s.snk <+: t.snk ∧ t = { State.reset with
        phase := t.phase, err := t.err, errInfo := t.errInfo, nsym := t.nsym, pad := t.pad,
        it := t.it, itN := t.itN, cand := t.cand, candLen := t.candLen, sp := t.sp,
        snk := t.snk, cfg := s.cfg, src := s.src, host := s.host, rdata := s.rdata }

/-- The state after reset meets the invariant (R41). -/
def Obligations.InvariantHoldsAtReset : Prop := State.reset.Inv

/-- R21 to R37, R146, R163, R175: every step, from every state that meets the invariant, leaves a state
that meets it. -/
def Obligations.StepKeepsTheInvariant : Prop :=
  ∀ s t : State, s.Inv → step s = .next t → t.Inv

/-- R17, R310: from a state that meets the invariant every step leaves a next state: no fault, no
refusal. -/
def Obligations.StepsAreSafeUnderTheInvariant : Prop :=
  ∀ s : State, s.Inv → Safe (step s)

/-! ### Host interface (spec/10_state.md R38 to R40, spec/20_memory.md R61, R63) -/

/-- R39: what a host read of each address returns. -/
def Obligations.HostReadsFollowTheRegisterMap : Prop :=
  ∀ s : State,
    s.readReg 0x0000 = 0 ∧ s.readReg 0x0001 = s.phase.code.toNat ∧
    s.readReg 0x0002 = s.err.code.toNat ∧ s.readReg 0x0003 = s.errInfo.toNat ∧
    s.readReg 0x0004 = s.nsym.val ∧ s.readReg 0x0005 = s.pad.val ∧ s.readReg 0x0006 = s.total ∧
    s.readReg 0x0007 = s.nnodes.val ∧ s.readReg 0x0008 = s.root.val ∧
    s.readReg 0x0009 = s.wl.length ∧ s.readReg 0x000A = s.acc.toNat ∧ s.readReg 0x000B = s.fill.val ∧
    s.readReg 0x000C = s.cand.toNat ∧ s.readReg 0x000D = s.candLen.val ∧
    s.readReg 0x000E = s.itN.val ∧
    (∀ k : Fin 256, s.readReg (0x0100 + k) = s.ft.get k ∧
      s.readReg (0x0200 + k) = (s.ct.get k).len.val ∧
      s.readReg (0x0300 + k) = (s.ct.get k).bits.toNat ∧
      s.readReg (0x0400 + k) = s.wlAt k ∧
      s.readReg (0x0500 + k) = (s.it.get k).sym.toNat ∧
      s.readReg (0x0600 + k) = (s.it.get k).code.len.val ∧
      s.readReg (0x0700 + k) = (s.it.get k).code.bits.toNat) ∧
    (∀ i : NodeIx, s.readReg (0x0800 + i) = (s.nodeAt i).kind.code.toNat ∧
      s.readReg (0x0A00 + i) = (s.nodeAt i).sym.toNat ∧
      s.readReg (0x0C00 + i) = (s.nodeAt i).freq ∧
      s.readReg (0x0E00 + i) = (s.nodeAt i).left.val ∧
      s.readReg (0x1000 + i) = (s.nodeAt i).right.val) ∧
    (∀ addr, Unlisted addr → s.readReg addr = 0)

/-- R38 to R40, R291, R61: a host read changes no state of the block, a write to any address but `CMD`
is ignored, a new source moves only the source, and without a host event nothing happens. The host
events, attaching and the last read are the model's choice (log entries 2, 3, 4 and 5). -/
def Obligations.HostAccessesHaveNoOtherEffect : Prop :=
  ∀ (s : State) (rest : List HostEvent),
    (s.host = [] → step s = .next s) ∧
    (∀ addr, s.host = .readReg addr :: rest →
      step s = .next { s with host := rest, rdata := s.readReg addr }) ∧
    (∀ addr data, s.host = .writeReg addr data :: rest → addr ≠ 0x0000 →
      step s = .next { s with host := rest }) ∧
    (∀ before after, s.host = .attachSource before after :: rest →
      step s = .next { s with host := rest, src := before ++ after, sp := before.length })

/-- R39, R63, R27: under the invariant every register fits the bus, so a read is the register
zero-extended. -/
def Obligations.RegisterReadsFitTheBus : Prop :=
  ∀ (s : State) (addr : Nat), s.Inv → s.readReg addr < 2 ^ max s.cfg.cntW 16
end

