-- ==== Sys2Proof/Laws/State.lean ====
section
/-! SUPPORT. What each named update of the state does to each field: one lemma per field per update, so
that no proof unfolds a record update. -/

namespace Sys2Proof.Machine

@[simp] theorem State.trap_phase (s : State) (k : ErrKind) (info : Word) :
    (s.trap k info).phase = .fault := rfl
@[simp] theorem State.trap_err (s : State) (k : ErrKind) (info : Word) :
    (s.trap k info).err = k := rfl
@[simp] theorem State.trap_errInfo (s : State) (k : ErrKind) (info : Word) :
    (s.trap k info).errInfo = info := rfl
@[simp] theorem State.trap_nsym (s : State) (k : ErrKind) (info : Word) :
    (s.trap k info).nsym = s.nsym := rfl
@[simp] theorem State.trap_pad (s : State) (k : ErrKind) (info : Word) :
    (s.trap k info).pad = s.pad := rfl
@[simp] theorem State.trap_total (s : State) (k : ErrKind) (info : Word) :
    (s.trap k info).total = s.total := rfl
@[simp] theorem State.trap_ft (s : State) (k : ErrKind) (info : Word) :
    (s.trap k info).ft = s.ft := rfl
@[simp] theorem State.trap_nodes (s : State) (k : ErrKind) (info : Word) :
    (s.trap k info).nodes = s.nodes := rfl
@[simp] theorem State.trap_nnodes (s : State) (k : ErrKind) (info : Word) :
    (s.trap k info).nnodes = s.nnodes := rfl
@[simp] theorem State.trap_root (s : State) (k : ErrKind) (info : Word) :
    (s.trap k info).root = s.root := rfl
@[simp] theorem State.trap_wl (s : State) (k : ErrKind) (info : Word) :
    (s.trap k info).wl = s.wl := rfl
@[simp] theorem State.trap_wlStale (s : State) (k : ErrKind) (info : Word) :
    (s.trap k info).wlStale = s.wlStale := rfl
@[simp] theorem State.trap_ct (s : State) (k : ErrKind) (info : Word) :
    (s.trap k info).ct = s.ct := rfl
@[simp] theorem State.trap_it (s : State) (k : ErrKind) (info : Word) :
    (s.trap k info).it = s.it := rfl
@[simp] theorem State.trap_itN (s : State) (k : ErrKind) (info : Word) :
    (s.trap k info).itN = s.itN := rfl
@[simp] theorem State.trap_acc (s : State) (k : ErrKind) (info : Word) :
    (s.trap k info).acc = s.acc := rfl
@[simp] theorem State.trap_fill (s : State) (k : ErrKind) (info : Word) :
    (s.trap k info).fill = s.fill := rfl
@[simp] theorem State.trap_cand (s : State) (k : ErrKind) (info : Word) :
    (s.trap k info).cand = s.cand := rfl
@[simp] theorem State.trap_candLen (s : State) (k : ErrKind) (info : Word) :
    (s.trap k info).candLen = s.candLen := rfl
@[simp] theorem State.trap_sp (s : State) (k : ErrKind) (info : Word) :
    (s.trap k info).sp = s.sp := rfl
@[simp] theorem State.trap_snk (s : State) (k : ErrKind) (info : Word) :
    (s.trap k info).snk = s.snk := rfl
@[simp] theorem State.trap_cfg (s : State) (k : ErrKind) (info : Word) :
    (s.trap k info).cfg = s.cfg := rfl
@[simp] theorem State.trap_src (s : State) (k : ErrKind) (info : Word) :
    (s.trap k info).src = s.src := rfl
@[simp] theorem State.trap_host (s : State) (k : ErrKind) (info : Word) :
    (s.trap k info).host = s.host := rfl
@[simp] theorem State.trap_rdata (s : State) (k : ErrKind) (info : Word) :
    (s.trap k info).rdata = s.rdata := rfl

@[simp] theorem State.clear_phase (s : State) : s.clear.phase = State.reset.phase := rfl
@[simp] theorem State.clear_err (s : State) : s.clear.err = State.reset.err := rfl
@[simp] theorem State.clear_errInfo (s : State) : s.clear.errInfo = State.reset.errInfo := rfl
@[simp] theorem State.clear_nsym (s : State) : s.clear.nsym = State.reset.nsym := rfl
@[simp] theorem State.clear_pad (s : State) : s.clear.pad = State.reset.pad := rfl
@[simp] theorem State.clear_total (s : State) : s.clear.total = State.reset.total := rfl
@[simp] theorem State.clear_ft (s : State) : s.clear.ft = State.reset.ft := rfl
@[simp] theorem State.clear_nodes (s : State) : s.clear.nodes = State.reset.nodes := rfl
@[simp] theorem State.clear_nnodes (s : State) : s.clear.nnodes = State.reset.nnodes := rfl
@[simp] theorem State.clear_root (s : State) : s.clear.root = State.reset.root := rfl
@[simp] theorem State.clear_wl (s : State) : s.clear.wl = State.reset.wl := rfl
@[simp] theorem State.clear_wlStale (s : State) : s.clear.wlStale = State.reset.wlStale := rfl
@[simp] theorem State.clear_ct (s : State) : s.clear.ct = State.reset.ct := rfl
@[simp] theorem State.clear_it (s : State) : s.clear.it = State.reset.it := rfl
@[simp] theorem State.clear_itN (s : State) : s.clear.itN = State.reset.itN := rfl
@[simp] theorem State.clear_acc (s : State) : s.clear.acc = State.reset.acc := rfl
@[simp] theorem State.clear_fill (s : State) : s.clear.fill = State.reset.fill := rfl
@[simp] theorem State.clear_cand (s : State) : s.clear.cand = State.reset.cand := rfl
@[simp] theorem State.clear_candLen (s : State) : s.clear.candLen = State.reset.candLen := rfl
@[simp] theorem State.clear_sp (s : State) : s.clear.sp = s.sp := rfl
@[simp] theorem State.clear_snk (s : State) : s.clear.snk = s.snk := rfl
@[simp] theorem State.clear_cfg (s : State) : s.clear.cfg = s.cfg := rfl
@[simp] theorem State.clear_src (s : State) : s.clear.src = s.src := rfl
@[simp] theorem State.clear_host (s : State) : s.clear.host = s.host := rfl
@[simp] theorem State.clear_rdata (s : State) : s.clear.rdata = s.rdata := rfl

@[simp] theorem State.setFt_phase (s : State) (b : Byte) (n : Nat) :
    (s.setFt b n).phase = s.phase := rfl
@[simp] theorem State.setFt_err (s : State) (b : Byte) (n : Nat) : (s.setFt b n).err = s.err := rfl
@[simp] theorem State.setFt_errInfo (s : State) (b : Byte) (n : Nat) :
    (s.setFt b n).errInfo = s.errInfo := rfl
@[simp] theorem State.setFt_nsym (s : State) (b : Byte) (n : Nat) :
    (s.setFt b n).nsym = s.nsym := rfl
@[simp] theorem State.setFt_pad (s : State) (b : Byte) (n : Nat) : (s.setFt b n).pad = s.pad := rfl
@[simp] theorem State.setFt_total (s : State) (b : Byte) (n : Nat) :
    (s.setFt b n).total = s.total := rfl
@[simp] theorem State.setFt_ft (s : State) (b : Byte) (n : Nat) :
    (s.setFt b n).ft = s.ft.set (symIx b) n := rfl
@[simp] theorem State.setFt_nodes (s : State) (b : Byte) (n : Nat) :
    (s.setFt b n).nodes = s.nodes := rfl
@[simp] theorem State.setFt_nnodes (s : State) (b : Byte) (n : Nat) :
    (s.setFt b n).nnodes = s.nnodes := rfl
@[simp] theorem State.setFt_root (s : State) (b : Byte) (n : Nat) :
    (s.setFt b n).root = s.root := rfl
@[simp] theorem State.setFt_wl (s : State) (b : Byte) (n : Nat) : (s.setFt b n).wl = s.wl := rfl
@[simp] theorem State.setFt_wlStale (s : State) (b : Byte) (n : Nat) :
    (s.setFt b n).wlStale = s.wlStale := rfl
@[simp] theorem State.setFt_ct (s : State) (b : Byte) (n : Nat) : (s.setFt b n).ct = s.ct := rfl
@[simp] theorem State.setFt_it (s : State) (b : Byte) (n : Nat) : (s.setFt b n).it = s.it := rfl
@[simp] theorem State.setFt_itN (s : State) (b : Byte) (n : Nat) : (s.setFt b n).itN = s.itN := rfl
@[simp] theorem State.setFt_acc (s : State) (b : Byte) (n : Nat) : (s.setFt b n).acc = s.acc := rfl
@[simp] theorem State.setFt_fill (s : State) (b : Byte) (n : Nat) :
    (s.setFt b n).fill = s.fill := rfl
@[simp] theorem State.setFt_cand (s : State) (b : Byte) (n : Nat) :
    (s.setFt b n).cand = s.cand := rfl
@[simp] theorem State.setFt_candLen (s : State) (b : Byte) (n : Nat) :
    (s.setFt b n).candLen = s.candLen := rfl
@[simp] theorem State.setFt_sp (s : State) (b : Byte) (n : Nat) : (s.setFt b n).sp = s.sp := rfl
@[simp] theorem State.setFt_snk (s : State) (b : Byte) (n : Nat) : (s.setFt b n).snk = s.snk := rfl
@[simp] theorem State.setFt_cfg (s : State) (b : Byte) (n : Nat) : (s.setFt b n).cfg = s.cfg := rfl
@[simp] theorem State.setFt_src (s : State) (b : Byte) (n : Nat) : (s.setFt b n).src = s.src := rfl
@[simp] theorem State.setFt_host (s : State) (b : Byte) (n : Nat) :
    (s.setFt b n).host = s.host := rfl
@[simp] theorem State.setFt_rdata (s : State) (b : Byte) (n : Nat) :
    (s.setFt b n).rdata = s.rdata := rfl

@[simp] theorem State.setCt_phase (s : State) (b : Byte) (c : Code) :
    (s.setCt b c).phase = s.phase := rfl
@[simp] theorem State.setCt_err (s : State) (b : Byte) (c : Code) : (s.setCt b c).err = s.err := rfl
@[simp] theorem State.setCt_errInfo (s : State) (b : Byte) (c : Code) :
    (s.setCt b c).errInfo = s.errInfo := rfl
@[simp] theorem State.setCt_nsym (s : State) (b : Byte) (c : Code) :
    (s.setCt b c).nsym = s.nsym := rfl
@[simp] theorem State.setCt_pad (s : State) (b : Byte) (c : Code) : (s.setCt b c).pad = s.pad := rfl
@[simp] theorem State.setCt_total (s : State) (b : Byte) (c : Code) :
    (s.setCt b c).total = s.total := rfl
@[simp] theorem State.setCt_ft (s : State) (b : Byte) (c : Code) : (s.setCt b c).ft = s.ft := rfl
@[simp] theorem State.setCt_nodes (s : State) (b : Byte) (c : Code) :
    (s.setCt b c).nodes = s.nodes := rfl
@[simp] theorem State.setCt_nnodes (s : State) (b : Byte) (c : Code) :
    (s.setCt b c).nnodes = s.nnodes := rfl
@[simp] theorem State.setCt_root (s : State) (b : Byte) (c : Code) :
    (s.setCt b c).root = s.root := rfl
@[simp] theorem State.setCt_wl (s : State) (b : Byte) (c : Code) : (s.setCt b c).wl = s.wl := rfl
@[simp] theorem State.setCt_wlStale (s : State) (b : Byte) (c : Code) :
    (s.setCt b c).wlStale = s.wlStale := rfl
@[simp] theorem State.setCt_ct (s : State) (b : Byte) (c : Code) :
    (s.setCt b c).ct = s.ct.set (symIx b) c := rfl
@[simp] theorem State.setCt_it (s : State) (b : Byte) (c : Code) : (s.setCt b c).it = s.it := rfl
@[simp] theorem State.setCt_itN (s : State) (b : Byte) (c : Code) : (s.setCt b c).itN = s.itN := rfl
@[simp] theorem State.setCt_acc (s : State) (b : Byte) (c : Code) : (s.setCt b c).acc = s.acc := rfl
@[simp] theorem State.setCt_fill (s : State) (b : Byte) (c : Code) :
    (s.setCt b c).fill = s.fill := rfl
@[simp] theorem State.setCt_cand (s : State) (b : Byte) (c : Code) :
    (s.setCt b c).cand = s.cand := rfl
@[simp] theorem State.setCt_candLen (s : State) (b : Byte) (c : Code) :
    (s.setCt b c).candLen = s.candLen := rfl
@[simp] theorem State.setCt_sp (s : State) (b : Byte) (c : Code) : (s.setCt b c).sp = s.sp := rfl
@[simp] theorem State.setCt_snk (s : State) (b : Byte) (c : Code) : (s.setCt b c).snk = s.snk := rfl
@[simp] theorem State.setCt_cfg (s : State) (b : Byte) (c : Code) : (s.setCt b c).cfg = s.cfg := rfl
@[simp] theorem State.setCt_src (s : State) (b : Byte) (c : Code) : (s.setCt b c).src = s.src := rfl
@[simp] theorem State.setCt_host (s : State) (b : Byte) (c : Code) :
    (s.setCt b c).host = s.host := rfl
@[simp] theorem State.setCt_rdata (s : State) (b : Byte) (c : Code) :
    (s.setCt b c).rdata = s.rdata := rfl

@[simp] theorem State.setNode_phase (s : State) (i : NodeIx) (nd : Node) :
    (s.setNode i nd).phase = s.phase := rfl
@[simp] theorem State.setNode_err (s : State) (i : NodeIx) (nd : Node) :
    (s.setNode i nd).err = s.err := rfl
@[simp] theorem State.setNode_errInfo (s : State) (i : NodeIx) (nd : Node) :
    (s.setNode i nd).errInfo = s.errInfo := rfl
@[simp] theorem State.setNode_nsym (s : State) (i : NodeIx) (nd : Node) :
    (s.setNode i nd).nsym = s.nsym := rfl
@[simp] theorem State.setNode_pad (s : State) (i : NodeIx) (nd : Node) :
    (s.setNode i nd).pad = s.pad := rfl
@[simp] theorem State.setNode_total (s : State) (i : NodeIx) (nd : Node) :
    (s.setNode i nd).total = s.total := rfl
@[simp] theorem State.setNode_ft (s : State) (i : NodeIx) (nd : Node) :
    (s.setNode i nd).ft = s.ft := rfl
@[simp] theorem State.setNode_nodes (s : State) (i : NodeIx) (nd : Node) :
    (s.setNode i nd).nodes = s.nodes.set i nd := rfl
@[simp] theorem State.setNode_nnodes (s : State) (i : NodeIx) (nd : Node) :
    (s.setNode i nd).nnodes = s.nnodes := rfl
@[simp] theorem State.setNode_root (s : State) (i : NodeIx) (nd : Node) :
    (s.setNode i nd).root = s.root := rfl
@[simp] theorem State.setNode_wl (s : State) (i : NodeIx) (nd : Node) :
    (s.setNode i nd).wl = s.wl := rfl
@[simp] theorem State.setNode_wlStale (s : State) (i : NodeIx) (nd : Node) :
    (s.setNode i nd).wlStale = s.wlStale := rfl
@[simp] theorem State.setNode_ct (s : State) (i : NodeIx) (nd : Node) :
    (s.setNode i nd).ct = s.ct := rfl
@[simp] theorem State.setNode_it (s : State) (i : NodeIx) (nd : Node) :
    (s.setNode i nd).it = s.it := rfl
@[simp] theorem State.setNode_itN (s : State) (i : NodeIx) (nd : Node) :
    (s.setNode i nd).itN = s.itN := rfl
@[simp] theorem State.setNode_acc (s : State) (i : NodeIx) (nd : Node) :
    (s.setNode i nd).acc = s.acc := rfl
@[simp] theorem State.setNode_fill (s : State) (i : NodeIx) (nd : Node) :
    (s.setNode i nd).fill = s.fill := rfl
@[simp] theorem State.setNode_cand (s : State) (i : NodeIx) (nd : Node) :
    (s.setNode i nd).cand = s.cand := rfl
@[simp] theorem State.setNode_candLen (s : State) (i : NodeIx) (nd : Node) :
    (s.setNode i nd).candLen = s.candLen := rfl
@[simp] theorem State.setNode_sp (s : State) (i : NodeIx) (nd : Node) :
    (s.setNode i nd).sp = s.sp := rfl
@[simp] theorem State.setNode_snk (s : State) (i : NodeIx) (nd : Node) :
    (s.setNode i nd).snk = s.snk := rfl
@[simp] theorem State.setNode_cfg (s : State) (i : NodeIx) (nd : Node) :
    (s.setNode i nd).cfg = s.cfg := rfl
@[simp] theorem State.setNode_src (s : State) (i : NodeIx) (nd : Node) :
    (s.setNode i nd).src = s.src := rfl
@[simp] theorem State.setNode_host (s : State) (i : NodeIx) (nd : Node) :
    (s.setNode i nd).host = s.host := rfl
@[simp] theorem State.setNode_rdata (s : State) (i : NodeIx) (nd : Node) :
    (s.setNode i nd).rdata = s.rdata := rfl

@[simp] theorem State.advance_phase (s : State) : s.advance.phase = s.phase := rfl
@[simp] theorem State.advance_err (s : State) : s.advance.err = s.err := rfl
@[simp] theorem State.advance_errInfo (s : State) : s.advance.errInfo = s.errInfo := rfl
@[simp] theorem State.advance_nsym (s : State) : s.advance.nsym = s.nsym := rfl
@[simp] theorem State.advance_pad (s : State) : s.advance.pad = s.pad := rfl
@[simp] theorem State.advance_total (s : State) : s.advance.total = s.total := rfl
@[simp] theorem State.advance_ft (s : State) : s.advance.ft = s.ft := rfl
@[simp] theorem State.advance_nodes (s : State) : s.advance.nodes = s.nodes := rfl
@[simp] theorem State.advance_nnodes (s : State) : s.advance.nnodes = s.nnodes := rfl
@[simp] theorem State.advance_root (s : State) : s.advance.root = s.root := rfl
@[simp] theorem State.advance_wl (s : State) : s.advance.wl = s.wl := rfl
@[simp] theorem State.advance_wlStale (s : State) : s.advance.wlStale = s.wlStale := rfl
@[simp] theorem State.advance_ct (s : State) : s.advance.ct = s.ct := rfl
@[simp] theorem State.advance_it (s : State) : s.advance.it = s.it := rfl
@[simp] theorem State.advance_itN (s : State) : s.advance.itN = s.itN := rfl
@[simp] theorem State.advance_acc (s : State) : s.advance.acc = s.acc := rfl
@[simp] theorem State.advance_fill (s : State) : s.advance.fill = s.fill := rfl
@[simp] theorem State.advance_cand (s : State) : s.advance.cand = s.cand := rfl
@[simp] theorem State.advance_candLen (s : State) : s.advance.candLen = s.candLen := rfl
@[simp] theorem State.advance_sp (s : State) : s.advance.sp = s.sp + 1 := rfl
@[simp] theorem State.advance_snk (s : State) : s.advance.snk = s.snk := rfl
@[simp] theorem State.advance_cfg (s : State) : s.advance.cfg = s.cfg := rfl
@[simp] theorem State.advance_src (s : State) : s.advance.src = s.src := rfl
@[simp] theorem State.advance_host (s : State) : s.advance.host = s.host := rfl
@[simp] theorem State.advance_rdata (s : State) : s.advance.rdata = s.rdata := rfl

@[simp] theorem State.srcRewind_phase (s : State) : s.srcRewind.phase = s.phase := rfl
@[simp] theorem State.srcRewind_err (s : State) : s.srcRewind.err = s.err := rfl
@[simp] theorem State.srcRewind_errInfo (s : State) : s.srcRewind.errInfo = s.errInfo := rfl
@[simp] theorem State.srcRewind_nsym (s : State) : s.srcRewind.nsym = s.nsym := rfl
@[simp] theorem State.srcRewind_pad (s : State) : s.srcRewind.pad = s.pad := rfl
@[simp] theorem State.srcRewind_total (s : State) : s.srcRewind.total = s.total := rfl
@[simp] theorem State.srcRewind_ft (s : State) : s.srcRewind.ft = s.ft := rfl
@[simp] theorem State.srcRewind_nodes (s : State) : s.srcRewind.nodes = s.nodes := rfl
@[simp] theorem State.srcRewind_nnodes (s : State) : s.srcRewind.nnodes = s.nnodes := rfl
@[simp] theorem State.srcRewind_root (s : State) : s.srcRewind.root = s.root := rfl
@[simp] theorem State.srcRewind_wl (s : State) : s.srcRewind.wl = s.wl := rfl
@[simp] theorem State.srcRewind_wlStale (s : State) : s.srcRewind.wlStale = s.wlStale := rfl
@[simp] theorem State.srcRewind_ct (s : State) : s.srcRewind.ct = s.ct := rfl
@[simp] theorem State.srcRewind_it (s : State) : s.srcRewind.it = s.it := rfl
@[simp] theorem State.srcRewind_itN (s : State) : s.srcRewind.itN = s.itN := rfl
@[simp] theorem State.srcRewind_acc (s : State) : s.srcRewind.acc = s.acc := rfl
@[simp] theorem State.srcRewind_fill (s : State) : s.srcRewind.fill = s.fill := rfl
@[simp] theorem State.srcRewind_cand (s : State) : s.srcRewind.cand = s.cand := rfl
@[simp] theorem State.srcRewind_candLen (s : State) : s.srcRewind.candLen = s.candLen := rfl
@[simp] theorem State.srcRewind_sp (s : State) : s.srcRewind.sp = 0 := rfl
@[simp] theorem State.srcRewind_snk (s : State) : s.srcRewind.snk = s.snk := rfl
@[simp] theorem State.srcRewind_cfg (s : State) : s.srcRewind.cfg = s.cfg := rfl
@[simp] theorem State.srcRewind_src (s : State) : s.srcRewind.src = s.src := rfl
@[simp] theorem State.srcRewind_host (s : State) : s.srcRewind.host = s.host := rfl
@[simp] theorem State.srcRewind_rdata (s : State) : s.srcRewind.rdata = s.rdata := rfl

@[simp] theorem State.sinkWrite_phase (s : State) (b : Byte) :
    (s.sinkWrite b).phase = s.phase := rfl
@[simp] theorem State.sinkWrite_err (s : State) (b : Byte) : (s.sinkWrite b).err = s.err := rfl
@[simp] theorem State.sinkWrite_errInfo (s : State) (b : Byte) :
    (s.sinkWrite b).errInfo = s.errInfo := rfl
@[simp] theorem State.sinkWrite_nsym (s : State) (b : Byte) : (s.sinkWrite b).nsym = s.nsym := rfl
@[simp] theorem State.sinkWrite_pad (s : State) (b : Byte) : (s.sinkWrite b).pad = s.pad := rfl
@[simp] theorem State.sinkWrite_total (s : State) (b : Byte) :
    (s.sinkWrite b).total = s.total := rfl
@[simp] theorem State.sinkWrite_ft (s : State) (b : Byte) : (s.sinkWrite b).ft = s.ft := rfl
@[simp] theorem State.sinkWrite_nodes (s : State) (b : Byte) :
    (s.sinkWrite b).nodes = s.nodes := rfl
@[simp] theorem State.sinkWrite_nnodes (s : State) (b : Byte) :
    (s.sinkWrite b).nnodes = s.nnodes := rfl
@[simp] theorem State.sinkWrite_root (s : State) (b : Byte) : (s.sinkWrite b).root = s.root := rfl
@[simp] theorem State.sinkWrite_wl (s : State) (b : Byte) : (s.sinkWrite b).wl = s.wl := rfl
@[simp] theorem State.sinkWrite_wlStale (s : State) (b : Byte) :
    (s.sinkWrite b).wlStale = s.wlStale := rfl
@[simp] theorem State.sinkWrite_ct (s : State) (b : Byte) : (s.sinkWrite b).ct = s.ct := rfl
@[simp] theorem State.sinkWrite_it (s : State) (b : Byte) : (s.sinkWrite b).it = s.it := rfl
@[simp] theorem State.sinkWrite_itN (s : State) (b : Byte) : (s.sinkWrite b).itN = s.itN := rfl
@[simp] theorem State.sinkWrite_acc (s : State) (b : Byte) : (s.sinkWrite b).acc = s.acc := rfl
@[simp] theorem State.sinkWrite_fill (s : State) (b : Byte) : (s.sinkWrite b).fill = s.fill := rfl
@[simp] theorem State.sinkWrite_cand (s : State) (b : Byte) : (s.sinkWrite b).cand = s.cand := rfl
@[simp] theorem State.sinkWrite_candLen (s : State) (b : Byte) :
    (s.sinkWrite b).candLen = s.candLen := rfl
@[simp] theorem State.sinkWrite_sp (s : State) (b : Byte) : (s.sinkWrite b).sp = s.sp := rfl
@[simp] theorem State.sinkWrite_snk (s : State) (b : Byte) :
    (s.sinkWrite b).snk = s.snk ++ [b] := rfl
@[simp] theorem State.sinkWrite_cfg (s : State) (b : Byte) : (s.sinkWrite b).cfg = s.cfg := rfl
@[simp] theorem State.sinkWrite_src (s : State) (b : Byte) : (s.sinkWrite b).src = s.src := rfl
@[simp] theorem State.sinkWrite_host (s : State) (b : Byte) : (s.sinkWrite b).host = s.host := rfl
@[simp] theorem State.sinkWrite_rdata (s : State) (b : Byte) :
    (s.sinkWrite b).rdata = s.rdata := rfl

@[simp] theorem State.sinkWrites_phase (s : State) (bs : List Byte) :
    (s.sinkWrites bs).phase = s.phase := rfl
@[simp] theorem State.sinkWrites_err (s : State) (bs : List Byte) :
    (s.sinkWrites bs).err = s.err := rfl
@[simp] theorem State.sinkWrites_errInfo (s : State) (bs : List Byte) :
    (s.sinkWrites bs).errInfo = s.errInfo := rfl
@[simp] theorem State.sinkWrites_nsym (s : State) (bs : List Byte) :
    (s.sinkWrites bs).nsym = s.nsym := rfl
@[simp] theorem State.sinkWrites_pad (s : State) (bs : List Byte) :
    (s.sinkWrites bs).pad = s.pad := rfl
@[simp] theorem State.sinkWrites_total (s : State) (bs : List Byte) :
    (s.sinkWrites bs).total = s.total := rfl
@[simp] theorem State.sinkWrites_ft (s : State) (bs : List Byte) :
    (s.sinkWrites bs).ft = s.ft := rfl
@[simp] theorem State.sinkWrites_nodes (s : State) (bs : List Byte) :
    (s.sinkWrites bs).nodes = s.nodes := rfl
@[simp] theorem State.sinkWrites_nnodes (s : State) (bs : List Byte) :
    (s.sinkWrites bs).nnodes = s.nnodes := rfl
@[simp] theorem State.sinkWrites_root (s : State) (bs : List Byte) :
    (s.sinkWrites bs).root = s.root := rfl
@[simp] theorem State.sinkWrites_wl (s : State) (bs : List Byte) :
    (s.sinkWrites bs).wl = s.wl := rfl
@[simp] theorem State.sinkWrites_wlStale (s : State) (bs : List Byte) :
    (s.sinkWrites bs).wlStale = s.wlStale := rfl
@[simp] theorem State.sinkWrites_ct (s : State) (bs : List Byte) :
    (s.sinkWrites bs).ct = s.ct := rfl
@[simp] theorem State.sinkWrites_it (s : State) (bs : List Byte) :
    (s.sinkWrites bs).it = s.it := rfl
@[simp] theorem State.sinkWrites_itN (s : State) (bs : List Byte) :
    (s.sinkWrites bs).itN = s.itN := rfl
@[simp] theorem State.sinkWrites_acc (s : State) (bs : List Byte) :
    (s.sinkWrites bs).acc = s.acc := rfl
@[simp] theorem State.sinkWrites_fill (s : State) (bs : List Byte) :
    (s.sinkWrites bs).fill = s.fill := rfl
@[simp] theorem State.sinkWrites_cand (s : State) (bs : List Byte) :
    (s.sinkWrites bs).cand = s.cand := rfl
@[simp] theorem State.sinkWrites_candLen (s : State) (bs : List Byte) :
    (s.sinkWrites bs).candLen = s.candLen := rfl
@[simp] theorem State.sinkWrites_sp (s : State) (bs : List Byte) :
    (s.sinkWrites bs).sp = s.sp := rfl
@[simp] theorem State.sinkWrites_snk (s : State) (bs : List Byte) :
    (s.sinkWrites bs).snk = s.snk ++ bs := rfl
@[simp] theorem State.sinkWrites_cfg (s : State) (bs : List Byte) :
    (s.sinkWrites bs).cfg = s.cfg := rfl
@[simp] theorem State.sinkWrites_src (s : State) (bs : List Byte) :
    (s.sinkWrites bs).src = s.src := rfl
@[simp] theorem State.sinkWrites_host (s : State) (bs : List Byte) :
    (s.sinkWrites bs).host = s.host := rfl
@[simp] theorem State.sinkWrites_rdata (s : State) (bs : List Byte) :
    (s.sinkWrites bs).rdata = s.rdata := rfl

@[simp] theorem State.emptyWl_phase (s : State) : s.emptyWl.phase = s.phase := rfl
@[simp] theorem State.emptyWl_err (s : State) : s.emptyWl.err = s.err := rfl
@[simp] theorem State.emptyWl_errInfo (s : State) : s.emptyWl.errInfo = s.errInfo := rfl
@[simp] theorem State.emptyWl_nsym (s : State) : s.emptyWl.nsym = s.nsym := rfl
@[simp] theorem State.emptyWl_pad (s : State) : s.emptyWl.pad = s.pad := rfl
@[simp] theorem State.emptyWl_total (s : State) : s.emptyWl.total = s.total := rfl
@[simp] theorem State.emptyWl_ft (s : State) : s.emptyWl.ft = s.ft := rfl
@[simp] theorem State.emptyWl_nodes (s : State) : s.emptyWl.nodes = s.nodes := rfl
@[simp] theorem State.emptyWl_nnodes (s : State) : s.emptyWl.nnodes = s.nnodes := rfl
@[simp] theorem State.emptyWl_root (s : State) : s.emptyWl.root = s.root := rfl
@[simp] theorem State.emptyWl_wl (s : State) : s.emptyWl.wl = [] := rfl
@[simp] theorem State.emptyWl_wlStale (s : State) : s.emptyWl.wlStale = s.wl ++ s.wlStale := rfl
@[simp] theorem State.emptyWl_ct (s : State) : s.emptyWl.ct = s.ct := rfl
@[simp] theorem State.emptyWl_it (s : State) : s.emptyWl.it = s.it := rfl
@[simp] theorem State.emptyWl_itN (s : State) : s.emptyWl.itN = s.itN := rfl
@[simp] theorem State.emptyWl_acc (s : State) : s.emptyWl.acc = s.acc := rfl
@[simp] theorem State.emptyWl_fill (s : State) : s.emptyWl.fill = s.fill := rfl
@[simp] theorem State.emptyWl_cand (s : State) : s.emptyWl.cand = s.cand := rfl
@[simp] theorem State.emptyWl_candLen (s : State) : s.emptyWl.candLen = s.candLen := rfl
@[simp] theorem State.emptyWl_sp (s : State) : s.emptyWl.sp = s.sp := rfl
@[simp] theorem State.emptyWl_snk (s : State) : s.emptyWl.snk = s.snk := rfl
@[simp] theorem State.emptyWl_cfg (s : State) : s.emptyWl.cfg = s.cfg := rfl
@[simp] theorem State.emptyWl_src (s : State) : s.emptyWl.src = s.src := rfl
@[simp] theorem State.emptyWl_host (s : State) : s.emptyWl.host = s.host := rfl
@[simp] theorem State.emptyWl_rdata (s : State) : s.emptyWl.rdata = s.rdata := rfl

@[simp] theorem State.insertOrdered_phase (s : State) (x : NodeIx) :
    (s.insertOrdered x).phase = s.phase := rfl
@[simp] theorem State.insertOrdered_err (s : State) (x : NodeIx) :
    (s.insertOrdered x).err = s.err := rfl
@[simp] theorem State.insertOrdered_errInfo (s : State) (x : NodeIx) :
    (s.insertOrdered x).errInfo = s.errInfo := rfl
@[simp] theorem State.insertOrdered_nsym (s : State) (x : NodeIx) :
    (s.insertOrdered x).nsym = s.nsym := rfl
@[simp] theorem State.insertOrdered_pad (s : State) (x : NodeIx) :
    (s.insertOrdered x).pad = s.pad := rfl
@[simp] theorem State.insertOrdered_total (s : State) (x : NodeIx) :
    (s.insertOrdered x).total = s.total := rfl
@[simp] theorem State.insertOrdered_ft (s : State) (x : NodeIx) :
    (s.insertOrdered x).ft = s.ft := rfl
@[simp] theorem State.insertOrdered_nodes (s : State) (x : NodeIx) :
    (s.insertOrdered x).nodes = s.nodes := rfl
@[simp] theorem State.insertOrdered_nnodes (s : State) (x : NodeIx) :
    (s.insertOrdered x).nnodes = s.nnodes := rfl
@[simp] theorem State.insertOrdered_root (s : State) (x : NodeIx) :
    (s.insertOrdered x).root = s.root := rfl
@[simp] theorem State.insertOrdered_wl (s : State) (x : NodeIx) :
    (s.insertOrdered x).wl = s.wl.take (s.insertPos x) ++ x :: s.wl.drop (s.insertPos x) := rfl
@[simp] theorem State.insertOrdered_wlStale (s : State) (x : NodeIx) :
    (s.insertOrdered x).wlStale = s.wlStale.drop 1 := rfl
@[simp] theorem State.insertOrdered_ct (s : State) (x : NodeIx) :
    (s.insertOrdered x).ct = s.ct := rfl
@[simp] theorem State.insertOrdered_it (s : State) (x : NodeIx) :
    (s.insertOrdered x).it = s.it := rfl
@[simp] theorem State.insertOrdered_itN (s : State) (x : NodeIx) :
    (s.insertOrdered x).itN = s.itN := rfl
@[simp] theorem State.insertOrdered_acc (s : State) (x : NodeIx) :
    (s.insertOrdered x).acc = s.acc := rfl
@[simp] theorem State.insertOrdered_fill (s : State) (x : NodeIx) :
    (s.insertOrdered x).fill = s.fill := rfl
@[simp] theorem State.insertOrdered_cand (s : State) (x : NodeIx) :
    (s.insertOrdered x).cand = s.cand := rfl
@[simp] theorem State.insertOrdered_candLen (s : State) (x : NodeIx) :
    (s.insertOrdered x).candLen = s.candLen := rfl
@[simp] theorem State.insertOrdered_sp (s : State) (x : NodeIx) :
    (s.insertOrdered x).sp = s.sp := rfl
@[simp] theorem State.insertOrdered_snk (s : State) (x : NodeIx) :
    (s.insertOrdered x).snk = s.snk := rfl
@[simp] theorem State.insertOrdered_cfg (s : State) (x : NodeIx) :
    (s.insertOrdered x).cfg = s.cfg := rfl
@[simp] theorem State.insertOrdered_src (s : State) (x : NodeIx) :
    (s.insertOrdered x).src = s.src := rfl
@[simp] theorem State.insertOrdered_host (s : State) (x : NodeIx) :
    (s.insertOrdered x).host = s.host := rfl
@[simp] theorem State.insertOrdered_rdata (s : State) (x : NodeIx) :
    (s.insertOrdered x).rdata = s.rdata := rfl

@[simp] theorem State.emptyAcc_phase (s : State) : s.emptyAcc.phase = s.phase := rfl
@[simp] theorem State.emptyAcc_err (s : State) : s.emptyAcc.err = s.err := rfl
@[simp] theorem State.emptyAcc_errInfo (s : State) : s.emptyAcc.errInfo = s.errInfo := rfl
@[simp] theorem State.emptyAcc_nsym (s : State) : s.emptyAcc.nsym = s.nsym := rfl
@[simp] theorem State.emptyAcc_pad (s : State) : s.emptyAcc.pad = s.pad := rfl
@[simp] theorem State.emptyAcc_total (s : State) : s.emptyAcc.total = s.total := rfl
@[simp] theorem State.emptyAcc_ft (s : State) : s.emptyAcc.ft = s.ft := rfl
@[simp] theorem State.emptyAcc_nodes (s : State) : s.emptyAcc.nodes = s.nodes := rfl
@[simp] theorem State.emptyAcc_nnodes (s : State) : s.emptyAcc.nnodes = s.nnodes := rfl
@[simp] theorem State.emptyAcc_root (s : State) : s.emptyAcc.root = s.root := rfl
@[simp] theorem State.emptyAcc_wl (s : State) : s.emptyAcc.wl = s.wl := rfl
@[simp] theorem State.emptyAcc_wlStale (s : State) : s.emptyAcc.wlStale = s.wlStale := rfl
@[simp] theorem State.emptyAcc_ct (s : State) : s.emptyAcc.ct = s.ct := rfl
@[simp] theorem State.emptyAcc_it (s : State) : s.emptyAcc.it = s.it := rfl
@[simp] theorem State.emptyAcc_itN (s : State) : s.emptyAcc.itN = s.itN := rfl
@[simp] theorem State.emptyAcc_acc (s : State) : s.emptyAcc.acc = 0 := rfl
@[simp] theorem State.emptyAcc_fill (s : State) : s.emptyAcc.fill = 0 := rfl
@[simp] theorem State.emptyAcc_cand (s : State) : s.emptyAcc.cand = s.cand := rfl
@[simp] theorem State.emptyAcc_candLen (s : State) : s.emptyAcc.candLen = s.candLen := rfl
@[simp] theorem State.emptyAcc_sp (s : State) : s.emptyAcc.sp = s.sp := rfl
@[simp] theorem State.emptyAcc_snk (s : State) : s.emptyAcc.snk = s.snk := rfl
@[simp] theorem State.emptyAcc_cfg (s : State) : s.emptyAcc.cfg = s.cfg := rfl
@[simp] theorem State.emptyAcc_src (s : State) : s.emptyAcc.src = s.src := rfl
@[simp] theorem State.emptyAcc_host (s : State) : s.emptyAcc.host = s.host := rfl
@[simp] theorem State.emptyAcc_rdata (s : State) : s.emptyAcc.rdata = s.rdata := rfl

@[simp] theorem State.emptyCand_phase (s : State) : s.emptyCand.phase = s.phase := rfl
@[simp] theorem State.emptyCand_err (s : State) : s.emptyCand.err = s.err := rfl
@[simp] theorem State.emptyCand_errInfo (s : State) : s.emptyCand.errInfo = s.errInfo := rfl
@[simp] theorem State.emptyCand_nsym (s : State) : s.emptyCand.nsym = s.nsym := rfl
@[simp] theorem State.emptyCand_pad (s : State) : s.emptyCand.pad = s.pad := rfl
@[simp] theorem State.emptyCand_total (s : State) : s.emptyCand.total = s.total := rfl
@[simp] theorem State.emptyCand_ft (s : State) : s.emptyCand.ft = s.ft := rfl
@[simp] theorem State.emptyCand_nodes (s : State) : s.emptyCand.nodes = s.nodes := rfl
@[simp] theorem State.emptyCand_nnodes (s : State) : s.emptyCand.nnodes = s.nnodes := rfl
@[simp] theorem State.emptyCand_root (s : State) : s.emptyCand.root = s.root := rfl
@[simp] theorem State.emptyCand_wl (s : State) : s.emptyCand.wl = s.wl := rfl
@[simp] theorem State.emptyCand_wlStale (s : State) : s.emptyCand.wlStale = s.wlStale := rfl
@[simp] theorem State.emptyCand_ct (s : State) : s.emptyCand.ct = s.ct := rfl
@[simp] theorem State.emptyCand_it (s : State) : s.emptyCand.it = s.it := rfl
@[simp] theorem State.emptyCand_itN (s : State) : s.emptyCand.itN = s.itN := rfl
@[simp] theorem State.emptyCand_acc (s : State) : s.emptyCand.acc = s.acc := rfl
@[simp] theorem State.emptyCand_fill (s : State) : s.emptyCand.fill = s.fill := rfl
@[simp] theorem State.emptyCand_cand (s : State) : s.emptyCand.cand = 0 := rfl
@[simp] theorem State.emptyCand_candLen (s : State) : s.emptyCand.candLen = 0 := rfl
@[simp] theorem State.emptyCand_sp (s : State) : s.emptyCand.sp = s.sp := rfl
@[simp] theorem State.emptyCand_snk (s : State) : s.emptyCand.snk = s.snk := rfl
@[simp] theorem State.emptyCand_cfg (s : State) : s.emptyCand.cfg = s.cfg := rfl
@[simp] theorem State.emptyCand_src (s : State) : s.emptyCand.src = s.src := rfl
@[simp] theorem State.emptyCand_host (s : State) : s.emptyCand.host = s.host := rfl
@[simp] theorem State.emptyCand_rdata (s : State) : s.emptyCand.rdata = s.rdata := rfl

@[simp] theorem State.appendCand_phase (s : State) (b : Bool) :
    (s.appendCand b).phase = s.phase := rfl
@[simp] theorem State.appendCand_err (s : State) (b : Bool) : (s.appendCand b).err = s.err := rfl
@[simp] theorem State.appendCand_errInfo (s : State) (b : Bool) :
    (s.appendCand b).errInfo = s.errInfo := rfl
@[simp] theorem State.appendCand_nsym (s : State) (b : Bool) : (s.appendCand b).nsym = s.nsym := rfl
@[simp] theorem State.appendCand_pad (s : State) (b : Bool) : (s.appendCand b).pad = s.pad := rfl
@[simp] theorem State.appendCand_total (s : State) (b : Bool) :
    (s.appendCand b).total = s.total := rfl
@[simp] theorem State.appendCand_ft (s : State) (b : Bool) : (s.appendCand b).ft = s.ft := rfl
@[simp] theorem State.appendCand_nodes (s : State) (b : Bool) :
    (s.appendCand b).nodes = s.nodes := rfl
@[simp] theorem State.appendCand_nnodes (s : State) (b : Bool) :
    (s.appendCand b).nnodes = s.nnodes := rfl
@[simp] theorem State.appendCand_root (s : State) (b : Bool) : (s.appendCand b).root = s.root := rfl
@[simp] theorem State.appendCand_wl (s : State) (b : Bool) : (s.appendCand b).wl = s.wl := rfl
@[simp] theorem State.appendCand_wlStale (s : State) (b : Bool) :
    (s.appendCand b).wlStale = s.wlStale := rfl
@[simp] theorem State.appendCand_ct (s : State) (b : Bool) : (s.appendCand b).ct = s.ct := rfl
@[simp] theorem State.appendCand_it (s : State) (b : Bool) : (s.appendCand b).it = s.it := rfl
@[simp] theorem State.appendCand_itN (s : State) (b : Bool) : (s.appendCand b).itN = s.itN := rfl
@[simp] theorem State.appendCand_acc (s : State) (b : Bool) : (s.appendCand b).acc = s.acc := rfl
@[simp] theorem State.appendCand_fill (s : State) (b : Bool) : (s.appendCand b).fill = s.fill := rfl
@[simp] theorem State.appendCand_cand (s : State) (b : Bool) :
    (s.appendCand b).cand = s.cand ||| (if b then (1 : Word) <<< (15 - s.candLen.val) else 0) := rfl
@[simp] theorem State.appendCand_candLen (s : State) (b : Bool) :
    (s.appendCand b).candLen = Fin.ofNat 17 (s.candLen.val + 1) := rfl
@[simp] theorem State.appendCand_sp (s : State) (b : Bool) : (s.appendCand b).sp = s.sp := rfl
@[simp] theorem State.appendCand_snk (s : State) (b : Bool) : (s.appendCand b).snk = s.snk := rfl
@[simp] theorem State.appendCand_cfg (s : State) (b : Bool) : (s.appendCand b).cfg = s.cfg := rfl
@[simp] theorem State.appendCand_src (s : State) (b : Bool) : (s.appendCand b).src = s.src := rfl
@[simp] theorem State.appendCand_host (s : State) (b : Bool) : (s.appendCand b).host = s.host := rfl
@[simp] theorem State.appendCand_rdata (s : State) (b : Bool) :
    (s.appendCand b).rdata = s.rdata := rfl

@[simp] theorem State.acceptRecord_phase (s : State) (r : Nat) (sym : Byte) (c : Code) :
    (s.acceptRecord r sym c).phase = s.phase := rfl
@[simp] theorem State.acceptRecord_err (s : State) (r : Nat) (sym : Byte) (c : Code) :
    (s.acceptRecord r sym c).err = s.err := rfl
@[simp] theorem State.acceptRecord_errInfo (s : State) (r : Nat) (sym : Byte) (c : Code) :
    (s.acceptRecord r sym c).errInfo = s.errInfo := rfl
@[simp] theorem State.acceptRecord_nsym (s : State) (r : Nat) (sym : Byte) (c : Code) :
    (s.acceptRecord r sym c).nsym = s.nsym := rfl
@[simp] theorem State.acceptRecord_pad (s : State) (r : Nat) (sym : Byte) (c : Code) :
    (s.acceptRecord r sym c).pad = s.pad := rfl
@[simp] theorem State.acceptRecord_total (s : State) (r : Nat) (sym : Byte) (c : Code) :
    (s.acceptRecord r sym c).total = s.total := rfl
@[simp] theorem State.acceptRecord_ft (s : State) (r : Nat) (sym : Byte) (c : Code) :
    (s.acceptRecord r sym c).ft = s.ft := rfl
@[simp] theorem State.acceptRecord_nodes (s : State) (r : Nat) (sym : Byte) (c : Code) :
    (s.acceptRecord r sym c).nodes = s.nodes := rfl
@[simp] theorem State.acceptRecord_nnodes (s : State) (r : Nat) (sym : Byte) (c : Code) :
    (s.acceptRecord r sym c).nnodes = s.nnodes := rfl
@[simp] theorem State.acceptRecord_root (s : State) (r : Nat) (sym : Byte) (c : Code) :
    (s.acceptRecord r sym c).root = s.root := rfl
@[simp] theorem State.acceptRecord_wl (s : State) (r : Nat) (sym : Byte) (c : Code) :
    (s.acceptRecord r sym c).wl = s.wl := rfl
@[simp] theorem State.acceptRecord_wlStale (s : State) (r : Nat) (sym : Byte) (c : Code) :
    (s.acceptRecord r sym c).wlStale = s.wlStale := rfl
@[simp] theorem State.acceptRecord_ct (s : State) (r : Nat) (sym : Byte) (c : Code) :
    (s.acceptRecord r sym c).ct = s.ct := rfl
@[simp] theorem State.acceptRecord_it (s : State) (r : Nat) (sym : Byte) (c : Code) :
    (s.acceptRecord r sym c).it = s.it.set (entryIx r) { sym := sym, code := c } := rfl
@[simp] theorem State.acceptRecord_itN (s : State) (r : Nat) (sym : Byte) (c : Code) :
    (s.acceptRecord r sym c).itN = Fin.ofNat 257 (r + 1) := rfl
@[simp] theorem State.acceptRecord_acc (s : State) (r : Nat) (sym : Byte) (c : Code) :
    (s.acceptRecord r sym c).acc = s.acc := rfl
@[simp] theorem State.acceptRecord_fill (s : State) (r : Nat) (sym : Byte) (c : Code) :
    (s.acceptRecord r sym c).fill = s.fill := rfl
@[simp] theorem State.acceptRecord_cand (s : State) (r : Nat) (sym : Byte) (c : Code) :
    (s.acceptRecord r sym c).cand = s.cand := rfl
@[simp] theorem State.acceptRecord_candLen (s : State) (r : Nat) (sym : Byte) (c : Code) :
    (s.acceptRecord r sym c).candLen = s.candLen := rfl
@[simp] theorem State.acceptRecord_sp (s : State) (r : Nat) (sym : Byte) (c : Code) :
    (s.acceptRecord r sym c).sp = s.sp := rfl
@[simp] theorem State.acceptRecord_snk (s : State) (r : Nat) (sym : Byte) (c : Code) :
    (s.acceptRecord r sym c).snk = s.snk := rfl
@[simp] theorem State.acceptRecord_cfg (s : State) (r : Nat) (sym : Byte) (c : Code) :
    (s.acceptRecord r sym c).cfg = s.cfg := rfl
@[simp] theorem State.acceptRecord_src (s : State) (r : Nat) (sym : Byte) (c : Code) :
    (s.acceptRecord r sym c).src = s.src := rfl
@[simp] theorem State.acceptRecord_host (s : State) (r : Nat) (sym : Byte) (c : Code) :
    (s.acceptRecord r sym c).host = s.host := rfl
@[simp] theorem State.acceptRecord_rdata (s : State) (r : Nat) (sym : Byte) (c : Code) :
    (s.acceptRecord r sym c).rdata = s.rdata := rfl

@[simp] theorem State.attach_phase (s : State) (consumed rest : List Byte) :
    (s.attach consumed rest).phase = s.phase := rfl
@[simp] theorem State.attach_err (s : State) (consumed rest : List Byte) :
    (s.attach consumed rest).err = s.err := rfl
@[simp] theorem State.attach_errInfo (s : State) (consumed rest : List Byte) :
    (s.attach consumed rest).errInfo = s.errInfo := rfl
@[simp] theorem State.attach_nsym (s : State) (consumed rest : List Byte) :
    (s.attach consumed rest).nsym = s.nsym := rfl
@[simp] theorem State.attach_pad (s : State) (consumed rest : List Byte) :
    (s.attach consumed rest).pad = s.pad := rfl
@[simp] theorem State.attach_total (s : State) (consumed rest : List Byte) :
    (s.attach consumed rest).total = s.total := rfl
@[simp] theorem State.attach_ft (s : State) (consumed rest : List Byte) :
    (s.attach consumed rest).ft = s.ft := rfl
@[simp] theorem State.attach_nodes (s : State) (consumed rest : List Byte) :
    (s.attach consumed rest).nodes = s.nodes := rfl
@[simp] theorem State.attach_nnodes (s : State) (consumed rest : List Byte) :
    (s.attach consumed rest).nnodes = s.nnodes := rfl
@[simp] theorem State.attach_root (s : State) (consumed rest : List Byte) :
    (s.attach consumed rest).root = s.root := rfl
@[simp] theorem State.attach_wl (s : State) (consumed rest : List Byte) :
    (s.attach consumed rest).wl = s.wl := rfl
@[simp] theorem State.attach_wlStale (s : State) (consumed rest : List Byte) :
    (s.attach consumed rest).wlStale = s.wlStale := rfl
@[simp] theorem State.attach_ct (s : State) (consumed rest : List Byte) :
    (s.attach consumed rest).ct = s.ct := rfl
@[simp] theorem State.attach_it (s : State) (consumed rest : List Byte) :
    (s.attach consumed rest).it = s.it := rfl
@[simp] theorem State.attach_itN (s : State) (consumed rest : List Byte) :
    (s.attach consumed rest).itN = s.itN := rfl
@[simp] theorem State.attach_acc (s : State) (consumed rest : List Byte) :
    (s.attach consumed rest).acc = s.acc := rfl
@[simp] theorem State.attach_fill (s : State) (consumed rest : List Byte) :
    (s.attach consumed rest).fill = s.fill := rfl
@[simp] theorem State.attach_cand (s : State) (consumed rest : List Byte) :
    (s.attach consumed rest).cand = s.cand := rfl
@[simp] theorem State.attach_candLen (s : State) (consumed rest : List Byte) :
    (s.attach consumed rest).candLen = s.candLen := rfl
@[simp] theorem State.attach_sp (s : State) (consumed rest : List Byte) :
    (s.attach consumed rest).sp = consumed.length := rfl
@[simp] theorem State.attach_snk (s : State) (consumed rest : List Byte) :
    (s.attach consumed rest).snk = s.snk := rfl
@[simp] theorem State.attach_cfg (s : State) (consumed rest : List Byte) :
    (s.attach consumed rest).cfg = s.cfg := rfl
@[simp] theorem State.attach_src (s : State) (consumed rest : List Byte) :
    (s.attach consumed rest).src = consumed ++ rest := rfl
@[simp] theorem State.attach_host (s : State) (consumed rest : List Byte) :
    (s.attach consumed rest).host = s.host := rfl
@[simp] theorem State.attach_rdata (s : State) (consumed rest : List Byte) :
    (s.attach consumed rest).rdata = s.rdata := rfl

@[simp] theorem State.afterReset_phase (s : State) : s.afterReset.phase = State.reset.phase := rfl
@[simp] theorem State.afterReset_err (s : State) : s.afterReset.err = State.reset.err := rfl
@[simp] theorem State.afterReset_errInfo (s : State) :
    s.afterReset.errInfo = State.reset.errInfo := rfl
@[simp] theorem State.afterReset_nsym (s : State) : s.afterReset.nsym = State.reset.nsym := rfl
@[simp] theorem State.afterReset_pad (s : State) : s.afterReset.pad = State.reset.pad := rfl
@[simp] theorem State.afterReset_total (s : State) : s.afterReset.total = State.reset.total := rfl
@[simp] theorem State.afterReset_ft (s : State) : s.afterReset.ft = State.reset.ft := rfl
@[simp] theorem State.afterReset_nodes (s : State) : s.afterReset.nodes = State.reset.nodes := rfl
@[simp] theorem State.afterReset_nnodes (s : State) :
    s.afterReset.nnodes = State.reset.nnodes := rfl
@[simp] theorem State.afterReset_root (s : State) : s.afterReset.root = State.reset.root := rfl
@[simp] theorem State.afterReset_wl (s : State) : s.afterReset.wl = State.reset.wl := rfl
@[simp] theorem State.afterReset_wlStale (s : State) :
    s.afterReset.wlStale = State.reset.wlStale := rfl
@[simp] theorem State.afterReset_ct (s : State) : s.afterReset.ct = State.reset.ct := rfl
@[simp] theorem State.afterReset_it (s : State) : s.afterReset.it = State.reset.it := rfl
@[simp] theorem State.afterReset_itN (s : State) : s.afterReset.itN = State.reset.itN := rfl
@[simp] theorem State.afterReset_acc (s : State) : s.afterReset.acc = State.reset.acc := rfl
@[simp] theorem State.afterReset_fill (s : State) : s.afterReset.fill = State.reset.fill := rfl
@[simp] theorem State.afterReset_cand (s : State) : s.afterReset.cand = State.reset.cand := rfl
@[simp] theorem State.afterReset_candLen (s : State) :
    s.afterReset.candLen = State.reset.candLen := rfl
@[simp] theorem State.afterReset_sp (s : State) : s.afterReset.sp = State.reset.sp := rfl
@[simp] theorem State.afterReset_snk (s : State) : s.afterReset.snk = State.reset.snk := rfl
@[simp] theorem State.afterReset_cfg (s : State) : s.afterReset.cfg = s.cfg := rfl
@[simp] theorem State.afterReset_src (s : State) : s.afterReset.src = s.src := rfl
@[simp] theorem State.afterReset_host (s : State) : s.afterReset.host = s.host := rfl
@[simp] theorem State.afterReset_rdata (s : State) : s.afterReset.rdata = s.rdata := rfl

/-! The reset values (R41). The one of `wlStale` is no `simp` lemma, since `simp` would write its 256
entries out. -/

@[simp] theorem State.reset_phase : State.reset.phase = .idle := rfl
@[simp] theorem State.reset_err : State.reset.err = .noError := rfl
@[simp] theorem State.reset_errInfo : State.reset.errInfo = 0 := rfl
@[simp] theorem State.reset_nsym : State.reset.nsym = 0 := rfl
@[simp] theorem State.reset_pad : State.reset.pad = 0 := rfl
@[simp] theorem State.reset_total : State.reset.total = 0 := rfl
@[simp] theorem State.reset_ft : State.reset.ft = Table.fill 256 0 := rfl
@[simp] theorem State.reset_nodes : State.reset.nodes = Table.fill 511 Node.zero := rfl
@[simp] theorem State.reset_nnodes : State.reset.nnodes = 0 := rfl
@[simp] theorem State.reset_root : State.reset.root = 0 := rfl
@[simp] theorem State.reset_wl : State.reset.wl = [] := rfl
theorem State.reset_wlStale : State.reset.wlStale = List.replicate 256 0 := by rw [State.reset]
@[simp] theorem State.reset_ct : State.reset.ct = Table.fill 256 Code.zero := rfl
@[simp] theorem State.reset_it : State.reset.it = Table.fill 256 Entry.zero := rfl
@[simp] theorem State.reset_itN : State.reset.itN = 0 := rfl
@[simp] theorem State.reset_acc : State.reset.acc = 0 := rfl
@[simp] theorem State.reset_fill : State.reset.fill = 0 := rfl
@[simp] theorem State.reset_cand : State.reset.cand = 0 := rfl
@[simp] theorem State.reset_candLen : State.reset.candLen = 0 := rfl
@[simp] theorem State.reset_sp : State.reset.sp = 0 := rfl
@[simp] theorem State.reset_snk : State.reset.snk = [] := rfl
@[simp] theorem State.reset_cfg : State.reset.cfg = Config.default := rfl
@[simp] theorem State.reset_src : State.reset.src = [] := rfl
@[simp] theorem State.reset_host : State.reset.host = [] := rfl
@[simp] theorem State.reset_rdata : State.reset.rdata = 0 := rfl

end Sys2Proof.Machine
end

