-- ==== Sys2Proof/Laws/Table.lean ====
section
/-! SUPPORT. The register files: reading after writing, the 256 symbols in order, and the frequency and
code tables read along them. -/

namespace Sys2Proof

variable {α : Type} {n : Nat}

@[simp] theorem Table.get_set_self (t : Table α n) (i : Fin n) (v : α) : (t.set i v).get i = v := by
  simp [Table.get, Table.set]

theorem Table.get_set_ne (t : Table α n) {i j : Fin n} (v : α) (h : i ≠ j) :
    (t.set i v).get j = t.get j := by
  have : i.val ≠ j.val := fun e => h (Fin.ext e)
  simp [Table.get, Table.set, List.getElem_set_ne this]

theorem Table.get_set (t : Table α n) (i j : Fin n) (v : α) :
    (t.set i v).get j = if i = j then v else t.get j := by
  split
  · next h => rw [h, Table.get_set_self]
  · next h => exact Table.get_set_ne t v h

@[simp] theorem Table.get_fill (v : α) (i : Fin n) : (Table.fill n v).get i = v := by
  simp [Table.get, Table.fill]

/-- Two files are equal when every entry is. -/
theorem Table.ext_get {t u : Table α n} (h : ∀ i, t.get i = u.get i) : t = u := by
  obtain ⟨c, hc⟩ := t
  obtain ⟨d, hd⟩ := u
  have : c = d := by
    apply List.ext_getElem (by omega)
    intro i h₁ h₂
    exact h ⟨i, by omega⟩
  subst this
  rfl

theorem Table.cells_eq (t : Table α n) : t.cells = (List.finRange n).map t.get := by
  apply List.ext_getElem
  · simp [t.size]
  · intro i h₁ h₂
    simp [Table.get]

@[simp] theorem symIx_inj {b c : Byte} : symIx b = symIx c ↔ b = c := by
  unfold symIx
  constructor
  · intro h
    exact BitVec.eq_of_toNat_eq (by simpa using congrArg Fin.val h)
  · rintro rfl; rfl

theorem symIx_surj (i : Fin 256) : ∃ b, symIx b = i :=
  ⟨BitVec.ofFin i, rfl⟩

end Sys2Proof

namespace Sys2Proof.Machine

theorem symbols_length : symbols.length = 256 := by simp [symbols]

theorem symbols_getElem (i : Nat) (h : i < symbols.length) : symbols[i] = BitVec.ofNat 8 i := by
  simp [symbols]

@[simp] theorem mem_symbols (b : Byte) : b ∈ symbols := by
  simp only [symbols, List.mem_map, List.mem_range]
  exact ⟨b.toNat, b.isLt, by simp⟩

theorem symbols_nodup : symbols.Nodup := by
  refine (List.nodup_range).map_on ?_
  intro i hi j hj h
  have hi := List.mem_range.1 hi
  have hj := List.mem_range.1 hj
  have := congrArg BitVec.toNat h
  simpa [Nat.mod_eq_of_lt hi, Nat.mod_eq_of_lt hj] using this

/-- The symbols stand in ascending unsigned order (R8 `LEAF_ORDER`). -/
theorem symbols_ascending : symbols.Pairwise fun b c => b.toNat < c.toNat := by
  rw [symbols, List.pairwise_map]
  refine List.pairwise_lt_range.imp_of_mem ?_
  intro i j hi hj h
  have hi := List.mem_range.1 hi
  have hj := List.mem_range.1 hj
  simpa [Nat.mod_eq_of_lt hi, Nat.mod_eq_of_lt hj] using h

/-- A 256-entry file read along the symbols. -/
theorem cells_eq_symbols {α : Type} (t : Table α 256) :
    t.cells = symbols.map fun b => t.get (symIx b) := by
  apply List.ext_getElem
  · simp [t.size, symbols_length]
  · intro i h₁ h₂
    have hi : i < 256 := by simpa [t.size] using h₁
    simp only [List.getElem_map, symbols_getElem]
    simp [Table.get, symIx, Nat.mod_eq_of_lt hi]

theorem zip_symbols_cells {α : Type} (t : Table α 256) :
    symbols.zip t.cells = symbols.map fun b => (b, t.get (symIx b)) := by
  rw [cells_eq_symbols t]
  have h : ∀ l : List Byte, l.zip (l.map fun b => t.get (symIx b)) =
      l.map fun b => (b, t.get (symIx b)) := by
    intro l
    induction l with
    | nil => rfl
    | cons b l ih => simp [ih]
  exact h symbols

/-- The entries of the frequency table are the symbols with a count, ascending, each with its count
(R28, R142). -/
theorem counted_eq (s : State) :
    s.counted = (symbols.filter fun b => decide (0 < s.ftAt b)).map fun b => (b, s.ftAt b) := by
  rw [State.counted, zip_symbols_cells, List.filter_map]
  rfl

theorem counted_length (s : State) :
    s.counted.length = (symbols.filter fun b => decide (0 < s.ftAt b)).length := by
  simp [counted_eq]

theorem counted_length_le (s : State) : s.counted.length ≤ 256 := by
  rw [counted_length]
  exact (List.length_filter_le _ _).trans symbols_length.le

theorem mem_counted {s : State} {e : Byte × Nat} :
    e ∈ s.counted ↔ 0 < s.ftAt e.1 ∧ e.2 = s.ftAt e.1 := by
  rw [counted_eq]
  constructor
  · intro h
    obtain ⟨b, hb, rfl⟩ := List.mem_map.1 h
    simpa using (List.mem_filter.1 hb).2
  · rintro ⟨h₁, h₂⟩
    exact List.mem_map.2 ⟨e.1, List.mem_filter.2 ⟨mem_symbols _, by simpa using h₁⟩, by rw [← h₂]⟩

theorem counted_eq_nil {s : State} : s.counted = [] ↔ ∀ b, s.ftAt b = 0 := by
  rw [counted_eq, List.map_eq_nil_iff, List.filter_eq_nil_iff]
  constructor
  · intro h b
    have := h b (mem_symbols b)
    simpa using this
  · intro h b _
    simp [h b]

theorem ft_sum_eq (s : State) : s.ft.cells.sum = (symbols.map s.ftAt).sum := by
  have h : s.ft.cells = symbols.map s.ftAt := cells_eq_symbols s.ft
  rw [h]

theorem encodedBits_eq (s : State) :
    s.encodedBits = (symbols.map fun b => s.ftAt b * (s.ctAt b).len.val).sum := by
  have hf : s.ft.cells = symbols.map s.ftAt := cells_eq_symbols s.ft
  have hc : s.ct.cells = symbols.map s.ctAt := cells_eq_symbols s.ct
  have h : ∀ l : List Byte, List.zipWith (fun n (c : Code) => n * c.len.val) (l.map s.ftAt)
      (l.map s.ctAt) = l.map fun b => s.ftAt b * (s.ctAt b).len.val := by
    intro l
    induction l with
    | nil => rfl
    | cons b l ih => simp only [List.map_cons, List.zipWith_cons_cons, ih]
  rw [State.encodedBits, hf, hc, h]

theorem tableBytes_eq (s : State) :
    s.tableBytes = (symbols.filter fun b => decide (0 < (s.ctAt b).len.val)).flatMap fun b =>
      recordBytes b (s.ctAt b) := by
  rw [State.tableBytes, zip_symbols_cells]
  have h : ∀ l : List Byte, ((l.map fun b => (b, s.ct.get (symIx b))).flatMap fun e =>
      if e.2.len.val = 0 then [] else recordBytes e.1 e.2) =
      (l.filter fun b => decide (0 < (s.ctAt b).len.val)).flatMap fun b =>
        recordBytes b (s.ctAt b) := by
    intro l
    induction l with
    | nil => rfl
    | cons b l ih =>
      rw [List.map_cons, List.flatMap_cons, ih]
      by_cases hb : (s.ctAt b).len.val = 0
      · have : (s.ct.get (symIx b)).len.val = 0 := hb
        rw [if_pos this, List.filter_cons, if_neg (by simp [hb]), List.nil_append]
      · have h' : ¬ (s.ct.get (symIx b)).len.val = 0 := hb
        have : 0 < (s.ctAt b).len.val := Nat.pos_of_ne_zero hb
        rw [if_neg h', List.filter_cons, if_pos (by simpa using this), List.flatMap_cons]
        rfl
  exact h symbols

theorem setFt_ftAt (s : State) (b c : Byte) (n : Nat) :
    (s.setFt b n).ftAt c = if b = c then n else s.ftAt c := by
  simp [State.ftAt, Table.get_set]

theorem setCt_ctAt (s : State) (b c : Byte) (k : Code) :
    (s.setCt b k).ctAt c = if b = c then k else s.ctAt c := by
  simp [State.ctAt, Table.get_set]

theorem setNode_nodeAt (s : State) (i j : NodeIx) (nd : Node) :
    (s.setNode i nd).nodeAt j = if i = j then nd else s.nodeAt j := by
  simp [State.nodeAt, Table.get_set]

end Sys2Proof.Machine
end

