-- ==== Sys2Proof/Laws/Ops.lean ====
section
/-! SUPPORT. What the shared operations can do: sequencing of bodies, loops, the source stream, the
dispatch checks. -/

namespace Sys2Proof.Machine

/-! ### Bodies one after the other -/

@[simp] theorem Run.done_andThen (s : State) (k : State → Run) : (Run.done s).andThen k = k s := rfl

@[simp] theorem Run.raised_andThen (s : State) (k : State → Run) :
    (Run.raised s).andThen k = .raised s := rfl

@[simp] theorem Run.stuck_andThen (f : Fault) (k : State → Run) :
    (Run.stuck f).andThen k = .stuck f := rfl

@[simp] theorem State.raise_eq (s : State) (k : ErrKind) (info : Word) :
    s.raise k info = .raised (s.trap k info) := rfl

@[simp] theorem Run.done_outcome (s : State) : (Run.done s).outcome = .next s := rfl

@[simp] theorem Run.raised_outcome (s : State) : (Run.raised s).outcome = .next s := rfl

@[simp] theorem Run.stuck_outcome (f : Fault) : (Run.stuck f).outcome = .fault f := rfl

theorem Run.andThen_assoc (r : Run) (k l : State → Run) :
    (r.andThen k).andThen l = r.andThen fun s => (k s).andThen l := by
  cases r <;> rfl

/-- A sequence ends in a state only if its first part does, and then its second part from there. -/
theorem Run.andThen_eq_done {r : Run} {k : State → Run} {t : State} :
    r.andThen k = .done t ↔ ∃ s, r = .done s ∧ k s = .done t := by
  cases r <;> simp

/-- A sequence raises in its first part, or in its second part. -/
theorem Run.andThen_eq_raised {r : Run} {k : State → Run} {t : State} :
    r.andThen k = .raised t ↔ r = .raised t ∨ ∃ s, r = .done s ∧ k s = .raised t := by
  cases r <;> simp

theorem Run.andThen_eq_stuck {r : Run} {k : State → Run} {f : Fault} :
    r.andThen k = .stuck f ↔ r = .stuck f ∨ ∃ s, r = .done s ∧ k s = .stuck f := by
  cases r <;> simp

/-- A body leaves a next state exactly when it runs to its end or raises. -/
theorem Run.outcome_eq_next {r : Run} {t : State} :
    r.outcome = .next t ↔ r = .done t ∨ r = .raised t := by
  cases r <;> simp [Run.outcome]

/-- `P` relates the state before a body to the state after it, whether it completed or raised. -/
def Run.Post (r : Run) (P : State → Prop) : Prop :=
  (∀ t, r = .done t → P t) ∧ ∀ t, r = .raised t → P t

theorem Run.post_done {s : State} {P : State → Prop} : (Run.done s).Post P ↔ P s := by
  simp [Run.Post]

theorem Run.post_raised {s : State} {P : State → Prop} : (Run.raised s).Post P ↔ P s := by
  simp [Run.Post]

theorem Run.post_stuck {f : Fault} {P : State → Prop} : (Run.stuck f).Post P := by
  simp [Run.Post]

/-- What holds of every state the first part leaves, and of every state the second part leaves from
there, holds of every state the sequence leaves. -/
theorem Run.post_andThen {r : Run} {k : State → Run} {P Q : State → Prop} (h : r.Post P)
    (hk : ∀ s, P s → (k s).Post Q) (hr : ∀ s, r = .raised s → Q s) : (r.andThen k).Post Q := by
  cases r with
  | done s => exact hk s (h.1 s rfl)
  | raised s => exact Run.post_raised.2 (hr s rfl)
  | stuck f => exact Run.post_stuck

theorem Run.Post.mono {r : Run} {P Q : State → Prop} (h : r.Post P) (hpq : ∀ t, P t → Q t) :
    r.Post Q := ⟨fun t ht => hpq t (h.1 t ht), fun t ht => hpq t (h.2 t ht)⟩

theorem Run.Post.next {r : Run} {P : State → Prop} (h : r.Post P) {t : State}
    (ht : r.outcome = .next t) : P t := by
  rcases Run.outcome_eq_next.1 ht with e | e
  · exact h.1 t e
  · exact h.2 t e

/-! ### Loops -/

variable {α : Type}

@[simp] theorem forEach_nil (body : α → State → Run) (s : State) : forEach body [] s = .done s := rfl

@[simp] theorem forEach_cons (body : α → State → Run) (x : α) (xs : List α) (s : State) :
    forEach body (x :: xs) s = (body x s).andThen (forEach body xs) := rfl

theorem forEach_append (body : α → State → Run) (xs ys : List α) (s : State) :
    forEach body (xs ++ ys) s = (forEach body xs s).andThen (forEach body ys) := by
  induction xs generalizing s with
  | nil => rfl
  | cons x xs ih =>
    rw [List.cons_append, forEach_cons, forEach_cons, Run.andThen_assoc]
    congr 1
    funext t
    exact ih t

/-- A reflexive and transitive relation that every turn of a loop respects, the loop respects. -/
theorem forEach_post {body : α → State → Run} {P : State → State → Prop} (hrefl : ∀ s, P s s)
    (htrans : ∀ s t u, P s t → P t u → P s u) (hbody : ∀ x s, (body x s).Post (P s))
    (xs : List α) (s : State) : (forEach body xs s).Post (P s) := by
  induction xs generalizing s with
  | nil => exact Run.post_done.2 (hrefl s)
  | cons x xs ih =>
    refine Run.post_andThen (hbody x s) (fun t ht => ?_) fun t ht => (hbody x s).2 t ht
    exact ⟨fun u hu => htrans s t u ht ((ih t).1 u hu), fun u hu => htrans s t u ht ((ih t).2 u hu)⟩

theorem forEach_ne_stuck {body : α → State → Run} (h : ∀ x s f, body x s ≠ .stuck f)
    (xs : List α) (s : State) (f : Fault) : forEach body xs s ≠ .stuck f := by
  induction xs generalizing s with
  | nil => simp
  | cons x xs ih =>
    rw [forEach_cons, Ne, Run.andThen_eq_stuck]
    rintro (e | ⟨t, _, e⟩)
    · exact h x s f e
    · exact ih t e

/-! ### The source stream -/

theorem State.srcRemaining_eq (s : State) : s.srcRemaining = s.rest.length := by
  simp [State.srcRemaining, State.srcLen, State.rest]

theorem State.srcByte_eq (s : State) : s.srcByte = s.rest.head? := by
  simp [State.srcByte, State.rest]

theorem State.rest_advance (s : State) : s.advance.rest = s.rest.tail := by
  simp [State.rest]

theorem State.sp_of_rest {s : State} {b : Byte} {bs : List Byte} (h : s.rest = b :: bs) :
    s.sp + (bs.length + 1) = s.srcLen := by
  have := congrArg List.length h
  simp [State.rest, State.srcLen] at *
  omega

/-- Reading `n` bytes where `n` remain: the next `n` bytes in order, and `SP` moves past them (R13). -/
theorem State.srcReads_eq (n : Nat) (s : State) (h : n ≤ s.rest.length) :
    State.srcReads n s = (s.rest.take n, { s with sp := s.sp + n }) := by
  induction n generalizing s with
  | zero => rfl
  | succ n ih =>
    obtain ⟨b, bs, hb⟩ : ∃ b bs, s.rest = b :: bs := by
      cases hr : s.rest with
      | nil => simp [hr] at h
      | cons b bs => exact ⟨b, bs, rfl⟩
    have ht : s.advance.rest = bs := by rw [State.rest_advance, hb]; rfl
    have hlen : n ≤ s.advance.rest.length := by rw [ht]; simpa [hb] using h
    have hbyte : s.srcByte = some b := by rw [State.srcByte_eq, hb]; rfl
    rw [State.srcReads]
    simp only [hbyte]
    rw [ih s.advance hlen, ht, hb]
    simp [State.advance, Nat.add_assoc, Nat.add_comm 1 n]

/-- The loop of FREQ_RUN and PACK_RUN is one turn per remaining source byte, in order, each after the
byte has been read, for a body that leaves the source alone when it completes. -/
theorem drainFor_eq_forEach {body : Byte → State → Run}
    (h : ∀ b s t, body b s = .done t → t.src = s.src ∧ t.sp = s.sp) (s : State) :
    drainFor body s.rest.length s = forEach (fun b t => body b t.advance) s.rest s := by
  generalize hr : s.rest = bs
  induction bs generalizing s with
  | nil => rfl
  | cons b bs ih =>
    have hbyte : s.srcByte = some b := by rw [State.srcByte_eq, hr]; rfl
    simp only [List.length_cons, drainFor, hbyte, forEach_cons]
    cases hb : body b s.advance with
    | raised t => rfl
    | stuck f => rfl
    | done t =>
      simp only [Run.done_andThen]
      refine ih t ?_
      obtain ⟨h₁, h₂⟩ := h _ _ _ hb
      have : s.advance.rest = bs := by rw [State.rest_advance, hr]; rfl
      rw [← this, State.rest, State.rest, h₁, h₂]

theorem drain_eq_forEach {body : Byte → State → Run}
    (h : ∀ b s t, body b s = .done t → t.src = s.src ∧ t.sp = s.sp) (s : State) :
    drain body s = forEach (fun b t => body b t.advance) s.rest s := by
  rw [drain, State.srcRemaining_eq, drainFor_eq_forEach h]

/-! ### Dispatch -/

/-- Every way a command can end: ignored in `FAULT`, refused by the phase, or run. -/
theorem issue_cases (i : Instr) (body : State → Run) (s : State) :
    (s.phase = .fault ∧ runsInFault i = false ∧ issue i body s = .next s) ∨
    (legalIn i s.phase = false ∧ s.phase ≠ .fault ∧
      issue i body s = .next (s.trap .badSequence (encode i))) ∨
    (legalIn i s.phase = true ∧ issue i body s = (body s).outcome) := by
  unfold issue
  by_cases h₁ : s.phase = .fault ∧ runsInFault i = false
  · exact .inl ⟨h₁.1, h₁.2, if_pos h₁⟩
  · rw [if_neg h₁]
    cases h₂ : legalIn i s.phase
    · refine .inr (.inl ⟨rfl, ?_, by simp⟩)
      intro hp
      apply h₁
      refine ⟨hp, ?_⟩
      rw [hp] at h₂
      cases i <;> simp_all [legalIn, runsInFault]
    · exact .inr (.inr ⟨rfl, by simp⟩)

/-- A legal command runs its body. -/
theorem issue_legal {i : Instr} {s : State} (body : State → Run) (h : legalIn i s.phase = true) :
    issue i body s = (body s).outcome := by
  rcases issue_cases i body s with ⟨h₁, h₂, _⟩ | ⟨h₁, _, _⟩ | ⟨_, h₂⟩
  · rw [h₁] at h
    cases i <;> simp_all [legalIn, runsInFault]
  · rw [h] at h₁; cases h₁
  · exact h₂

theorem issue_illegal {i : Instr} {s : State} (body : State → Run) (h : legalIn i s.phase = false)
    (hp : s.phase ≠ .fault) : issue i body s = .next (s.trap .badSequence (encode i)) := by
  rcases issue_cases i body s with ⟨h₁, _, _⟩ | ⟨_, _, h₂⟩ | ⟨h₁, _⟩
  · exact absurd h₁ hp
  · exact h₂
  · rw [h] at h₁; cases h₁

theorem issue_ignored {i : Instr} {s : State} (body : State → Run) (hp : s.phase = .fault)
    (h : runsInFault i = false) : issue i body s = .next s := by
  unfold issue
  rw [if_pos ⟨hp, h⟩]

/-- A relation that trap entry, doing nothing, and the body respect, the command respects. -/
theorem issue_next {i : Instr} {body : State → Run} {s t : State} {P : State → Prop}
    (h : issue i body s = .next t) (hself : P s) (htrap : P (s.trap .badSequence (encode i)))
    (hbody : (body s).Post P) : P t := by
  rcases issue_cases i body s with ⟨_, _, e⟩ | ⟨_, _, e⟩ | ⟨_, e⟩
  · rw [e] at h; cases h; exact hself
  · rw [e] at h; cases h; exact htrap
  · rw [e] at h; exact hbody.next h

end Sys2Proof.Machine
end

