-- ==== Sys2Proof/Laws/Bits.lean ====
section
/-! SUPPORT. Codes as bit-strings and as left-aligned registers (spec/20_memory.md R70), and the bits of
a byte sequence (R68). -/

namespace Sys2Proof.Machine

/-! ### Left-aligned registers -/

theorem Word.ext_msb {w v : Word} (h : ∀ i, i < 16 → w.getMsbD i = v.getMsbD i) : w = v := by
  apply BitVec.eq_of_getMsbD_eq
  intro i hi
  exact h i (by omega)

theorem Byte.ext_msb {w v : Byte} (h : ∀ i, i < 8 → w.getMsbD i = v.getMsbD i) : w = v := by
  apply BitVec.eq_of_getMsbD_eq
  intro i hi
  exact h i (by omega)

/-- Choice `i` of a packed bit-string is bit `15 − i` of its register (R70). -/
theorem leftAlign_getMsbD (c : List Bool) (i : Nat) (hi : i < 16) :
    (leftAlign c).getMsbD i = c.getD i false := by
  induction c generalizing i with
  | nil => simp [leftAlign]
  | cons b c ih =>
    rw [leftAlign, BitVec.getMsbD_or, BitVec.getMsbD_ushiftRight]
    cases i with
    | zero => cases b <;> simp
    | succ i =>
      have hb : (if b then (0x8000 : Word) else 0).getMsbD (i + 1) = false := by
        cases b
        · simp
        · have : ∀ j : Fin 15, (0x8000 : Word).getMsbD (j.val + 1) = false := by decide
          exact this ⟨i, by omega⟩
      rw [hb]
      have : ¬ i + 1 < 1 := by omega
      simp [this, hi, ih i (by omega)]

theorem leftAligned_leftAlign (c : List Bool) (n : Nat) (h : c.length ≤ n) :
    LeftAligned n (leftAlign c) := by
  intro i hi
  by_cases h16 : i < 16
  · rw [leftAlign_getMsbD c i h16]
    have : c.length ≤ i := by omega
    simp [List.getElem?_eq_none this]
  · exact BitVec.getMsbD_of_ge _ _ (by omega)

theorem Code.eq_of {c d : Code} (h : c.len = d.len) (h' : c.bits = d.bits) : c = d := by
  cases c; cases d; simp_all

theorem Code.toBits_length (c : Code) : c.toBits.length = c.len.val := by simp [Code.toBits]

theorem Code.toBits_getElem (c : Code) (i : Nat) (h : i < c.toBits.length) :
    c.toBits[i] = c.bits.getMsbD i := by
  simp [Code.toBits, Code.bit]

theorem Code.ofBits_len {c : List Bool} (h : c.length ≤ 16) : (Code.ofBits c).len.val = c.length := by
  simp [Code.ofBits, Fin.ofNat]; omega

/-- Packing a bit-string of at most 16 choices and reading it back gives it back. -/
theorem Code.toBits_ofBits {c : List Bool} (h : c.length ≤ 16) : (Code.ofBits c).toBits = c := by
  apply List.ext_getElem
  · rw [Code.toBits_length, Code.ofBits_len h]
  · intro i h₁ h₂
    rw [Code.toBits_getElem]
    show (leftAlign c).getMsbD i = _
    rw [leftAlign_getMsbD c i (by omega), List.getD_eq_getElem _ _ h₂]

/-- A left-aligned register is the packing of the bit-string it holds. -/
theorem Code.ofBits_toBits {c : Code} (h : LeftAligned c.len.val c.bits) :
    Code.ofBits c.toBits = c := by
  have hl : c.toBits.length = c.len.val := c.toBits_length
  have hlen : (Code.ofBits c.toBits).len = c.len := by
    apply Fin.ext
    rw [Code.ofBits_len (by omega), hl]
  have hbits : (Code.ofBits c.toBits).bits = c.bits := by
    apply Word.ext_msb
    intro i hi
    show (leftAlign c.toBits).getMsbD i = _
    rw [leftAlign_getMsbD _ i hi]
    by_cases h' : i < c.toBits.length
    · rw [List.getD_eq_getElem _ _ h', Code.toBits_getElem]
    · rw [List.getD_eq_default _ _ (by omega), h i (by omega)]
  exact Code.eq_of hlen hbits

/-- Two left-aligned codes are equal exactly when their bit-strings are (R70). -/
theorem Code.toBits_inj {c d : Code} (hc : LeftAligned c.len.val c.bits)
    (hd : LeftAligned d.len.val d.bits) : c.toBits = d.toBits ↔ c = d :=
  ⟨fun h => by rw [← Code.ofBits_toBits hc, h, Code.ofBits_toBits hd], fun h => h ▸ rfl⟩

theorem Code.ofBits_inj {c d : List Bool} (hc : c.length ≤ 16) (hd : d.length ≤ 16) :
    Code.ofBits c = Code.ofBits d ↔ c = d :=
  ⟨fun h => by rw [← Code.toBits_ofBits hc, h, Code.toBits_ofBits hd], fun h => h ▸ rfl⟩

theorem Code.leftAligned_ofBits {c : List Bool} (h : c.length ≤ 16) :
    LeftAligned (Code.ofBits c).len.val (Code.ofBits c).bits := by
  rw [Code.ofBits_len h]
  exact leftAligned_leftAlign c _ le_rfl

theorem leftAligned_zero (n : Nat) : LeftAligned n 0 := fun i _ => by simp

/-! ### Bits of bytes -/

@[simp] theorem bitsOf_nil : bitsOf [] = [] := rfl

theorem bitsOf_cons (b : Byte) (bs : List Byte) :
    bitsOf (b :: bs) = (List.range 8).map (streamBit b) ++ bitsOf bs := rfl

theorem bitsOf_append (xs ys : List Byte) : bitsOf (xs ++ ys) = bitsOf xs ++ bitsOf ys := by
  simp [bitsOf]

theorem bitsOf_length (bs : List Byte) : (bitsOf bs).length = 8 * bs.length := by
  induction bs with
  | nil => rfl
  | cons b bs ih => rw [bitsOf_cons, List.length_append, ih]; simp; omega

end Sys2Proof.Machine
end

