-- ==== Sys2Proof/Laws/Frames.lean ====
section
/-! SUPPORT. The frame of every body: which fields it can change, whether it completes or raises. Each
is an equation `t = { s with ... }`: every field not named is as it was. -/

namespace Sys2Proof.Machine

/-! ### Frequency analyzer -/

/-- `FT`, `TOTAL`, the phase and the error (R130). -/
def CountFrame (s t : State) : Prop :=
  t = { s with ft := t.ft, total := t.total, phase := t.phase, err := t.err, errInfo := t.errInfo }

/-- The same with `SP` (R131). -/
def CountRunFrame (s t : State) : Prop :=
  t = { s with
    ft := t.ft, total := t.total, sp := t.sp, phase := t.phase, err := t.err, errInfo := t.errInfo }

theorem countSymbol_frame (sym : Byte) (s : State) : (countSymbol sym s).Post (CountFrame s) := by
  unfold countSymbol
  split
  · exact Run.post_raised.2 rfl
  · exact Run.post_done.2 rfl

theorem countSymbol_stream (sym : Byte) (s t : State) (h : countSymbol sym s = .done t) :
    t.src = s.src ∧ t.sp = s.sp := by
  have := (countSymbol_frame sym s).1 t h
  rw [this]
  exact ⟨rfl, rfl⟩

theorem countSource_frame (s : State) : (countSource s).Post (CountRunFrame s) := by
  unfold countSource
  rw [drain_eq_forEach countSymbol_stream]
  have h : (forEach (fun b t => countSymbol b t.advance) s.rest s).Post (CountRunFrame s) := by
    refine forEach_post (P := CountRunFrame) (fun _ => rfl) ?_ ?_ _ _
    · intro a b c hab hbc
      unfold CountRunFrame at *
      rw [hab] at hbc
      exact hbc
    · intro b u
      have hf := countSymbol_frame b u.advance
      have hc : ∀ t, CountFrame u.advance t → CountRunFrame u t := by
        intro t ht
        unfold CountFrame at ht
        unfold CountRunFrame
        conv_lhs => rw [ht]
        rw [ht]
        rfl
      exact ⟨fun t ht => hc t (hf.1 t ht), fun t ht => hc t (hf.2 t ht)⟩
  refine Run.post_andThen h (fun t ht => Run.post_done.2 ?_) h.2
  unfold CountRunFrame at *
  rw [ht]

/-! ### Tree builder -/

/-- The arena, the working list, `ROOT`, `NSYM`, the phase and the error (R140). -/
def TreeFrame (s t : State) : Prop :=
  t = { s with
    nodes := t.nodes, nnodes := t.nnodes, root := t.root, wl := t.wl, wlStale := t.wlStale,
    nsym := t.nsym, phase := t.phase, err := t.err, errInfo := t.errInfo }

theorem TreeFrame.trans {s t u : State} (h : TreeFrame s t) (h' : TreeFrame t u) : TreeFrame s u := by
  unfold TreeFrame at *
  rw [h] at h'
  exact h'

theorem placeLeaves_frame (es : List (Byte × Nat)) (n : Nat) (s : State) :
    placeLeaves es n s = { s with nodes := (placeLeaves es n s).nodes } := by
  induction es generalizing n s with
  | nil => rfl
  | cons e es ih => rw [placeLeaves, ih]; rfl

theorem insertOrdered_frame (x : NodeIx) (s : State) : TreeFrame s (s.insertOrdered x) := rfl

theorem insertLeaves_frame (is : List Nat) (s : State) :
    insertLeaves is s =
      { s with wl := (insertLeaves is s).wl, wlStale := (insertLeaves is s).wlStale } := by
  induction is generalizing s with
  | nil => rfl
  | cons i is ih => rw [insertLeaves, ih]; rfl

theorem mergeFor_frame (n : Nat) (s : State) :
    mergeFor n s = { s with
      nodes := (mergeFor n s).nodes, nnodes := (mergeFor n s).nnodes, wl := (mergeFor n s).wl,
      wlStale := (mergeFor n s).wlStale } := by
  induction n generalizing s with
  | zero => rfl
  | succ n ih =>
    rw [mergeFor]
    split
    · rw [ih]; rfl
    · rfl

theorem buildTree_frame (s : State) : (buildTree s).Post (TreeFrame s) := by
  unfold buildTree
  have hp := placeLeaves_frame s.counted 0 s
  have h1 : TreeFrame s { placeLeaves s.counted 0 s with
      nsym := Fin.ofNat 257 s.counted.length } := by
    unfold TreeFrame
    rw [hp]
  dsimp only
  split
  · exact Run.post_raised.2 (h1.trans rfl)
  · split
    · exact Run.post_raised.2 (h1.trans rfl)
    · refine Run.post_done.2 ?_
      refine h1.trans ?_
      unfold TreeFrame
      rw [mergeFor_frame, insertLeaves_frame]
      rfl

/-! ### Code table generator -/

/-- `CT`, the phase and the error (R160). -/
def CodeFrame (s t : State) : Prop :=
  t = { s with ct := t.ct, phase := t.phase, err := t.err, errInfo := t.errInfo }

theorem CodeFrame.trans {s t u : State} (h : CodeFrame s t) (h' : CodeFrame t u) : CodeFrame s u := by
  unfold CodeFrame at *
  rw [h] at h'
  exact h'

theorem visit_frame (n : Nat) (i : NodeIx) (path : List Bool) (s : State) :
    (visit n i path s).Post (CodeFrame s) := by
  induction n generalizing i path s with
  | zero => exact Run.post_stuck
  | succ n ih =>
    rw [visit]
    split
    · split
      · exact Run.post_raised.2 rfl
      · exact Run.post_done.2 rfl
    · have hl := ih (s.nodeAt i).left (path ++ [false]) s
      refine Run.post_andThen hl (fun t ht => ?_) hl.2
      have hr := ih (s.nodeAt i).right (path ++ [true]) t
      exact ⟨fun u hu => ht.trans (hr.1 u hu), fun u hu => ht.trans (hr.2 u hu)⟩

theorem generateCodes_frame (s : State) : (generateCodes s).Post (CodeFrame s) := by
  have h : (assignCodes s).Post (CodeFrame s) := by
    unfold assignCodes
    split
    · exact Run.post_done.2 rfl
    · exact visit_frame _ _ _ _
  exact Run.post_andThen h (fun t ht => Run.post_done.2 (ht.trans rfl)) h.2

/-! ### Codec framer -/

/-- What DEC_HEADER can change (R172). -/
def ReadFrame (s t : State) : Prop :=
  t = { s with
    pad := t.pad, nsym := t.nsym, it := t.it, itN := t.itN, cand := t.cand, candLen := t.candLen,
    sp := t.sp, phase := t.phase, err := t.err, errInfo := t.errInfo }

theorem ReadFrame.trans {s t u : State} (h : ReadFrame s t) (h' : ReadFrame t u) : ReadFrame s u := by
  unfold ReadFrame at *
  rw [h] at h'
  exact h'

theorem srcReads_frame (n : Nat) (s : State) :
    (State.srcReads n s).2 = { s with sp := (State.srcReads n s).2.sp } := by
  induction n generalizing s with
  | zero => rfl
  | succ n ih =>
    rw [State.srcReads]
    split
    · rfl
    · dsimp only
      rw [ih]
      rfl

theorem readRecord_frame (r : Nat) (s : State) : (readRecord r s).Post (ReadFrame s) := by
  unfold readRecord
  have h1 : ReadFrame s (State.srcReads 17 s).2 := by
    unfold ReadFrame
    rw [srcReads_frame]
  split
  · exact Run.post_raised.2 rfl
  · dsimp only
    split
    · exact Run.post_raised.2 (h1.trans rfl)
    · split
      · exact Run.post_raised.2 (h1.trans rfl)
      · split
        · exact Run.post_raised.2 (h1.trans rfl)
        · exact Run.post_done.2 (h1.trans rfl)

theorem readTable_frame (p c : Byte) (s : State) : (readTable p c s).Post (ReadFrame s) := by
  unfold readTable
  split
  · exact Run.post_raised.2 rfl
  · dsimp only
    have h : ∀ rs u, ReadFrame s u → (forEach readRecord rs u).Post (ReadFrame s) := by
      intro rs u hu
      have := forEach_post (P := ReadFrame) (fun _ => rfl) (fun _ _ _ => ReadFrame.trans)
        readRecord_frame rs u
      exact ⟨fun t ht => hu.trans (this.1 t ht), fun t ht => hu.trans (this.2 t ht)⟩
    have h' := h (List.range (readCountByte c).val)
      { s with pad := Fin.ofNat 8 p.toNat, nsym := readCountByte c } rfl
    exact Run.post_andThen h' (fun t ht => Run.post_done.2 (ht.trans rfl)) h'.2

theorem readHeader_frame (s : State) : (readHeader s).Post (ReadFrame s) := by
  have h1 : ReadFrame s (State.srcReads 2 s).2 := by
    unfold ReadFrame
    rw [srcReads_frame]
  unfold readHeader
  split
  · exact Run.post_raised.2 rfl
  · split
    · next p c s1 hs =>
      rw [hs] at h1
      have := readTable_frame p c s1
      exact ⟨fun t ht => h1.trans (this.1 t ht), fun t ht => h1.trans (this.2 t ht)⟩
    · next s1 _ hs =>
      rw [hs] at h1
      exact Run.post_raised.2 (h1.trans rfl)

/-! ### Bit packer -/

/-- What packing can change: the accumulator and, by appending, the sink; `SP`, the phase and the error
(R201 to R203). -/
def PackFrame (s t : State) : Prop :=
  s.snk <+: t.snk ∧ t = { s with
    snk := t.snk, acc := t.acc, fill := t.fill, sp := t.sp, phase := t.phase, err := t.err,
    errInfo := t.errInfo }

theorem PackFrame.trans {s t u : State} (h : PackFrame s t) (h' : PackFrame t u) : PackFrame s u := by
  refine ⟨h.1.trans h'.1, ?_⟩
  have := h'.2
  rw [h.2] at this
  exact this

theorem PackFrame.refl (s : State) : PackFrame s s := ⟨List.prefix_rfl, rfl⟩

/-- Placing bits leaves everything but the accumulator and the sink alone, and the sink grows (R200). -/
def PutFrame (s t : State) : Prop :=
  s.snk <+: t.snk ∧ t = { s with snk := t.snk, acc := t.acc, fill := t.fill }

theorem putBit_frame (s : State) (b : Bool) : PutFrame s (putBit s b) := by
  unfold putBit
  dsimp only
  split
  · exact ⟨List.prefix_append _ _, rfl⟩
  · exact ⟨List.prefix_rfl, rfl⟩

theorem putBits_frame (bs : List Bool) (s : State) : PutFrame s (bs.foldl putBit s) := by
  induction bs generalizing s with
  | nil => exact ⟨List.prefix_rfl, rfl⟩
  | cons b bs ih =>
    have h := putBit_frame s b
    have h' := ih (putBit s b)
    refine ⟨h.1.trans h'.1, ?_⟩
    have e := h'.2
    rw [h.2] at e
    rw [List.foldl_cons, h.2]
    exact e

theorem packSymbol_frame (sym : Byte) (s : State) :
    (packSymbol sym s).Post fun t => s.snk <+: t.snk ∧ t = { s with
      snk := t.snk, acc := t.acc, fill := t.fill, phase := t.phase, err := t.err,
      errInfo := t.errInfo } := by
  unfold packSymbol
  split
  · exact Run.post_raised.2 ⟨List.prefix_rfl, rfl⟩
  · have h := putBits_frame (s.ctAt sym).toBits s
    exact Run.post_done.2 ⟨h.1, h.2.trans (by rw [h.2])⟩

theorem packSymbol_packFrame (sym : Byte) (s : State) : (packSymbol sym s).Post (PackFrame s) := by
  have h := packSymbol_frame sym s
  constructor
  · intro t ht
    refine ⟨(h.1 t ht).1, ?_⟩
    rw [(h.1 t ht).2]
  · intro t ht
    refine ⟨(h.2 t ht).1, ?_⟩
    rw [(h.2 t ht).2]

theorem packSymbol_stream (sym : Byte) (s t : State) (h : packSymbol sym s = .done t) :
    t.src = s.src ∧ t.sp = s.sp := by
  rw [((packSymbol_frame sym s).1 t h).2]
  exact ⟨rfl, rfl⟩

theorem flush_frame (s : State) :
    (flush s).Post fun t => s.snk <+: t.snk ∧ t = { s with
      snk := t.snk, acc := t.acc, fill := t.fill, phase := t.phase, err := t.err,
      errInfo := t.errInfo } := by
  unfold flush
  dsimp only
  split
  · exact Run.post_done.2 ⟨List.prefix_rfl, rfl⟩
  · exact Run.post_done.2 ⟨List.prefix_append _ _, rfl⟩

theorem packSource_frame (s : State) : (packSource s).Post (PackFrame s) := by
  unfold packSource
  rw [drain_eq_forEach packSymbol_stream]
  refine forEach_post (P := PackFrame) PackFrame.refl (fun _ _ _ => PackFrame.trans) ?_ _ _
  intro b u
  have h := packSymbol_packFrame b u.advance
  have hu : PackFrame u u.advance := ⟨List.prefix_rfl, rfl⟩
  exact ⟨fun t ht => hu.trans (h.1 t ht), fun t ht => hu.trans (h.2 t ht)⟩

/-! ### Bit unpacker -/

/-- What UNPACK_RUN can change (R216). -/
def UnpackFrame (s t : State) : Prop :=
  s.snk <+: t.snk ∧ t = { s with
    snk := t.snk, cand := t.cand, candLen := t.candLen, sp := t.sp, phase := t.phase, err := t.err,
    errInfo := t.errInfo }

theorem UnpackFrame.trans {s t u : State} (h : UnpackFrame s t) (h' : UnpackFrame t u) :
    UnpackFrame s u := by
  refine ⟨h.1.trans h'.1, ?_⟩
  have := h'.2
  rw [h.2] at this
  exact this

theorem UnpackFrame.refl (s : State) : UnpackFrame s s := ⟨List.prefix_rfl, rfl⟩

theorem unpackBit_frame (b : Bool) (s : State) : (unpackBit b s).Post (UnpackFrame s) := by
  unfold unpackBit
  dsimp only
  split
  · exact Run.post_done.2 ⟨List.prefix_append _ _, rfl⟩
  · split
    · exact Run.post_raised.2 ⟨List.prefix_rfl, rfl⟩
    · exact Run.post_done.2 ⟨List.prefix_rfl, rfl⟩

theorem unpackFor_frame (m : Nat) (s : State) : (unpackFor m s).Post (UnpackFrame s) := by
  induction m generalizing s with
  | zero => exact Run.post_done.2 (UnpackFrame.refl s)
  | succ m ih =>
    rw [unpackFor]
    split
    · exact Run.post_done.2 (UnpackFrame.refl s)
    · next b _ =>
      dsimp only
      have hu : UnpackFrame s s.advance := ⟨List.prefix_rfl, rfl⟩
      have h := forEach_post (P := UnpackFrame) UnpackFrame.refl (fun _ _ _ => UnpackFrame.trans)
        unpackBit_frame (payloadBits b (if m = 0 then 8 - s.pad.val else 8)) s.advance
      refine Run.post_andThen (P := UnpackFrame s)
        ⟨fun t ht => hu.trans (h.1 t ht), fun t ht => hu.trans (h.2 t ht)⟩ ?_
        (fun t ht => hu.trans (h.2 t ht))
      intro t ht
      exact ⟨fun u hu' => ht.trans ((ih t).1 u hu'), fun u hu' => ht.trans ((ih t).2 u hu')⟩

theorem unpackPayload_frame (s : State) : (unpackPayload s).Post (UnpackFrame s) := by
  have hc : ∀ t, UnpackFrame s t → (checkCand t).Post (UnpackFrame s) := by
    intro t ht
    unfold checkCand
    split
    · exact Run.post_raised.2 (ht.trans ⟨List.prefix_rfl, rfl⟩)
    · exact Run.post_done.2 ht
  have h : (decodePayload s).Post (UnpackFrame s) := by
    unfold decodePayload
    split
    · split
      · exact Run.post_raised.2 ⟨List.prefix_rfl, rfl⟩
      · exact Run.post_done.2 (UnpackFrame.refl s)
    · exact Run.post_andThen (unpackFor_frame _ s) hc (unpackFor_frame _ s).2
  exact Run.post_andThen h
    (fun t ht => Run.post_done.2 (ht.trans ⟨List.prefix_rfl, rfl⟩)) h.2

end Sys2Proof.Machine
end

