-- ==== Sys2Proof/Laws/Tree.lean ====
section
/-! SUPPORT. The working list and the merge loop of TREE_BUILD (spec/41_tree_builder.md R140 to R146). -/

namespace Sys2Proof.Machine

theorem nodeIx_val {n : Nat} (h : n < 511) : (nodeIx n).val = n := by
  simp [nodeIx, Nat.mod_eq_of_lt h]

theorem nodeIx_of_val (i : NodeIx) : nodeIx i.val = i := Fin.ext (nodeIx_val i.isLt)

theorem nodeIx_inj {a b : Nat} (ha : a < 511) (hb : b < 511) : nodeIx a = nodeIx b ↔ a = b :=
  ⟨fun h => by rw [← nodeIx_val ha, h, nodeIx_val hb], fun h => h ▸ rfl⟩

/-! ### InsertOrdered -/

/-- Where InsertOrdered puts a node: after everything of no greater frequency, before the first entry of
greater frequency (R141). -/
theorem insertOrdered_split (s : State) (x : NodeIx) :
    ∃ front back, s.wl = front ++ back ∧ (s.insertOrdered x).wl = front ++ x :: back ∧
      (∀ k ∈ front, s.freqOf k ≤ s.freqOf x) ∧
      (∀ k, back.head? = some k → s.freqOf x < s.freqOf k) := by
  refine ⟨s.wl.take (s.insertPos x), s.wl.drop (s.insertPos x), (List.take_append_drop _ _).symm,
    rfl, ?_, ?_⟩
  · intro k hk
    obtain ⟨i, hi, rfl⟩ := List.mem_iff_getElem.1 hk
    rw [List.length_take] at hi
    have := List.not_of_lt_findIdx (p := fun k => decide (s.freqOf x < s.freqOf k)) (xs := s.wl)
      (i := i) (by unfold State.insertPos at hi; omega)
    rw [List.getElem_take]
    simpa using this
  · intro k hk
    rw [List.head?_drop] at hk
    obtain ⟨hi, rfl⟩ := List.getElem?_eq_some_iff.1 hk
    have := List.findIdx_getElem (p := fun k => decide (s.freqOf x < s.freqOf k)) (xs := s.wl)
      (w := hi)
    exact of_decide_eq_true this

theorem insertOrdered_perm (s : State) (x : NodeIx) : (s.insertOrdered x).wl.Perm (x :: s.wl) := by
  obtain ⟨front, back, h₁, h₂, _⟩ := insertOrdered_split s x
  rw [h₁, h₂]
  exact List.perm_middle

/-- The relation of R144 is transitive. -/
theorem State.Before.trans {s : State} {i j k : NodeIx} (h : s.Before i j) (h' : s.Before j k) :
    s.Before i k := by
  unfold State.Before at *
  omega

theorem State.Before.freq_le {s : State} {i j : NodeIx} (h : s.Before i j) :
    s.freqOf i ≤ s.freqOf j := by
  unfold State.Before at h
  omega

/-- Inserting the youngest node keeps the list in the order of R144. -/
theorem insertOrdered_sorted (s : State) (x : NodeIx) (hs : s.wl.Pairwise s.Before)
    (hx : ∀ y ∈ s.wl, y.val < x.val) : (s.insertOrdered x).wl.Pairwise s.Before := by
  obtain ⟨front, back, h₁, h₂, h₃, h₄⟩ := insertOrdered_split s x
  rw [h₁] at hs hx
  rw [h₂]
  obtain ⟨hf, hb, hfb⟩ := List.pairwise_append.1 hs
  have hback : ∀ y ∈ back, s.freqOf x < s.freqOf y := by
    cases hc : back with
    | nil => simp
    | cons k back' =>
      rw [hc] at hb
      have hk := h₄ k (by rw [hc]; rfl)
      intro y hy
      rcases List.mem_cons.1 hy with rfl | hy
      · exact hk
      · exact lt_of_lt_of_le hk (List.rel_of_pairwise_cons hb hy).freq_le
  refine List.pairwise_append.2 ⟨hf, List.pairwise_cons.2 ⟨fun y hy => .inl (hback y hy), hb⟩, ?_⟩
  intro y hy z hz
  rcases List.mem_cons.1 hz with rfl | hz
  · have hle := h₃ y hy
    have hlt := hx y (List.mem_append_left _ hy)
    unfold State.Before
    omega
  · exact hfb y hy z hz

/-- The list stays in ascending order of frequency, whatever is inserted (R141). -/
theorem insertOrdered_ascending (s : State) (x : NodeIx)
    (hs : s.wl.Pairwise fun i j => s.freqOf i ≤ s.freqOf j) :
    (s.insertOrdered x).wl.Pairwise fun i j => s.freqOf i ≤ s.freqOf j := by
  obtain ⟨front, back, h₁, h₂, h₃, h₄⟩ := insertOrdered_split s x
  rw [h₁] at hs
  rw [h₂]
  obtain ⟨hf, hb, hfb⟩ := List.pairwise_append.1 hs
  have hback : ∀ y ∈ back, s.freqOf x ≤ s.freqOf y := by
    cases hc : back with
    | nil => simp
    | cons k back' =>
      rw [hc] at hb
      have hk := h₄ k (by rw [hc]; rfl)
      intro y hy
      rcases List.mem_cons.1 hy with rfl | hy
      · exact hk.le
      · exact hk.le.trans (List.rel_of_pairwise_cons hb hy)
  refine List.pairwise_append.2 ⟨hf, List.pairwise_cons.2 ⟨hback, hb⟩, ?_⟩
  intro y hy z hz
  rcases List.mem_cons.1 hz with rfl | hz
  · exact h₃ y hy
  · exact hfb y hy z hz

theorem insertOrdered_nodeAt (s : State) (x i : NodeIx) : (s.insertOrdered x).nodeAt i = s.nodeAt i :=
  rfl

theorem insertOrdered_length (s : State) (x : NodeIx) :
    (s.insertOrdered x).wl.length = s.wl.length + 1 := (insertOrdered_perm s x).length_eq

/-- The file has as many entries as before, if one was free (R32). -/
theorem insertOrdered_size (s : State) (x : NodeIx) (h : s.wlStale ≠ []) :
    (s.insertOrdered x).wl.length + (s.insertOrdered x).wlStale.length =
      s.wl.length + s.wlStale.length := by
  rw [insertOrdered_length]
  simp only [State.insertOrdered_wlStale, List.length_drop]
  have := List.length_pos_iff.2 h
  omega

/-! ### The leaves -/

/-- Where no leaf is placed the arena stays. -/
theorem placeLeaves_nodeAt_of_lt (es : List (Byte × Nat)) (m : Nat) (s : State) (i : NodeIx)
    (hm : m + es.length ≤ 511) (hi : i.val < m ∨ m + es.length ≤ i.val) :
    (placeLeaves es m s).nodeAt i = s.nodeAt i := by
  induction es generalizing m s with
  | nil => rfl
  | cons e es ih =>
    simp only [List.length_cons] at hm hi
    rw [placeLeaves, ih (m + 1) _ (by omega) (by omega), setNode_nodeAt, if_neg]
    intro h
    have := nodeIx_val (n := m) (by omega)
    rw [h] at this
    omega

/-- Leaf `k` of a placed list is node `m + k` (R142). -/
theorem placeLeaves_nodeAt (es : List (Byte × Nat)) (m : Nat) (s : State) (hm : m + es.length ≤ 511)
    (k : Nat) (hk : k < es.length) :
    (placeLeaves es m s).nodeAt (nodeIx (m + k)) = leafOf es[k].1 es[k].2 := by
  induction es generalizing m s k with
  | nil => simp at hk
  | cons e es ih =>
    simp only [List.length_cons] at hm hk
    rw [placeLeaves]
    cases k with
    | zero =>
      rw [placeLeaves_nodeAt_of_lt _ _ _ _ (by omega) (.inl (by rw [nodeIx_val (by omega)]; omega)),
        Nat.add_zero, setNode_nodeAt, if_pos rfl]
      rfl
    | succ k =>
      have := ih (m + 1) (s.setNode (nodeIx m) (leafOf e.1 e.2)) (by omega) k (by omega)
      rw [show m + (k + 1) = m + 1 + k by omega, this]
      rfl

/-- Inserting the leaves `m`, `m + 1`, ... in order into a list of older nodes keeps the order of
R144. -/
theorem insertLeaves_sorted (n m : Nat) (s : State) (hn : m + n ≤ 511)
    (hs : s.wl.Pairwise s.Before) (hlt : ∀ y ∈ s.wl, y.val < m) :
    (insertLeaves (List.range' m n) s).wl.Pairwise s.Before ∧
      (insertLeaves (List.range' m n) s).wl.Perm (s.wl ++ (List.range' m n).map nodeIx) := by
  induction n generalizing m s with
  | zero => exact ⟨hs, by simp [insertLeaves]⟩
  | succ n ih =>
    rw [List.range'_succ, insertLeaves]
    have hv := nodeIx_val (n := m) (by omega)
    have hsort := insertOrdered_sorted s (nodeIx m) hs (fun y hy => by rw [hv]; exact hlt y hy)
    have hperm := insertOrdered_perm s (nodeIx m)
    have := ih (m + 1) (s.insertOrdered (nodeIx m)) (by omega) hsort (by
      intro y hy
      rcases List.mem_cons.1 (hperm.mem_iff.1 hy) with rfl | hy
      · omega
      · exact (hlt y hy).trans (by omega))
    refine ⟨this.1, this.2.trans ?_⟩
    rw [List.map_cons]
    refine (hperm.append_right _).trans ?_
    exact List.perm_middle.symm

theorem insertLeaves_nodeAt (is : List Nat) (s : State) (i : NodeIx) :
    (insertLeaves is s).nodeAt i = s.nodeAt i := by
  rw [insertLeaves_frame]; rfl

theorem insertLeaves_size (is : List Nat) (s : State) (h : is.length ≤ s.wlStale.length) :
    (insertLeaves is s).wl.length + (insertLeaves is s).wlStale.length =
      s.wl.length + s.wlStale.length := by
  induction is generalizing s with
  | nil => rfl
  | cons i is ih =>
    simp only [List.length_cons] at h
    rw [insertLeaves, ih, insertOrdered_size]
    · intro hc; rw [hc] at h; simp at h
    · simp only [State.insertOrdered_wlStale, List.length_drop]; omega

/-! ### The merge loop -/

/-- What holds between two merges of a table of `n` entries: the working list is the set of live nodes in
the order of R144, and the nodes made so far have the properties of R146. -/
structure Merging (n : Nat) (s : State) : Prop where
  pos : 1 ≤ n
  le : n ≤ 256
  nnodesGe : n ≤ s.nnodes.val
  wlPos : 1 ≤ s.wl.length
  count : s.nnodes.val + s.wl.length = 2 * n
  sorted : s.wl.Pairwise s.Before
  alive : (s.childrenOf n s.nnodes.val ++ s.wl).Perm ((List.range s.nnodes.val).map nodeIx)
  internals : ∀ i : NodeIx, n ≤ i.val → i.val < s.nnodes.val →
    (s.nodeAt i).kind = .internal ∧ (s.nodeAt i).sym = 0 ∧
    (s.nodeAt i).left.val < i.val ∧ (s.nodeAt i).right.val < i.val ∧
    (s.nodeAt i).freq = s.freqOf (s.nodeAt i).left + s.freqOf (s.nodeAt i).right
  sum : (s.wl.map s.freqOf).sum = s.ft.cells.sum
  growing : ∀ y : NodeIx, n ≤ y.val → y.val < s.nnodes.val → ∀ a b rest, s.wl = a :: b :: rest →
    s.freqOf y ≤ s.freqOf a + s.freqOf b
  least : ∀ x : NodeIx, n ≤ x.val → x.val < s.nnodes.val →
    ((s.nodeAt x).left.val < x.val ∧ ∀ z : NodeIx, n ≤ z.val → z.val < x.val →
      (s.nodeAt z).left ≠ (s.nodeAt x).left ∧ (s.nodeAt z).right ≠ (s.nodeAt x).left) ∧
    ((s.nodeAt x).right.val < x.val ∧ ∀ z : NodeIx, n ≤ z.val → z.val < x.val →
      (s.nodeAt z).left ≠ (s.nodeAt x).right ∧ (s.nodeAt z).right ≠ (s.nodeAt x).right) ∧
    s.Before (s.nodeAt x).left (s.nodeAt x).right ∧
    (∀ y : NodeIx, (y.val < x.val ∧ ∀ z : NodeIx, n ≤ z.val → z.val < x.val →
      (s.nodeAt z).left ≠ y ∧ (s.nodeAt z).right ≠ y) →
      y ≠ (s.nodeAt x).left → y ≠ (s.nodeAt x).right → s.Before (s.nodeAt x).right y) ∧
    (∀ y : NodeIx, n ≤ y.val → y.val < x.val → s.freqOf y ≤ s.freqOf x)

theorem mem_childrenOf (s : State) (n m : Nat) (hm : m ≤ 511) (y : NodeIx) :
    y ∈ s.childrenOf n m ↔ ∃ z : NodeIx, n ≤ z.val ∧ z.val < m ∧
      ((s.nodeAt z).left = y ∨ (s.nodeAt z).right = y) := by
  simp only [State.childrenOf, List.mem_flatMap, List.mem_range'_1, List.mem_cons, List.not_mem_nil,
    or_false]
  constructor
  · rintro ⟨k, hk, h⟩
    refine ⟨nodeIx k, ?_, ?_, ?_⟩
    · rw [nodeIx_val (by omega)]; omega
    · rw [nodeIx_val (by omega)]; omega
    · exact h.imp Eq.symm Eq.symm
  · rintro ⟨z, h₁, h₂, h⟩
    refine ⟨z.val, by omega, ?_⟩
    rw [nodeIx_of_val]
    exact h.imp Eq.symm Eq.symm

theorem childrenOf_succ (s : State) {n m : Nat} (h : n ≤ m) :
    s.childrenOf n (m + 1) =
      s.childrenOf n m ++ [(s.nodeAt (nodeIx m)).left, (s.nodeAt (nodeIx m)).right] := by
  unfold State.childrenOf
  rw [show m + 1 - n = (m - n) + 1 by omega, List.range'_concat, List.flatMap_append]
  simp [show n + (m - n) = m by omega]

theorem childrenOf_congr {s t : State} {n m : Nat} (h : ∀ k, n ≤ k → k < m →
    s.nodeAt (nodeIx k) = t.nodeAt (nodeIx k)) : s.childrenOf n m = t.childrenOf n m := by
  unfold State.childrenOf
  refine List.flatMap_congr fun k hk => ?_
  rw [List.mem_range'_1] at hk
  rw [h k (by omega) (by omega)]

/-- A node is in the working list exactly when it is live (R144). -/
theorem Merging.mem_wl {n : Nat} {s : State} (h : Merging n s) (hm : s.nnodes.val ≤ 511) (y : NodeIx) :
    y ∈ s.wl ↔ y.val < s.nnodes.val ∧ ∀ z : NodeIx, n ≤ z.val → z.val < s.nnodes.val →
      (s.nodeAt z).left ≠ y ∧ (s.nodeAt z).right ≠ y := by
  have hrange : ∀ y : NodeIx, y ∈ (List.range s.nnodes.val).map nodeIx ↔ y.val < s.nnodes.val := by
    intro y
    simp only [List.mem_map, List.mem_range]
    constructor
    · rintro ⟨k, hk, rfl⟩
      rw [nodeIx_val (by omega)]; exact hk
    · intro hy
      exact ⟨y.val, hy, nodeIx_of_val y⟩
  have hnodup : ((List.range s.nnodes.val).map nodeIx).Nodup := by
    refine List.nodup_range.map_on ?_
    intro a ha b hb e
    rw [List.mem_range] at ha hb
    exact (nodeIx_inj (by omega) (by omega)).1 e
  have hnd := h.alive.nodup_iff.2 hnodup
  rw [List.nodup_append] at hnd
  have hch := mem_childrenOf s n s.nnodes.val hm y
  constructor
  · intro hy
    refine ⟨(hrange y).1 (h.alive.mem_iff.1 (List.mem_append_right _ hy)), fun z hz hz' => ?_⟩
    constructor
    · intro e
      exact hnd.2.2 y (hch.2 ⟨z, hz, hz', .inl e⟩) y hy rfl
    · intro e
      exact hnd.2.2 y (hch.2 ⟨z, hz, hz', .inr e⟩) y hy rfl
  · rintro ⟨hy, hz⟩
    rcases List.mem_append.1 (h.alive.mem_iff.2 ((hrange y).2 hy)) with hc | hw
    · obtain ⟨z, h₁, h₂, h₃⟩ := hch.1 hc
      exact absurd h₃ (not_or.2 (hz z h₁ h₂))
    · exact hw

theorem mergeStep_nnodes (a b : NodeIx) (rest : List NodeIx) (s : State) (h : s.nnodes.val < 511) :
    (mergeStep a b rest s).nnodes.val = s.nnodes.val + 1 := by
  show (Fin.ofNat 512 (s.nnodes.val + 1)).val = _
  simp [Fin.ofNat]; omega

theorem mergeStep_nodeAt (a b : NodeIx) (rest : List NodeIx) (s : State) (i : NodeIx) :
    (mergeStep a b rest s).nodeAt i =
      if nodeIx s.nnodes.val = i then mergedNode s a b else s.nodeAt i := by
  rw [mergeStep]
  dsimp only
  rw [insertOrdered_nodeAt]
  exact setNode_nodeAt _ _ _ _

/-- One merge step (R143). -/
theorem Merging.step {n : Nat} {s : State} (h : Merging n s) {a b : NodeIx} {rest : List NodeIx}
    (hwl : s.wl = a :: b :: rest) : Merging n (mergeStep a b rest s) := by
  have hlen : s.wl.length = rest.length + 2 := by rw [hwl]; rfl
  have hcount := h.count
  have hle := h.le
  have hpos := h.pos
  have hge := h.nnodesGe
  have hnn : s.nnodes.val < 511 := by omega
  have hnn' := mergeStep_nnodes a b rest s hnn
  have hx : (nodeIx s.nnodes.val).val = s.nnodes.val := nodeIx_val hnn
  have hmem := h.mem_wl (by omega)
  have ha := (hmem a).1 (by rw [hwl]; simp)
  have hb := (hmem b).1 (by rw [hwl]; simp)
  -- nodes
  have hold : ∀ i : NodeIx, i.val < s.nnodes.val →
      (mergeStep a b rest s).nodeAt i = s.nodeAt i := by
    intro i hi
    rw [mergeStep_nodeAt, if_neg]
    intro e
    rw [← e, hx] at hi
    omega
  have hnew : (mergeStep a b rest s).nodeAt (nodeIx s.nnodes.val) = mergedNode s a b := by
    rw [mergeStep_nodeAt, if_pos rfl]
  have hfold : ∀ i : NodeIx, i.val < s.nnodes.val →
      (mergeStep a b rest s).freqOf i = s.freqOf i := fun i hi => by
    unfold State.freqOf
    rw [hold i hi]
  have hfnew : (mergeStep a b rest s).freqOf (nodeIx s.nnodes.val) = s.freqOf a + s.freqOf b := by
    unfold State.freqOf
    rw [hnew]
    rfl
  -- the list before the insertion
  let u : State :=
    { ({ s with wl := rest, wlStale := (a :: b :: rest).drop rest.length ++ s.wlStale } : State).setNode
        (nodeIx s.nnodes.val) (mergedNode s a b) with nnodes := Fin.ofNat 512 (s.nnodes.val + 1) }
  have hstep : mergeStep a b rest s = u.insertOrdered (nodeIx s.nnodes.val) := rfl
  have hfu : ∀ i, (mergeStep a b rest s).freqOf i = u.freqOf i := fun _ => rfl
  have hrest : ∀ y ∈ rest, y.val < s.nnodes.val := fun y hy =>
    ((hmem y).1 (by rw [hwl]; simp [hy])).1
  have hs := h.sorted
  rw [hwl] at hs
  obtain ⟨hsa, hs'⟩ := List.pairwise_cons.1 hs
  obtain ⟨hsb, hsr⟩ := List.pairwise_cons.1 hs'
  have hab : s.Before a b := hsa b (by simp)
  have hsu : u.wl.Pairwise u.Before := by
    refine hsr.imp_of_mem ?_
    intro y z hy hz hyz
    unfold State.Before at *
    rw [← hfu y, ← hfu z, hfold y (hrest y hy), hfold z (hrest z hz)]
    exact hyz
  have hsort := insertOrdered_sorted u (nodeIx s.nnodes.val) hsu
    (fun y hy => by rw [hx]; exact hrest y hy)
  have hperm : (mergeStep a b rest s).wl.Perm (nodeIx s.nnodes.val :: rest) :=
    insertOrdered_perm u (nodeIx s.nnodes.val)
  refine
    { pos := hpos, le := hle, nnodesGe := by omega, wlPos := ?_, count := ?_, sorted := ?_,
      alive := ?_, internals := ?_, sum := ?_, growing := ?_, least := ?_ }
  · rw [hperm.length_eq]; simp
  · rw [hnn', hperm.length_eq, List.length_cons]; omega
  · exact hsort
  · rw [hnn', childrenOf_succ _ hge, hnew]
    have hc : (mergeStep a b rest s).childrenOf n s.nnodes.val = s.childrenOf n s.nnodes.val :=
      childrenOf_congr fun k hk hk' => hold _ (by rw [nodeIx_val (by omega)]; exact hk')
    rw [hc, List.range_succ, List.map_append]
    have h1 : (s.childrenOf n s.nnodes.val ++ [a, b] ++ (mergeStep a b rest s).wl).Perm
        (s.childrenOf n s.nnodes.val ++ [a, b] ++ (nodeIx s.nnodes.val :: rest)) :=
      hperm.append_left _
    refine h1.trans ?_
    have h2 := h.alive
    rw [hwl] at h2
    have h3 : (s.childrenOf n s.nnodes.val ++ [a, b] ++ (nodeIx s.nnodes.val :: rest)).Perm
        (nodeIx s.nnodes.val :: (s.childrenOf n s.nnodes.val ++ a :: b :: rest)) := by
      refine List.perm_middle.trans ?_
      simp
    refine h3.trans ((h2.cons _).trans ?_)
    exact (List.perm_append_singleton _ _).symm
  · intro i hi hi'
    rw [hnn'] at hi'
    by_cases hin : i.val = s.nnodes.val
    · have : i = nodeIx s.nnodes.val := Fin.ext (by rw [hx, hin])
      rw [this, hnew]
      refine ⟨rfl, rfl, ?_, ?_, ?_⟩
      · rw [hx]; exact ha.1
      · rw [hx]; exact hb.1
      · show s.freqOf a + s.freqOf b = _
        rw [← hfold a ha.1, ← hfold b hb.1]
        rfl
    · have hi'' : i.val < s.nnodes.val := by omega
      have := h.internals i hi hi''
      rw [hold i hi'', hfold _ (by omega), hfold _ (by omega)]
      exact this
  · have hft : (mergeStep a b rest s).ft = s.ft := rfl
    rw [(hperm.map _).sum_eq, List.map_cons, List.sum_cons, hfnew, hft, ← h.sum, hwl]
    have : rest.map (mergeStep a b rest s).freqOf = rest.map s.freqOf :=
      List.map_congr_left fun y hy => hfold y (hrest y hy)
    rw [this]
    simp
    omega
  · intro y hy hy' a' b' rest' hwl'
    have hmem' : ∀ z ∈ (mergeStep a b rest s).wl, s.freqOf b ≤ (mergeStep a b rest s).freqOf z := by
      intro z hz
      rcases List.mem_cons.1 (hperm.mem_iff.1 hz) with rfl | hz
      · rw [hfnew]; omega
      · rw [hfold z (hrest z hz)]
        exact (hsb z hz).freq_le
    have h1 := hmem' a' (by rw [hwl']; simp)
    have h2 := hmem' b' (by rw [hwl']; simp)
    have h3 := hab.freq_le
    rw [hnn'] at hy'
    by_cases hyn : y.val = s.nnodes.val
    · have : y = nodeIx s.nnodes.val := Fin.ext (by rw [hx, hyn])
      rw [this, hfnew]
      omega
    · rw [hfold y (by omega)]
      have := h.growing y hy (by omega) a b rest hwl
      omega
  · intro x hxn hx'
    rw [hnn'] at hx'
    have hbefore : ∀ y z : NodeIx, y.val < s.nnodes.val → z.val < s.nnodes.val →
        ((mergeStep a b rest s).Before y z ↔ s.Before y z) := by
      intro y z hy hz
      unfold State.Before
      rw [hfold y hy, hfold z hz]
    by_cases hxe : x.val = s.nnodes.val
    · have hxx : x = nodeIx s.nnodes.val := Fin.ext (by rw [hx, hxe])
      subst hxx
      rw [hnew, hx]
      have live : ∀ y : NodeIx, (y.val < s.nnodes.val ∧ ∀ z : NodeIx, n ≤ z.val →
          z.val < s.nnodes.val → ((mergeStep a b rest s).nodeAt z).left ≠ y ∧
            ((mergeStep a b rest s).nodeAt z).right ≠ y) ↔ y ∈ s.wl := by
        intro y
        rw [hmem y]
        refine and_congr_right fun _ => forall_congr' fun z => forall_congr' fun _ =>
          forall_congr' fun hz => ?_
        rw [hold z hz]
      refine ⟨(live a).2 (by rw [hwl]; simp), (live b).2 (by rw [hwl]; simp),
        (hbefore a b ha.1 hb.1).2 hab, ?_, ?_⟩
      · intro y hy hya hyb
        have hy' := (live y).1 hy
        rw [hwl] at hy'
        rcases List.mem_cons.1 hy' with e | hy'
        · exact absurd e hya
        rcases List.mem_cons.1 hy' with e | hy'
        · exact absurd e hyb
        exact (hbefore b y hb.1 hy.1).2 (hsb y hy')
      · intro y hy hy'
        rw [hfnew, hfold y hy']
        exact h.growing y hy hy' a b rest hwl
    · have hxlt : x.val < s.nnodes.val := by omega
      have hl := h.least x hxn hxlt
      have hi := h.internals x hxn hxlt
      rw [hold x hxlt]
      have live : ∀ y : NodeIx, (y.val < x.val ∧ ∀ z : NodeIx, n ≤ z.val →
          z.val < x.val → ((mergeStep a b rest s).nodeAt z).left ≠ y ∧
            ((mergeStep a b rest s).nodeAt z).right ≠ y) ↔
          (y.val < x.val ∧ ∀ z : NodeIx, n ≤ z.val →
          z.val < x.val → (s.nodeAt z).left ≠ y ∧ (s.nodeAt z).right ≠ y) := by
        intro y
        refine and_congr_right fun _ => forall_congr' fun z => forall_congr' fun _ =>
          forall_congr' fun hz => ?_
        rw [hold z (by omega)]
      refine ⟨(live _).2 hl.1, (live _).2 hl.2.1, ?_, ?_, ?_⟩
      · exact (hbefore _ _ (by omega) (by omega)).2 hl.2.2.1
      · intro y hy hya hyb
        exact (hbefore _ _ (by omega) (by omega)).2 (hl.2.2.2.1 y ((live y).1 hy) hya hyb)
      · intro y hy hy'
        rw [hfold y (by omega), hfold x hxlt]
        exact hl.2.2.2.2 y hy hy'

/-- The leaves stay what they were through a merge step. -/
theorem mergeStep_leaf {n : Nat} {s : State} (h : Merging n s) {a b : NodeIx} {rest : List NodeIx}
    (hwl : s.wl = a :: b :: rest) (i : NodeIx) (hi : i.val < n) :
    (mergeStep a b rest s).nodeAt i = s.nodeAt i := by
  have hlen : s.wl.length = rest.length + 2 := by rw [hwl]; rfl
  have := h.count
  have := h.le
  have := h.nnodesGe
  rw [mergeStep_nodeAt, if_neg]
  intro e
  rw [← e, nodeIx_val (by omega)] at hi
  omega

theorem mergeStep_size (a b : NodeIx) (rest : List NodeIx) (s : State) (hwl : s.wl = a :: b :: rest) :
    (mergeStep a b rest s).wl.length + (mergeStep a b rest s).wlStale.length =
      s.wl.length + s.wlStale.length := by
  rw [mergeStep]
  dsimp only
  rw [insertOrdered_size]
  · show rest.length + ((a :: b :: rest).drop rest.length ++ s.wlStale).length = _
    rw [hwl]
    simp only [List.length_append, List.length_drop, List.length_cons]
    omega
  · show (a :: b :: rest).drop rest.length ++ s.wlStale ≠ []
    intro e
    have := congrArg List.length e
    simp only [List.length_append, List.length_drop, List.length_cons, List.length_nil] at this
    omega

/-- The merge loop ends with one node in the list, and everything a merge step keeps still holds. -/
theorem mergeFor_done {n : Nat} (fuel : Nat) (s : State) (h : Merging n s)
    (hf : s.wl.length ≤ fuel + 1) :
    Merging n (mergeFor fuel s) ∧ (mergeFor fuel s).wl.length = 1 ∧
      (∀ i : NodeIx, i.val < n → (mergeFor fuel s).nodeAt i = s.nodeAt i) ∧
      (mergeFor fuel s).wl.length + (mergeFor fuel s).wlStale.length =
        s.wl.length + s.wlStale.length := by
  induction fuel generalizing s with
  | zero => exact ⟨h, by have := h.wlPos; rw [mergeFor]; omega, fun _ _ => rfl, rfl⟩
  | succ fuel ih =>
    rw [mergeFor]
    split
    · next a b rest hwl =>
      have hlen : s.wl.length = rest.length + 2 := by rw [hwl]; rfl
      have h' := h.step hwl
      have hc := h'.count
      have hc' := h.count
      have hn := mergeStep_nnodes a b rest s (by have := h.le; have := h.pos; omega)
      obtain ⟨i₁, i₂, i₃, i₄⟩ := ih (mergeStep a b rest s) h' (by omega)
      refine ⟨i₁, i₂, fun i hi => ?_, ?_⟩
      · rw [i₃ i hi, mergeStep_leaf h hwl i hi]
      · rw [i₄, mergeStep_size a b rest s hwl]
    · next hne =>
      refine ⟨h, ?_, fun _ _ => rfl, rfl⟩
      have hp := h.wlPos
      cases hw : s.wl with
      | nil => rw [hw] at hp; simp at hp
      | cons a l =>
        cases l with
        | nil => rfl
        | cons b rest => exact absurd hw (hne a b rest)

/-! ### TREE_BUILD -/

theorem sum_filter_pos {α : Type} (f : α → Nat) (l : List α) :
    ((l.filter fun a => decide (0 < f a)).map f).sum = (l.map f).sum := by
  induction l with
  | nil => rfl
  | cons a l ih =>
    by_cases h : 0 < f a
    · rw [List.filter_cons, if_pos (by simpa using h)]
      simp [ih]
    · rw [List.filter_cons, if_neg (by simpa using h), ih]
      simp only [List.map_cons, List.sum_cons]
      omega

theorem counted_sum (s : State) : (s.counted.map Prod.snd).sum = s.ft.cells.sum := by
  rw [counted_eq, List.map_map, ft_sum_eq, ← sum_filter_pos s.ftAt symbols]
  rfl

/-- The state in which the merge loop of TREE_BUILD starts (R140). -/
def State.withLeaves (s : State) : State :=
  insertLeaves (List.range s.counted.length)
    { ({ placeLeaves s.counted 0 s with nsym := Fin.ofNat 257 s.counted.length } : State).emptyWl with
      nnodes := Fin.ofNat 512 s.counted.length }

/-- The state a completing TREE_BUILD leaves (R140). -/
def State.withTree (s : State) : State :=
  { mergeFor s.withLeaves.wl.length s.withLeaves with
    root := (mergeFor s.withLeaves.wl.length s.withLeaves).wl.headD 0, phase := .treeReady }

/-- Every way TREE_BUILD can end (R140). -/
theorem buildTree_eq (s : State) :
    (s.counted = [] ∧ buildTree s = .raised ({ s with nsym := 0 }.trap .emptyInput 0)) ∨
    (∃ e, s.counted = [e] ∧ s.cfg.policy = .fault ∧
      buildTree s = .raised ({ s.setNode 0 (leafOf e.1 e.2) with nsym := 1 }.trap
        .singleSymbolInput (zext16 e.1))) ∨
    (s.counted ≠ [] ∧ (s.cfg.policy = .oneBitCode ∨ 2 ≤ s.counted.length) ∧
      buildTree s = .done s.withTree) := by
  cases hc : s.counted with
  | nil =>
    refine .inl ⟨rfl, ?_⟩
    unfold buildTree
    rw [hc]
    rfl
  | cons e es =>
    cases hp : s.cfg.policy with
    | oneBitCode =>
      refine .inr (.inr ⟨by simp, .inl rfl, ?_⟩)
      unfold buildTree
      dsimp only
      rw [if_neg (by simp [hc]), if_neg (by simp [hp])]
      rfl
    | fault =>
      cases es with
      | nil =>
        refine .inr (.inl ⟨e, rfl, rfl, ?_⟩)
        unfold buildTree
        dsimp only
        rw [if_neg (by simp [hc]), if_pos (by simp [hc, hp])]
        rw [hc]
        have : (placeLeaves [e] 0 s) = s.setNode 0 (leafOf e.1 e.2) := rfl
        rw [this]
        have hn : (({ s.setNode 0 (leafOf e.1 e.2) with nsym := Fin.ofNat 257 [e].length } : State).nodeAt
            0).sym = e.1 := by
          show ((s.setNode 0 (leafOf e.1 e.2)).nodeAt 0).sym = e.1
          rw [setNode_nodeAt, if_pos rfl]; rfl
        rw [hn]
        rfl
      | cons e' es =>
        refine .inr (.inr ⟨by simp, .inr (by simp), ?_⟩)
        unfold buildTree
        dsimp only
        rw [if_neg (by simp [hc]), if_neg (by simp [hc])]
        rfl

theorem withLeaves_nodeAt (s : State) (i : NodeIx) :
    s.withLeaves.nodeAt i = (placeLeaves s.counted 0 s).nodeAt i := by
  unfold State.withLeaves
  rw [insertLeaves_nodeAt]
  rfl

theorem withLeaves_leaf (s : State) (k : Nat) (hk : k < s.counted.length) :
    s.withLeaves.nodeAt (nodeIx k) = leafOf s.counted[k].1 s.counted[k].2 := by
  rw [withLeaves_nodeAt]
  have := placeLeaves_nodeAt s.counted 0 s (by have := counted_length_le s; omega) k hk
  rwa [Nat.zero_add] at this

/-- The leaf insertions leave all leaves in the list, in the order of R144 (R142). -/
theorem withLeaves_merging (s : State) (hc : s.counted ≠ []) :
    Merging s.counted.length s.withLeaves := by
  have hle := counted_length_le s
  have hpos : 1 ≤ s.counted.length := List.length_pos_iff.2 hc
  have hframe := insertLeaves_frame (List.range s.counted.length)
    { ({ placeLeaves s.counted 0 s with nsym := Fin.ofNat 257 s.counted.length } : State).emptyWl with
      nnodes := Fin.ofNat 512 s.counted.length }
  have hnn : s.withLeaves.nnodes.val = s.counted.length := by
    unfold State.withLeaves
    rw [hframe]
    simp [Fin.ofNat]; omega
  have hft : s.withLeaves.ft = s.ft := by
    unfold State.withLeaves
    rw [hframe, placeLeaves_frame]
    rfl
  have hins := insertLeaves_sorted s.counted.length 0
    { ({ placeLeaves s.counted 0 s with nsym := Fin.ofNat 257 s.counted.length } : State).emptyWl with
      nnodes := Fin.ofNat 512 s.counted.length } (by omega) (by simp) (by simp)
  rw [← List.range_eq_range'] at hins
  have hperm : s.withLeaves.wl.Perm ((List.range s.counted.length).map nodeIx) := by
    have := hins.2
    rw [State.emptyWl_wl, List.nil_append] at this
    exact this
  have hsort : s.withLeaves.wl.Pairwise s.withLeaves.Before := by
    refine hins.1.imp ?_
    intro a b hab
    have hn : ∀ i, s.withLeaves.freqOf i = State.freqOf
      { ({ placeLeaves s.counted 0 s with nsym := Fin.ofNat 257 s.counted.length } : State).emptyWl with
      nnodes := Fin.ofNat 512 s.counted.length } i := by
      intro i
      unfold State.freqOf State.withLeaves
      rw [insertLeaves_nodeAt]
    unfold State.Before at *
    rw [hn a, hn b]
    exact hab
  have hlen : s.withLeaves.wl.length = s.counted.length := by
    rw [hperm.length_eq]; simp
  exact
    { pos := hpos
      le := hle
      nnodesGe := hnn.ge
      wlPos := by omega
      count := by omega
      sorted := hsort
      alive := by
        rw [hnn]
        simpa [State.childrenOf] using hperm
      internals := fun i hi hi' => by omega
      sum := by
        rw [(hperm.map _).sum_eq, hft, ← counted_sum, List.map_map]
        congr 1
        apply List.ext_getElem
        · simp
        · intro k h₁ h₂
          have hk : k < s.counted.length := by simpa using h₁
          simp only [List.getElem_map, List.getElem_range, Function.comp]
          unfold State.freqOf
          rw [withLeaves_leaf s k hk]
          rfl
      growing := fun y hy hy' => by omega
      least := fun x hx hx' => by omega }

/-- What a completing TREE_BUILD leaves: a finished merge loop, whose leaves are the entries of the
table (R146). -/
theorem withTree_spec (s : State) (hc : s.counted ≠ []) :
    Merging s.counted.length s.withTree ∧ s.withTree.wl.length = 1 ∧
      (∀ k (hk : k < s.counted.length),
        s.withTree.nodeAt (nodeIx k) = leafOf s.counted[k].1 s.counted[k].2) ∧
      s.withTree.nsym.val = s.counted.length ∧ s.withTree.wl = [s.withTree.root] := by
  have hm := withLeaves_merging s hc
  have hle := counted_length_le s
  obtain ⟨h₁, h₂, h₃, h₄⟩ := mergeFor_done s.withLeaves.wl.length s.withLeaves hm (by omega)
  refine ⟨?_, h₂, fun k hk => ?_, ?_, ?_⟩
  · exact
      { pos := h₁.pos, le := h₁.le, nnodesGe := h₁.nnodesGe, wlPos := h₁.wlPos, count := h₁.count,
        sorted := h₁.sorted, alive := h₁.alive, internals := h₁.internals, sum := h₁.sum,
        growing := h₁.growing, least := h₁.least }
  · have := h₃ (nodeIx k) (by rw [nodeIx_val (by omega)]; exact hk)
    show (mergeFor _ _).nodeAt _ = _
    rw [this, withLeaves_leaf s k hk]
  · show (mergeFor s.withLeaves.wl.length s.withLeaves).nsym.val = _
    rw [mergeFor_frame]
    show s.withLeaves.nsym.val = _
    unfold State.withLeaves
    rw [insertLeaves_frame]
    simp [Fin.ofNat]; omega
  · show (mergeFor s.withLeaves.wl.length s.withLeaves).wl = [List.headD _ 0]
    cases hw : (mergeFor s.withLeaves.wl.length s.withLeaves).wl with
    | nil => rw [hw] at h₂; simp at h₂
    | cons a l =>
      rw [hw] at h₂
      have : l = [] := by simpa using h₂
      rw [this]; rfl

theorem withTree_frame (s : State) : s.withTree = { s with
    nodes := s.withTree.nodes, nnodes := s.withTree.nnodes, root := s.withTree.root,
    wl := s.withTree.wl, wlStale := s.withTree.wlStale, nsym := s.withTree.nsym,
    phase := .treeReady } := by
  unfold State.withTree
  rw [mergeFor_frame]
  unfold State.withLeaves
  rw [insertLeaves_frame, placeLeaves_frame]
  rfl

theorem withTree_counted (s : State) : s.withTree.counted = s.counted := by
  rw [withTree_frame]; rfl

theorem withTree_size (s : State) (hc : s.counted ≠ []) (h : s.wl.length + s.wlStale.length = 256) :
    s.withTree.wl.length + s.withTree.wlStale.length = 256 := by
  have hm := withLeaves_merging s hc
  obtain ⟨_, _, _, h₄⟩ := mergeFor_done s.withLeaves.wl.length s.withLeaves hm (by omega)
  have hw : (placeLeaves s.counted 0 s).wl = s.wl := by rw [placeLeaves_frame]
  have hst : (placeLeaves s.counted 0 s).wlStale = s.wlStale := by rw [placeLeaves_frame]
  show (mergeFor _ _).wl.length + (mergeFor _ _).wlStale.length = _
  rw [h₄]
  unfold State.withLeaves
  rw [insertLeaves_size]
  · show ([] : List NodeIx).length + ((placeLeaves s.counted 0 s).wl ++
      (placeLeaves s.counted 0 s).wlStale).length = _
    rw [hw, hst]
    simp; omega
  · show _ ≤ ((placeLeaves s.counted 0 s).wl ++ (placeLeaves s.counted 0 s).wlStale).length
    rw [hw, hst]
    have := counted_length_le s
    simp; omega

/-- The invariants of R146 after a completing TREE_BUILD. -/
theorem withTree_treeOk (s : State) (hc : s.counted ≠ []) : s.withTree.TreeOk := by
  obtain ⟨hm, hlen, hleaf, hn, hwl⟩ := withTree_spec s hc
  have hpos := hm.pos
  have hle := hm.le
  have hcount := hm.count
  have hnn : s.withTree.nnodes.val = 2 * s.counted.length - 1 := by omega
  have hroot : s.withTree.root.val = 2 * s.counted.length - 2 := by
    by_contra hne
    have hlive := (hm.mem_wl (by omega) s.withTree.root).1 (by rw [hwl]; simp)
    -- the last node is in the list, and the list has one entry
    have hlast : nodeIx (2 * s.counted.length - 2) ∈ s.withTree.wl := by
      refine (hm.mem_wl (by omega) _).2 ⟨by rw [nodeIx_val (by omega)]; omega, fun z hz hz' => ?_⟩
      have := hm.internals z hz hz'
      constructor
      · intro e
        have := congrArg Fin.val e
        rw [nodeIx_val (by omega)] at this
        omega
      · intro e
        have := congrArg Fin.val e
        rw [nodeIx_val (by omega)] at this
        omega
    rw [hwl, List.mem_singleton] at hlast
    rw [← hlast, nodeIx_val (by omega)] at hne
    exact hne rfl
  exact
    { nsymPos := by omega
      nnodesEq := by omega
      rootEq := by omega
      wlEq := hwl
      leavesEq := by
        rw [hn, withTree_counted]
        apply List.ext_getElem
        · simp
        · intro k h₁ h₂
          have hk : k < s.counted.length := by simpa using h₁
          simp only [List.getElem_map, List.getElem_range]
          exact hleaf k hk
      internals := by rw [hn]; exact hm.internals
      oneParent := by
        rw [hn]
        have ha := hm.alive
        rw [hwl] at ha
        have hr : List.range s.withTree.nnodes.val =
            List.range s.withTree.root.val ++ [s.withTree.root.val] := by
          rw [hnn, hroot, ← List.range_succ]
          congr 1; omega
        rw [hr, List.map_append, List.map_singleton, nodeIx_of_val] at ha
        exact (List.perm_append_right_iff _).1 ha
      rootFreq := by
        have := hm.sum
        rw [hwl] at this
        simpa using this }

end Sys2Proof.Machine
end

