-- ==== Sys2Proof/Laws/CodeTable.lean ====
section
/-! SUPPORT. The traversal of CODE_GEN: it is a loop over the leaves, left before right, and on a tree of
R146 the leaves are the symbols with a count, each on one path (spec/42_code_table_generator.md R161 to
R164). -/

namespace Sys2Proof.Machine

/-- One leaf of the traversal: its path from the root, and its node. -/
abbrev LeafAt := List Bool × NodeIx

/-- The leaves under node `i`, left before right, with their paths (R161). -/
def State.leavesOf (s : State) : Nat → NodeIx → List Bool → List LeafAt
  | 0, _, _ => []
  | fuel + 1, i, path =>
    match (s.nodeAt i).kind with
    | .leaf => [(path, i)]
    | .internal =>
      s.leavesOf fuel (s.nodeAt i).left (path ++ [false]) ++
        s.leavesOf fuel (s.nodeAt i).right (path ++ [true])

/-- What the traversal does at a leaf (R161). -/
def assignLeaf (l : LeafAt) (s : State) : Run :=
  if 16 < l.1.length then s.raise .codeTooLong (zext16 (s.nodeAt l.2).sym)
  else .done (s.setCt (s.nodeAt l.2).sym (Code.ofBits l.1))

/-- The children of an Internal have smaller numbers (R146 item 3). -/
def State.Descending (s : State) : Prop :=
  ∀ i : NodeIx, (s.nodeAt i).kind = .internal →
    (s.nodeAt i).left.val < i.val ∧ (s.nodeAt i).right.val < i.val

/-- The same for the nodes up to `m`. -/
def State.DescendingTo (s : State) (m : Nat) : Prop :=
  ∀ i : NodeIx, i.val ≤ m → (s.nodeAt i).kind = .internal →
    (s.nodeAt i).left.val < i.val ∧ (s.nodeAt i).right.val < i.val

theorem assignLeaf_nodes {l : LeafAt} {s t : State} (h : assignLeaf l s = .done t) (i : NodeIx) :
    t.nodeAt i = s.nodeAt i := by
  unfold assignLeaf at h
  split at h
  · cases h
  · cases h; rfl

theorem assignAll_nodes {ls : List LeafAt} {s t : State} (h : forEach assignLeaf ls s = .done t)
    (i : NodeIx) : t.nodeAt i = s.nodeAt i := by
  induction ls generalizing s with
  | nil => cases h; rfl
  | cons l ls ih =>
    obtain ⟨u, hu, hu'⟩ := Run.andThen_eq_done.1 h
    rw [ih hu', assignLeaf_nodes hu]

theorem leavesOf_congr {s t : State} (h : ∀ i, t.nodeAt i = s.nodeAt i) (fuel : Nat) (i : NodeIx)
    (path : List Bool) : t.leavesOf fuel i path = s.leavesOf fuel i path := by
  induction fuel generalizing i path with
  | zero => rfl
  | succ fuel ih =>
    rw [State.leavesOf, State.leavesOf, h i]
    split
    · rfl
    · rw [ih, ih]

/-- The traversal is a loop over the leaves (R161), and never goes round in a circle where children have
smaller numbers. -/
theorem visit_eq (fuel : Nat) (i : NodeIx) (path : List Bool) (s : State) (hf : i.val < fuel)
    (hd : s.DescendingTo i.val) :
    visit fuel i path s = forEach assignLeaf (s.leavesOf fuel i path) s := by
  induction fuel generalizing i path s with
  | zero => omega
  | succ fuel ih =>
    rw [visit, State.leavesOf]
    cases hk : (s.nodeAt i).kind with
    | leaf =>
      simp only [forEach_cons, assignLeaf]
      split
      · rfl
      · rfl
    | internal =>
      obtain ⟨hl, hr⟩ := hd i le_rfl hk
      have hdl : s.DescendingTo (s.nodeAt i).left.val := fun j hj => hd j (by omega)
      have hdr : s.DescendingTo (s.nodeAt i).right.val := fun j hj => hd j (by omega)
      simp only
      rw [forEach_append, ih _ _ _ (by omega) hdl]
      cases hrun : forEach assignLeaf (s.leavesOf fuel (s.nodeAt i).left (path ++ [false])) s with
      | raised t => rfl
      | stuck f => rfl
      | done t =>
        have hn := assignAll_nodes hrun
        simp only [Run.done_andThen]
        rw [ih _ _ _ (by omega) (fun j hj hk => by rw [hn] at hk ⊢; exact hdr j hj hk),
          leavesOf_congr hn]

theorem walk_append (s : State) (i : NodeIx) (p q : List Bool) :
    s.walk i (p ++ q) = (s.walk i p).bind fun j => s.walk j q := by
  induction p generalizing i with
  | nil => rfl
  | cons b p ih =>
    rw [List.cons_append, State.walk, State.walk]
    split
    · rfl
    · exact ih _

/-- The leaves the traversal meets are those a path leads to. -/
theorem mem_leavesOf (s : State) (fuel : Nat) (i : NodeIx) (path : List Bool) (hf : i.val < fuel)
    (hd : s.DescendingTo i.val) (p : List Bool) (j : NodeIx) :
    (p, j) ∈ s.leavesOf fuel i path ↔
      ∃ q, p = path ++ q ∧ s.walk i q = some j ∧ (s.nodeAt j).kind = .leaf := by
  induction fuel generalizing i path with
  | zero => omega
  | succ fuel ih =>
    rw [State.leavesOf]
    cases hk : (s.nodeAt i).kind with
    | leaf =>
      simp only [List.mem_singleton, Prod.mk.injEq]
      constructor
      · rintro ⟨rfl, rfl⟩
        exact ⟨[], by simp, rfl, hk⟩
      · rintro ⟨q, rfl, hw, hl⟩
        cases q with
        | nil =>
          simp only [State.walk, Option.some.injEq] at hw
          exact ⟨by simp, hw.symm⟩
        | cons b q => simp [State.walk, hk] at hw
    | internal =>
      obtain ⟨hl, hr⟩ := hd i le_rfl hk
      have hdl : s.DescendingTo (s.nodeAt i).left.val := fun j hj => hd j (by omega)
      have hdr : s.DescendingTo (s.nodeAt i).right.val := fun j hj => hd j (by omega)
      simp only
      rw [List.mem_append, ih _ _ (by omega) hdl, ih _ _ (by omega) hdr]
      constructor
      · rintro (⟨q, rfl, hw, hlf⟩ | ⟨q, rfl, hw, hlf⟩)
        · exact ⟨false :: q, by simp, by simpa [State.walk, hk] using hw, hlf⟩
        · exact ⟨true :: q, by simp, by simpa [State.walk, hk] using hw, hlf⟩
      · rintro ⟨q, rfl, hw, hlf⟩
        cases q with
        | nil =>
          simp only [State.walk, Option.some.injEq] at hw
          rw [← hw, hk] at hlf; cases hlf
        | cons b q =>
          cases b with
          | false => exact .inl ⟨q, by simp, by simpa [State.walk, hk] using hw, hlf⟩
          | true => exact .inr ⟨q, by simp, by simpa [State.walk, hk] using hw, hlf⟩

theorem leavesOf_append (s : State) (fuel : Nat) (i : NodeIx) (path : List Bool) (l : LeafAt)
    (h : l ∈ s.leavesOf fuel i path) : ∃ q, l.1 = path ++ q := by
  induction fuel generalizing i path with
  | zero => simp [State.leavesOf] at h
  | succ fuel ih =>
    rw [State.leavesOf] at h
    split at h
    · rw [List.mem_singleton] at h
      exact ⟨[], by simp [h]⟩
    · rcases List.mem_append.1 h with h | h
      · obtain ⟨q, hq⟩ := ih _ _ h
        exact ⟨false :: q, by simp [hq]⟩
      · obtain ⟨q, hq⟩ := ih _ _ h
        exact ⟨true :: q, by simp [hq]⟩

theorem append_lt_append_left (p : List Bool) {a b : List Bool} (h : a < b) : p ++ a < p ++ b := by
  induction p with
  | nil => exact h
  | cons c p ih => exact List.cons_lt_cons_iff.2 (.inr ⟨rfl, ih⟩)

/-- The traversal meets the leaves in the lexicographic order of their paths, none of which is a prefix
of another. -/
theorem leavesOf_sorted (s : State) (fuel : Nat) (i : NodeIx) (path : List Bool) :
    (s.leavesOf fuel i path).Pairwise fun k l => k.1 < l.1 ∧ Incomparable k.1 l.1 := by
  induction fuel generalizing i path with
  | zero => simp [State.leavesOf]
  | succ fuel ih =>
    rw [State.leavesOf]
    split
    · simp
    · refine List.pairwise_append.2 ⟨ih _ _, ih _ _, fun k hk l hl => ?_⟩
      obtain ⟨q, hq⟩ := leavesOf_append s _ _ _ k hk
      obtain ⟨r, hr⟩ := leavesOf_append s _ _ _ l hl
      rw [hq, hr, List.append_assoc, List.append_assoc]
      refine ⟨append_lt_append_left _ (List.cons_lt_cons_iff.2 (.inl (by simp))), ?_, ?_⟩
      · rw [List.prefix_append_right_inj]; simp
      · rw [List.prefix_append_right_inj]; simp

/-- The leaves under a node at depth `d` fill a share `2^(−d)` of the code space, if none is deeper than
16 (R163 item 5). -/
theorem leavesOf_kraft (s : State) (fuel : Nat) (i : NodeIx) (path : List Bool) (hf : i.val < fuel)
    (hd : s.DescendingTo i.val) (h16 : ∀ l ∈ s.leavesOf fuel i path, l.1.length ≤ 16) :
    path.length ≤ 16 ∧
      ((s.leavesOf fuel i path).map fun l => 2 ^ (16 - l.1.length)).sum = 2 ^ (16 - path.length) := by
  induction fuel generalizing i path with
  | zero => omega
  | succ fuel ih =>
    rw [State.leavesOf] at h16 ⊢
    cases hk : (s.nodeAt i).kind with
    | leaf =>
      simp only [hk] at h16 ⊢
      exact ⟨by simpa using h16, by simp⟩
    | internal =>
      obtain ⟨hl, hr⟩ := hd i le_rfl hk
      have hdl : s.DescendingTo (s.nodeAt i).left.val := fun j hj => hd j (by omega)
      have hdr : s.DescendingTo (s.nodeAt i).right.val := fun j hj => hd j (by omega)
      simp only [hk] at h16 ⊢
      obtain ⟨h₁, e₁⟩ := ih _ _ (by omega) hdl fun l hl => h16 l (List.mem_append_left _ hl)
      obtain ⟨_, e₂⟩ := ih _ _ (by omega) hdr fun l hl => h16 l (List.mem_append_right _ hl)
      rw [List.map_append, List.sum_append, e₁, e₂]
      simp only [List.length_append, List.length_singleton] at h₁ ⊢
      refine ⟨by omega, ?_⟩
      rw [show 16 - path.length = (16 - (path.length + 1)) + 1 by omega, pow_succ]
      omega

/-! ### The loop over the leaves -/

/-- Where no leaf is too deep every leaf gets its path as its code (R161). -/
theorem assignAll_done (ls : List LeafAt) (s : State) (h16 : ∀ l ∈ ls, l.1.length ≤ 16)
    (hn : (ls.map fun l => (s.nodeAt l.2).sym).Nodup) :
    ∃ t, forEach assignLeaf ls s = .done t ∧
      (∀ l ∈ ls, t.ctAt (s.nodeAt l.2).sym = Code.ofBits l.1) ∧
      (∀ b, (∀ l ∈ ls, (s.nodeAt l.2).sym ≠ b) → t.ctAt b = s.ctAt b) ∧
      t = { s with ct := t.ct } := by
  induction ls generalizing s with
  | nil => exact ⟨s, rfl, by simp, fun _ _ => rfl, rfl⟩
  | cons l ls ih =>
    rw [List.map_cons, List.nodup_cons] at hn
    have hl : ¬ 16 < l.1.length := by have := h16 l (by simp); omega
    obtain ⟨t, h₁, h₂, h₃, h₄⟩ := ih (s.setCt (s.nodeAt l.2).sym (Code.ofBits l.1))
      (fun k hk => h16 k (by simp [hk])) hn.2
    refine ⟨t, ?_, ?_, ?_, ?_⟩
    · rw [forEach_cons, assignLeaf, if_neg hl]
      exact h₁
    · intro k hk
      rcases List.mem_cons.1 hk with rfl | hk
      · rw [h₃ _ (fun k' hk' e => hn.1 (List.mem_map.2 ⟨k', hk', e⟩)), setCt_ctAt, if_pos rfl]
      · exact h₂ k hk
    · intro b hb
      rw [h₃ b fun k hk => hb k (by simp [hk]), setCt_ctAt, if_neg (hb l (by simp))]
    · rw [h₄]; rfl

/-- The first leaf that is too deep raises, and no leaf after it is visited (R164). -/
theorem assignAll_raised (ls ms : List LeafAt) (l : LeafAt) (s : State)
    (h16 : ∀ k ∈ ls, k.1.length ≤ 16) (hl : 16 < l.1.length) :
    ∃ t, forEach assignLeaf (ls ++ l :: ms) s = .raised t ∧
      t = { s with
        ct := t.ct, err := .codeTooLong, errInfo := zext16 (s.nodeAt l.2).sym, phase := .fault } := by
  induction ls generalizing s with
  | nil =>
    refine ⟨s.trap .codeTooLong (zext16 (s.nodeAt l.2).sym), ?_, rfl⟩
    rw [List.nil_append, forEach_cons, assignLeaf, if_pos hl]
    rfl
  | cons k ls ih =>
    have hk : ¬ 16 < k.1.length := by have := h16 k (by simp); omega
    obtain ⟨t, h₁, h₂⟩ := ih (s.setCt (s.nodeAt k.2).sym (Code.ofBits k.1))
      fun k' hk' => h16 k' (by simp [hk'])
    refine ⟨t, ?_, ?_⟩
    · rw [List.cons_append, forEach_cons, assignLeaf, if_neg hk]
      exact h₁
    · rw [h₂]; rfl

/-! ### Paths in a tree of R146 -/

theorem State.TreeOk.leaf {s : State} (h : s.TreeOk) {i : NodeIx} (hi : i.val < s.nsym.val) :
    ∃ hk : i.val < s.counted.length,
      s.nodeAt i = leafOf s.counted[i.val].1 s.counted[i.val].2 := by
  have hlen := congrArg List.length h.leavesEq
  simp only [List.length_map, List.length_range] at hlen
  refine ⟨by omega, ?_⟩
  have := List.getElem_of_eq h.leavesEq (i := i.val) (by simpa using hi)
  simpa [nodeIx_of_val] using this

theorem State.TreeOk.counted_length {s : State} (h : s.TreeOk) : s.counted.length = s.nsym.val := by
  have hlen := congrArg List.length h.leavesEq
  simpa using hlen.symm

theorem State.TreeOk.kind_leaf_iff {s : State} (h : s.TreeOk) {i : NodeIx}
    (hi : i.val < s.nnodes.val) : (s.nodeAt i).kind = .leaf ↔ i.val < s.nsym.val := by
  constructor
  · intro hk
    by_contra hlt
    have := (h.internals i (by omega) hi).1
    rw [hk] at this; cases this
  · intro hlt
    obtain ⟨_, e⟩ := h.leaf hlt
    rw [e]; rfl

theorem State.TreeOk.descending {s : State} (h : s.TreeOk) : s.DescendingTo s.root.val := by
  intro i hi hk
  have hr := h.rootEq
  have hn := h.nnodesEq
  have hp := h.nsymPos
  have hge : s.nsym.val ≤ i.val := by
    by_contra hlt
    obtain ⟨_, e⟩ := h.leaf (i := i) (by omega)
    rw [e] at hk; cases hk
  have := h.internals i hge (by omega)
  exact ⟨this.2.2.1, this.2.2.2.1⟩

/-- The child of an Internal on one side. -/
def State.child (s : State) (z : NodeIx) (b : Bool) : NodeIx :=
  if b then (s.nodeAt z).right else (s.nodeAt z).left

theorem walk_cons_internal {s : State} {z : NodeIx} (hk : (s.nodeAt z).kind = .internal) (b : Bool)
    (p : List Bool) : s.walk z (b :: p) = s.walk (s.child z b) p := by
  rw [State.walk, hk]
  rfl

theorem walk_snoc {s : State} {i j : NodeIx} {p : List Bool} {b : Bool} :
    s.walk i (p ++ [b]) = some j ↔
      ∃ z, s.walk i p = some z ∧ (s.nodeAt z).kind = .internal ∧ s.child z b = j := by
  rw [walk_append]
  cases hw : s.walk i p with
  | none => simp
  | some z =>
    simp only [Option.bind_some, Option.some.injEq, exists_eq_left']
    rw [State.walk]
    cases hk : (s.nodeAt z).kind with
    | leaf => simp
    | internal => simp [State.walk, State.child]

/-- A walk goes down. -/
theorem State.TreeOk.walk_le {s : State} (h : s.TreeOk) {p : List Bool} {j : NodeIx}
    (hw : s.walk s.root p = some j) : j.val + p.length ≤ s.root.val := by
  induction p using List.reverseRecOn generalizing j with
  | nil => simp only [State.walk, Option.some.injEq] at hw; rw [hw]; simp
  | append_singleton p b ih =>
    obtain ⟨z, hz, hk, rfl⟩ := walk_snoc.1 hw
    have := ih hz
    have hd := h.descending z (by omega) hk
    rw [List.length_append, List.length_singleton]
    unfold State.child
    split <;> omega

/-- A code has fewer choices than there are symbols: every node above a Leaf is an Internal, and there is
one Internal less than there are Leaves (R146, R163). -/
theorem State.TreeOk.leafPath_length {s : State} (h : s.TreeOk) {p : List Bool} {i : NodeIx}
    (hp : s.LeafPath p i) : p.length + 1 ≤ s.nsym.val := by
  have hpos := h.nsymPos
  have hroot := h.rootEq
  induction p using List.reverseRecOn with
  | nil => simpa using hpos
  | append_singleton q b _ =>
    obtain ⟨z, hz, hk, _⟩ := walk_snoc.1 hp.1
    have hle := h.walk_le hz
    have hge : s.nsym.val ≤ z.val := by
      by_contra hlt
      obtain ⟨_, e⟩ := h.leaf (i := z) (by omega)
      rw [e] at hk
      cases hk
    rw [List.length_append, List.length_singleton]
    omega

theorem childrenOf_nodup_inj {s : State} {n m : Nat}
    (hnd : (s.childrenOf n m).Nodup) {y z : NodeIx} {b c : Bool} (hy : n ≤ y.val ∧ y.val < m)
    (hz : n ≤ z.val ∧ z.val < m) (e : s.child y b = s.child z c) : y = z ∧ b = c := by
  unfold State.childrenOf at hnd
  rw [List.nodup_flatMap] at hnd
  have hmem : ∀ x : NodeIx, n ≤ x.val ∧ x.val < m → x.val ∈ List.range' n (m - n) := by
    intro x hx
    rw [List.mem_range'_1]; omega
  have hin : ∀ (x : NodeIx) (d : Bool),
      s.child x d ∈ [(s.nodeAt (nodeIx x.val)).left, (s.nodeAt (nodeIx x.val)).right] := by
    intro x d
    rw [nodeIx_of_val]
    unfold State.child
    cases d <;> simp
  have key : ∀ u v : NodeIx, n ≤ u.val → u.val < v.val → v.val < m → ∀ d f,
      s.child u d ≠ s.child v f := by
    intro u v hu huv hv d f he
    have hp := List.pairwise_iff_getElem.1 hnd.2 (u.val - n) (v.val - n)
      (by rw [List.length_range']; omega) (by rw [List.length_range']; omega) (by omega)
    simp only [List.getElem_range', one_mul, show n + (u.val - n) = u.val by omega,
      show n + (v.val - n) = v.val by omega] at hp
    exact hp (hin u d) (he ▸ hin v f)
  have hyz : y = z := by
    by_contra hne
    have hne' : y.val ≠ z.val := fun h => hne (Fin.ext h)
    rcases Nat.lt_or_gt_of_ne hne' with hlt | hlt
    · exact key y z hy.1 hlt hz.2 b c e
    · exact key z y hz.1 hlt hy.2 c b e.symm
  subst hyz
  refine ⟨rfl, ?_⟩
  have := hnd.1 y.val (hmem y hy)
  rw [nodeIx_of_val] at this
  unfold State.child at e
  cases b <;> cases c <;> simp_all

/-- Two walks to one node are the same (R146 item 3). -/
theorem State.TreeOk.walk_inj {s : State} (h : s.TreeOk) {p q : List Bool} {j : NodeIx}
    (hp : s.walk s.root p = some j) (hq : s.walk s.root q = some j) : p = q := by
  have hr := h.rootEq
  have hnn := h.nnodesEq
  have hpos := h.nsymPos
  have hnd : (s.childrenOf s.nsym.val s.nnodes.val).Nodup := by
    refine h.oneParent.nodup_iff.2 (List.nodup_range.map_on ?_)
    intro a ha b hb e
    rw [List.mem_range] at ha hb
    exact (nodeIx_inj (by omega) (by omega)).1 e
  have hint : ∀ {p z}, s.walk s.root p = some z → (s.nodeAt z).kind = .internal →
      s.nsym.val ≤ z.val ∧ z.val < s.nnodes.val := by
    intro p z hw hk
    have := h.walk_le hw
    refine ⟨?_, by omega⟩
    by_contra hlt
    have := (h.kind_leaf_iff (i := z) (by omega)).2 (by omega)
    rw [hk] at this; cases this
  induction p using List.reverseRecOn generalizing q j with
  | nil =>
    have := h.walk_le hq
    simp only [State.walk, Option.some.injEq] at hp
    rw [← hp] at this
    have : q.length = 0 := by omega
    exact (List.length_eq_zero_iff.1 this).symm
  | append_singleton p b ih =>
    obtain ⟨z, hz, hk, rfl⟩ := walk_snoc.1 hp
    cases q using List.reverseRecOn with
    | nil =>
      have := h.walk_le hp
      simp only [State.walk, Option.some.injEq] at hq
      rw [← hq, List.length_append, List.length_singleton] at this
      omega
    | append_singleton q c =>
      obtain ⟨z', hz', hk', e⟩ := walk_snoc.1 hq
      obtain ⟨rfl, rfl⟩ := childrenOf_nodup_inj hnd (hint hz' hk') (hint hz hk) e
      rw [ih hz hz']

/-- Every node in use is on a walk from the root (R146 item 3). -/
theorem State.TreeOk.exists_walk {s : State} (h : s.TreeOk) (j : NodeIx) (hj : j.val ≤ s.root.val) :
    ∃ p, s.walk s.root p = some j := by
  have hr := h.rootEq
  have hnn := h.nnodesEq
  have hpos := h.nsymPos
  obtain ⟨k, hk⟩ : ∃ k, s.root.val - j.val = k := ⟨_, rfl⟩
  induction k using Nat.strong_induction_on generalizing j with
  | _ k ih =>
    by_cases hjr : j.val = s.root.val
    · exact ⟨[], by simp only [State.walk, Option.some.injEq]; exact Fin.ext hjr.symm⟩
    · have hmem : j ∈ s.childrenOf s.nsym.val s.nnodes.val := by
        refine h.oneParent.mem_iff.2 (List.mem_map.2 ⟨j.val, ?_, nodeIx_of_val j⟩)
        rw [List.mem_range]; omega
      obtain ⟨z, hz, hz', hc⟩ := (mem_childrenOf s _ _ (by omega) j).1 hmem
      obtain ⟨hki, _, hl, hrr, _⟩ := h.internals z hz hz'
      have hjz : j.val < z.val := by rcases hc with rfl | rfl <;> assumption
      obtain ⟨p, hp⟩ := ih (s.root.val - z.val) (by omega) z (by omega) rfl
      rcases hc with rfl | rfl
      · exact ⟨p ++ [false], walk_snoc.2 ⟨z, hp, hki, rfl⟩⟩
      · exact ⟨p ++ [true], walk_snoc.2 ⟨z, hp, hki, rfl⟩⟩

/-- The leaves of the tree, in the order CODE_GEN visits them. -/
def State.treeLeaves (s : State) : List LeafAt := s.leavesOf 511 s.root []

theorem State.TreeOk.mem_treeLeaves {s : State} (h : s.TreeOk) (p : List Bool) (j : NodeIx) :
    (p, j) ∈ s.treeLeaves ↔ s.LeafPath p j := by
  rw [State.treeLeaves, mem_leavesOf s 511 s.root [] s.root.isLt h.descending]
  unfold State.LeafPath
  constructor
  · rintro ⟨q, rfl, hw, hl⟩; exact ⟨hw, hl⟩
  · rintro ⟨hw, hl⟩; exact ⟨p, rfl, hw, hl⟩

/-- The leaves are the entries of the frequency table, each once (R146 item 4). -/
theorem State.TreeOk.treeLeaves_perm {s : State} (h : s.TreeOk) :
    (s.treeLeaves.map fun l => (s.nodeAt l.2).sym).Perm s.present := by
  have hr := h.rootEq
  have hnn := h.nnodesEq
  have hpos := h.nsymPos
  have hlen := h.counted_length
  -- the nodes of the leaves are 0 to n - 1, each once
  have hnodes : (s.treeLeaves.map Prod.snd).Perm ((List.range s.nsym.val).map nodeIx) := by
    refine (List.perm_ext_iff_of_nodup ?_ ?_).2 ?_
    · have hs := leavesOf_sorted s 511 s.root []
      refine List.Nodup.map_on ?_ (hs.imp fun {a b} hab e => ?_)
      · rintro ⟨p, i⟩ hp ⟨q, j⟩ hq e
        simp only at e
        subst e
        have hp := (h.mem_treeLeaves p i).1 hp
        have hq := (h.mem_treeLeaves q i).1 hq
        rw [h.walk_inj hp.1 hq.1]
      · rw [e] at hab
        exact hab.2.1 List.prefix_rfl
    · refine List.nodup_range.map_on ?_
      intro a ha b hb e
      rw [List.mem_range] at ha hb
      exact (nodeIx_inj (by omega) (by omega)).1 e
    · intro j
      simp only [List.mem_map, List.mem_range]
      constructor
      · rintro ⟨⟨p, i⟩, hp, rfl⟩
        have hp := (h.mem_treeLeaves p i).1 hp
        have hle := h.walk_le hp.1
        exact ⟨i.val, (h.kind_leaf_iff (by omega)).1 hp.2, nodeIx_of_val i⟩
      · rintro ⟨k, hk, rfl⟩
        have hv := nodeIx_val (n := k) (by omega)
        obtain ⟨p, hp⟩ := h.exists_walk (nodeIx k) (by omega)
        exact ⟨(p, nodeIx k), (h.mem_treeLeaves _ _).2
          ⟨hp, (h.kind_leaf_iff (by omega)).2 (by omega)⟩, rfl⟩
  have hm := hnodes.map fun j => (s.nodeAt j).sym
  rw [List.map_map, List.map_map] at hm
  refine hm.trans (List.Perm.of_eq ?_)
  apply List.ext_getElem
  · simp [State.present, hlen]
  · intro k h₁ h₂
    have hk : k < s.nsym.val := by simpa using h₁
    have hv := nodeIx_val (n := k) (by omega)
    obtain ⟨hk', e⟩ := h.leaf (i := nodeIx k) (by omega)
    simp only [List.getElem_map, List.getElem_range, Function.comp, State.present]
    rw [e]
    simp only [hv]
    rfl

theorem present_eq (s : State) : s.present = symbols.filter fun b => decide (0 < s.ftAt b) := by
  rw [State.present, counted_eq, List.map_map]
  simp [Function.comp_def]

theorem present_nodup (s : State) : s.present.Nodup := by
  rw [present_eq]
  exact symbols_nodup.filter _

theorem mem_present {s : State} {b : Byte} : b ∈ s.present ↔ 0 < s.ftAt b := by
  rw [present_eq]; simp

/-- Every symbol with a count is at the end of a path, and every path ends at one (R146 item 4). -/
theorem State.TreeOk.exists_leafPath {s : State} (h : s.TreeOk) (b : Byte) :
    0 < s.ftAt b ↔ ∃ path i, s.LeafPath path i ∧ (s.nodeAt i).sym = b := by
  rw [← mem_present, ← h.treeLeaves_perm.mem_iff, List.mem_map]
  constructor
  · rintro ⟨⟨p, i⟩, hp, e⟩
    exact ⟨p, i, (h.mem_treeLeaves p i).1 hp, e⟩
  · rintro ⟨p, i, hp, e⟩
    exact ⟨(p, i), (h.mem_treeLeaves p i).2 hp, e⟩

theorem State.TreeOk.root_kind {s : State} (h : s.TreeOk) :
    (s.nodeAt s.root).kind = .leaf ↔ s.nsym.val = 1 := by
  have hr := h.rootEq
  have hnn := h.nnodesEq
  have hpos := h.nsymPos
  rw [h.kind_leaf_iff (by omega)]
  omega

/-- The codes of a tree of two leaves or more: a loop over its leaves (R160, R161). -/
theorem State.TreeOk.assignCodes_eq {s : State} (h : s.TreeOk) (h2 : 2 ≤ s.nsym.val) :
    assignCodes s = forEach assignLeaf s.treeLeaves s := by
  have hk : (s.nodeAt s.root).kind = .internal := by
    cases hk : (s.nodeAt s.root).kind with
    | internal => rfl
    | leaf => have := h.root_kind.1 hk; omega
  unfold assignCodes
  rw [hk]
  exact visit_eq 511 s.root [] s s.root.isLt h.descending

/-- CODE_GEN where no leaf is too deep (R161, R163). -/
theorem State.TreeOk.generateCodes_done {s : State} (h : s.TreeOk) (h2 : 2 ≤ s.nsym.val)
    (h16 : ∀ path i, s.LeafPath path i → path.length ≤ 16) :
    ∃ t, generateCodes s = .done t ∧
      (∀ path i, s.LeafPath path i → t.ctAt (s.nodeAt i).sym = Code.ofBits path) ∧
      (∀ b, s.ftAt b = 0 → t.ctAt b = s.ctAt b) ∧
      t = { s with ct := t.ct, phase := .codesReady } := by
  have h16' : ∀ l ∈ s.treeLeaves, l.1.length ≤ 16 := fun l hl =>
    h16 l.1 l.2 ((h.mem_treeLeaves l.1 l.2).1 hl)
  obtain ⟨t, h₁, h₂, h₃, h₄⟩ := assignAll_done s.treeLeaves s h16'
    (h.treeLeaves_perm.nodup_iff.2 (present_nodup s))
  refine ⟨{ t with phase := .codesReady }, ?_, ?_, ?_, ?_⟩
  · rw [generateCodes, h.assignCodes_eq h2, h₁]; rfl
  · intro path i hp
    exact h₂ (path, i) ((h.mem_treeLeaves path i).2 hp)
  · intro b hb
    refine h₃ b fun l hl e => ?_
    have := (h.exists_leafPath b).2 ⟨l.1, l.2, (h.mem_treeLeaves l.1 l.2).1 hl, e⟩
    omega
  · rw [h₄]

/-- CODE_GEN where the root is a Leaf (R162). -/
theorem generateCodes_single {s : State} (hk : (s.nodeAt s.root).kind = .leaf) :
    generateCodes s = .done { s.setCt (s.nodeAt s.root).sym (Code.ofBits [false]) with
      phase := .codesReady } := by
  unfold generateCodes assignCodes
  rw [hk]
  rfl

/-- CODE_GEN where a leaf is too deep (R164). -/
theorem State.TreeOk.generateCodes_raised {s : State} (h : s.TreeOk)
    (hdeep : ∃ path i, s.LeafPath path i ∧ 16 < path.length) :
    ∃ t path i, generateCodes s = .raised t ∧ s.LeafPath path i ∧ 16 < path.length ∧
      (∀ path' i', s.LeafPath path' i' → 16 < path'.length → ¬ path' < path) ∧
      t = { s with
        ct := t.ct, err := .codeTooLong, errInfo := zext16 (s.nodeAt i).sym, phase := .fault } := by
  have h2 : 2 ≤ s.nsym.val := by
    obtain ⟨p, i, hp, hlen⟩ := hdeep
    have := h.walk_le hp.1
    have := h.rootEq
    omega
  obtain ⟨p, i, hp, hlen⟩ := hdeep
  have hex : ∃ l ∈ s.treeLeaves, decide (16 < l.1.length) = true :=
    ⟨(p, i), (h.mem_treeLeaves p i).2 hp, by simpa using hlen⟩
  obtain ⟨ls, l, ms, hls, hl, hsplit⟩ : ∃ ls l ms, (∀ k ∈ ls, k.1.length ≤ 16) ∧ 16 < l.1.length ∧
      s.treeLeaves = ls ++ l :: ms := by
    refine ⟨s.treeLeaves.takeWhile fun l => decide (l.1.length ≤ 16), ?_⟩
    have hd : (s.treeLeaves.dropWhile fun l => decide (l.1.length ≤ 16)) ≠ [] := by
      intro e
      obtain ⟨l, hl, hl'⟩ := hex
      have := List.dropWhile_eq_nil_iff.1 e l hl
      simp only [decide_eq_true_eq] at this hl'
      omega
    obtain ⟨l, ms, hms⟩ := List.exists_cons_of_ne_nil hd
    refine ⟨l, ms, fun k hk => by simpa using List.mem_takeWhile_imp hk, ?_, ?_⟩
    · have := List.head_dropWhile_not (p := fun l : LeafAt => decide (l.1.length ≤ 16)) hd
      simp only [hms, List.head_cons, decide_eq_false_iff_not] at this
      omega
    · rw [← hms, List.takeWhile_append_dropWhile]
  obtain ⟨t, h₁, h₂⟩ := assignAll_raised ls ms l s hls hl
  have hsorted := leavesOf_sorted s 511 s.root []
  have hsorted : s.treeLeaves.Pairwise _ := hsorted
  rw [hsplit] at hsorted
  refine ⟨t, l.1, l.2, ?_, (h.mem_treeLeaves l.1 l.2).1 (by rw [hsplit]; simp), hl, ?_, h₂⟩
  · rw [generateCodes, h.assignCodes_eq h2, hsplit, h₁]; rfl
  · intro p' i' hp' hlen' hlt
    have hm : (p', i') ∈ s.treeLeaves := (h.mem_treeLeaves p' i').2 hp'
    rw [hsplit] at hm
    rcases List.mem_append.1 hm with hm | hm
    · have := hls _ hm
      simp only at this
      omega
    · rcases List.mem_cons.1 hm with e | hm
      · rw [← e] at hlt
        exact lt_irrefl _ hlt
      · have := (List.pairwise_cons.1 (List.pairwise_append.1 hsorted).2.1).1 _ hm
        exact lt_asymm hlt this.1

/-- The traversal of a tree never goes round in a circle (R161). -/
theorem State.TreeOk.generateCodes_ne_stuck {s : State} (h : s.TreeOk) (f : Fault) :
    generateCodes s ≠ .stuck f := by
  by_cases hk : (s.nodeAt s.root).kind = .leaf
  · rw [generateCodes_single hk]; simp
  · have h2 : 2 ≤ s.nsym.val := by
      have := h.nsymPos
      have := mt h.root_kind.2 hk
      omega
    by_cases hd : ∃ path i, s.LeafPath path i ∧ 16 < path.length
    · obtain ⟨t, _, _, e, _⟩ := h.generateCodes_raised hd
      rw [e]; simp
    · obtain ⟨t, e, _⟩ := h.generateCodes_done h2 fun path i hp => by
        by_contra hlt
        exact hd ⟨path, i, hp, by omega⟩
      rw [e]; simp

/-! ### The guarantees of a completed CODE_GEN -/

/-- Two different leaves have incomparable paths. -/
theorem State.TreeOk.leafPath_incomparable {s : State} (h : s.TreeOk) {p q : List Bool}
    {i j : NodeIx} (hp : s.LeafPath p i) (hq : s.LeafPath q j) (hne : p ≠ q) : ¬ p <+: q := by
  have hs : s.treeLeaves.Pairwise fun k l => k.1 < l.1 ∧ Incomparable k.1 l.1 :=
    leavesOf_sorted s 511 s.root []
  have hp' := (h.mem_treeLeaves p i).2 hp
  have hq' := (h.mem_treeLeaves q j).2 hq
  obtain ⟨a, ha, ea⟩ := List.mem_iff_getElem.1 hp'
  obtain ⟨b, hb, eb⟩ := List.mem_iff_getElem.1 hq'
  rw [List.pairwise_iff_getElem] at hs
  rcases Nat.lt_trichotomy a b with hlt | heq | hlt
  · have := (hs a b ha hb hlt).2.1
    rw [ea, eb] at this
    exact this
  · subst heq
    rw [ea] at eb
    exact absurd (congrArg Prod.fst eb) hne
  · have := (hs b a hb ha hlt).2.2
    rw [ea, eb] at this
    exact this

theorem leafPath_of_sym {s : State} (h : s.TreeOk) {p q : List Bool} {i j : NodeIx}
    (hp : s.LeafPath p i) (hq : s.LeafPath q j) (e : (s.nodeAt i).sym = (s.nodeAt j).sym) : p = q := by
  have hnd := h.treeLeaves_perm.nodup_iff.2 (present_nodup s)
  have := List.inj_on_of_nodup_map hnd ((h.mem_treeLeaves p i).2 hp) ((h.mem_treeLeaves q j).2 hq) e
  exact congrArg Prod.fst this

/-- A leaf of a tree with another leaf is not the root: its path is not empty. -/
theorem State.TreeOk.leafPath_ne_nil {s : State} (h : s.TreeOk) (h2 : 2 ≤ s.nsym.val)
    {p : List Bool} {i : NodeIx} (hp : s.LeafPath p i) : 1 ≤ p.length := by
  cases p with
  | nil =>
    have hw := hp.1
    simp only [State.walk, Option.some.injEq] at hw
    have := h.root_kind.1 (hw ▸ hp.2)
    omega
  | cons b p => simp

/-- What a completed CODE_GEN leaves in `CT` (R163 items 1 to 5), from an empty `CT`. -/
theorem State.TreeOk.codes {s t : State} (h : s.TreeOk) (hct : s.ct = Table.fill 256 Code.zero)
    (hdone : generateCodes s = .done t) :
    t.CodesOk ∧ (∀ b, (t.ctAt b).len.val ≤ 16) ∧
    (∀ b, LeftAligned (t.ctAt b).len.val (t.ctAt b).bits) ∧
    (((symbols.filter fun b => 0 < (t.ctAt b).len.val).map fun b =>
        2 ^ (16 - (t.ctAt b).len.val)).sum = if 2 ≤ s.nsym.val then 2 ^ 16 else 2 ^ 15) := by
  have hzero : ∀ b, s.ctAt b = Code.zero := fun b => by simp [State.ctAt, hct]
  have hpos := h.nsymPos
  have hft : t.ft = s.ft := by
    rw [(generateCodes_frame s).1 t hdone]
  have hftAt : ∀ b, t.ftAt b = s.ftAt b := fun b => by unfold State.ftAt; rw [hft]
  by_cases h2 : 2 ≤ s.nsym.val
  · -- two leaves or more
    have h16 : ∀ path i, s.LeafPath path i → path.length ≤ 16 := by
      intro path i hp
      by_contra hlt
      obtain ⟨u, _, _, e, _⟩ := h.generateCodes_raised ⟨path, i, hp, by omega⟩
      rw [e] at hdone; cases hdone
    obtain ⟨u, e, h₂, h₃, _⟩ := h.generateCodes_done h2 h16
    rw [hdone] at e
    cases e
    have hcoded : ∀ b, 0 < s.ftAt b → ∃ path i, s.LeafPath path i ∧ (s.nodeAt i).sym = b ∧
        t.ctAt b = Code.ofBits path ∧ (t.ctAt b).len.val = path.length ∧ 1 ≤ path.length := by
      intro b hb
      obtain ⟨path, i, hp, rfl⟩ := (h.exists_leafPath b).1 hb
      have e := h₂ path i hp
      exact ⟨path, i, hp, rfl, e, by rw [e, Code.ofBits_len (h16 path i hp)],
        h.leafPath_ne_nil h2 hp⟩
    have huncoded : ∀ b, s.ftAt b = 0 → t.ctAt b = Code.zero := fun b hb => by rw [h₃ b hb, hzero]
    have hiff : ∀ b, 0 < (t.ctAt b).len.val ↔ 0 < s.ftAt b := by
      intro b
      constructor
      · intro hb
        by_contra h0
        rw [huncoded b (by omega)] at hb
        simp [Code.zero] at hb
      · intro hb
        obtain ⟨_, _, _, _, _, e, e'⟩ := hcoded b hb
        omega
    refine ⟨⟨fun b => by rw [hftAt]; exact hiff b, ?_⟩, fun b => by have := (t.ctAt b).len.isLt; omega,
      ?_, ?_⟩
    · intro b c hbc hb hc
      obtain ⟨p, i, hp, rfl, ep, _⟩ := hcoded b ((hiff b).1 hb)
      obtain ⟨q, j, hq, rfl, eq, _⟩ := hcoded c ((hiff c).1 hc)
      rw [ep, eq, Code.toBits_ofBits (h16 p i hp), Code.toBits_ofBits (h16 q j hq)]
      refine h.leafPath_incomparable hp hq ?_
      rintro rfl
      exact hbc (by rw [Option.some.inj (hp.1.symm.trans hq.1)])
    · intro b
      by_cases hb : 0 < s.ftAt b
      · obtain ⟨p, i, hp, rfl, ep, _⟩ := hcoded b hb
        rw [ep]
        exact Code.leftAligned_ofBits (h16 p i hp)
      · rw [huncoded b (by omega)]
        exact leftAligned_zero 0
    · rw [if_pos h2]
      have hk := (leavesOf_kraft s 511 s.root [] s.root.isLt h.descending fun l hl =>
        h16 l.1 l.2 ((h.mem_treeLeaves l.1 l.2).1 hl)).2
      simp only [List.length_nil, Nat.sub_zero] at hk
      rw [← hk]
      have hfilter : (symbols.filter fun b => decide (0 < (t.ctAt b).len.val)) = s.present := by
        rw [present_eq]
        exact List.filter_congr fun b _ => by simp [hiff b]
      rw [hfilter, ← (h.treeLeaves_perm.map _).sum_eq, List.map_map]
      refine congrArg List.sum (List.map_congr_left fun l hl => ?_)
      have hp := (h.mem_treeLeaves l.1 l.2).1 hl
      simp only [Function.comp]
      rw [h₂ l.1 l.2 hp, Code.ofBits_len (h16 _ _ hp)]
  · -- one leaf
    have hk := h.root_kind.2 (by omega)
    rw [generateCodes_single hk] at hdone
    cases hdone
    have hroot : s.LeafPath [] s.root := ⟨rfl, hk⟩
    have hpresent : s.present = [(s.nodeAt s.root).sym] := by
      have hlen : s.present.length = 1 := by
        rw [State.present, List.length_map, h.counted_length]; omega
      obtain ⟨b, hb⟩ := List.length_eq_one_iff.1 hlen
      have := mem_present.2 ((h.exists_leafPath _).2 ⟨[], s.root, hroot, rfl⟩)
      rw [hb, List.mem_singleton] at this
      rw [hb, this]
    have hctAt : ∀ b, State.ctAt { s.setCt (s.nodeAt s.root).sym (Code.ofBits [false]) with
        phase := .codesReady } b =
        if (s.nodeAt s.root).sym = b then Code.ofBits [false] else Code.zero := by
      intro b
      show (s.setCt (s.nodeAt s.root).sym (Code.ofBits [false])).ctAt b = _
      rw [setCt_ctAt, hzero]
    have hlen1 : (Code.ofBits [false]).len.val = 1 := Code.ofBits_len (by simp)
    have hiff : ∀ b, 0 < (State.ctAt { s.setCt (s.nodeAt s.root).sym (Code.ofBits [false]) with
        phase := .codesReady } b).len.val ↔ (s.nodeAt s.root).sym = b := by
      intro b
      rw [hctAt]
      split
      · next e => simp [hlen1, e]
      · next e => simp [Code.zero, e]
    refine ⟨⟨fun b => ?_, ?_⟩, fun b => ?_, fun b => ?_, ?_⟩
    · rw [hiff, hftAt, ← mem_present, hpresent, List.mem_singleton]
      exact eq_comm
    · intro b c hbc hb hc
      rw [hiff] at hb hc
      exact absurd (hb.symm.trans hc) hbc
    · exact Nat.le_of_lt_succ (Fin.isLt _)
    · rw [hctAt]
      split
      · exact Code.leftAligned_ofBits (by simp)
      · exact leftAligned_zero 0
    · rw [if_neg h2]
      have hfilter : (symbols.filter fun b => decide (0 < (State.ctAt
          { s.setCt (s.nodeAt s.root).sym (Code.ofBits [false]) with phase := .codesReady }
          b).len.val)) = s.present := by
        rw [present_eq]
        refine List.filter_congr fun b _ => ?_
        have : 0 < s.ftAt b ↔ (s.nodeAt s.root).sym = b := by
          rw [← mem_present, hpresent, List.mem_singleton]
          exact eq_comm
        simp only [hiff, this]
      rw [hfilter, hpresent]
      simp only [List.map_cons, List.map_nil, List.sum_cons, List.sum_nil, hctAt, if_true, hlen1]
      rfl

end Sys2Proof.Machine
end

