-- ==== Sys2Proof/Laws/Framer.lean ====
section
/-! SUPPORT. Reading and writing the header and the records (spec/43_codec_framer.md R170 to R177,
spec/30_encoding.md R96 to R100). -/

namespace Sys2Proof.Machine

/-! ### Code fields -/

theorem choiceChar_ne_zero (b : Bool) : choiceChar b ≠ 0x00 := by cases b <;> decide

theorem choiceChar_eq (b : Bool) : (choiceChar b == 0x31) = b := by cases b <;> decide

theorem choiceChar_ok (b : Bool) : (choiceChar b == 0x30 || choiceChar b == 0x31) = true := by
  cases b <;> decide

theorem takeWhile_chars (c : List Bool) (rest : List Byte) :
    (c.map choiceChar ++ rest).takeWhile (· != 0x00) =
      c.map choiceChar ++ rest.takeWhile (· != 0x00) := by
  induction c with
  | nil => rfl
  | cons b c ih =>
    rw [List.map_cons, List.cons_append, List.takeWhile_cons_of_pos, ih, List.cons_append]
    exact bne_iff_ne.2 (choiceChar_ne_zero b)

/-- The field of a valid record reads as the code it was written for (R100). -/
theorem readCodeField_field {r : FileRecord} (h : r.Valid) : readCodeField r.field = some r.code := by
  obtain ⟨h₁, h₂, _⟩ := h
  have ht : r.field.takeWhile (· != 0x00) = r.code.map choiceChar := by
    rw [FileRecord.field, takeWhile_chars]
    split
    · simp
    · simp
  unfold readCodeField
  simp only [ht]
  rw [if_neg, if_pos]
  · rw [List.map_map]
    congr 1
    conv_rhs => rw [← List.map_id r.code]
    exact List.map_congr_left fun b _ => choiceChar_eq b
  · rw [List.all_eq_true]
    intro ch hch
    obtain ⟨b, _, rfl⟩ := List.mem_map.1 hch
    exact choiceChar_ok b
  · rw [List.isEmpty_iff, List.map_eq_nil_iff]
    intro e
    rw [e] at h₁
    simp at h₁

/-- A bad field is refused (R100). -/
theorem readCodeField_bad {f : List Byte} (h : BadField f) : readCodeField f = none := by
  unfold readCodeField
  dsimp only
  rcases h with h | ⟨ch, hch, hne⟩
  · rw [if_pos]
    cases f with
    | nil => simp at h
    | cons b f =>
      simp only [List.head?_cons, Option.some.injEq] at h
      subst h
      simp
  · split
    · rfl
    · rw [if_neg]
      rw [List.all_eq_true]
      intro hall
      rcases Bool.or_eq_true _ _ ▸ hall ch hch with e | e
      · exact hne.1 (eq_of_beq e)
      · exact hne.2 (eq_of_beq e)

/-- A field that is read is read as a code of 1 to 16 choices (R100). -/
theorem readCodeField_some {f : List Byte} {c : List Bool} (h : readCodeField f = some c)
    (hf : f.length ≤ 16) : 1 ≤ c.length ∧ c.length ≤ 16 := by
  unfold readCodeField at h
  dsimp only at h
  split at h
  · cases h
  · next he =>
    split at h
    · cases h
      rw [List.length_map]
      constructor
      · rw [List.isEmpty_iff] at he
        exact List.length_pos_iff.2 he
      · exact (List.takeWhile_prefix _).length_le.trans hf
    · cases h

/-- The field ENC_HEADER writes is the field of a record whose filler is zeros (R99). -/
theorem codeField_eq (c : Code) :
    codeField c = (FileRecord.mk 0 c.toBits (List.replicate (15 - c.len.val) 0)).field := by
  have hl := c.len.isLt
  apply List.ext_getElem
  · rw [FileRecord.field]
    simp only [codeField, List.length_map, List.length_range, List.length_append, Code.toBits_length]
    split
    · simp; omega
    · simp; omega
  · intro i h₁ h₂
    have hi : i < 16 := by simpa [codeField] using h₁
    simp only [codeField, List.getElem_map, List.getElem_range, FileRecord.field]
    by_cases hlt : i < c.len.val
    · rw [if_pos hlt, List.getElem_append_left (by simpa [Code.toBits_length] using hlt),
        List.getElem_map, Code.toBits_getElem]
      rfl
    · rw [if_neg hlt, List.getElem_append_right (by simpa [Code.toBits_length] using hlt)]
      have : c.toBits.length < 16 := by rw [Code.toBits_length]; omega
      simp only [this, if_true]
      rw [List.getElem_cons]
      split
      · rfl
      · simp [filler]

theorem FileRecord.field_sym (a b : Byte) (c : List Bool) (j : List Byte) :
    (FileRecord.mk a c j).field = (FileRecord.mk b c j).field := rfl

/-- The record ENC_HEADER writes for symbol `b` (R98, R99). -/
def writtenRecord (b : Byte) (c : Code) : FileRecord :=
  { sym := b, code := c.toBits, junk := List.replicate (15 - c.len.val) 0 }

theorem recordBytes_eq (b : Byte) (c : Code) : recordBytes b c = (writtenRecord b c).bytes := by
  rw [recordBytes, codeField_eq]
  rfl

theorem writtenRecord_valid (b : Byte) {c : Code} (h : 0 < c.len.val) : (writtenRecord b c).Valid := by
  have hl := c.len.isLt
  refine ⟨?_, ?_, ?_⟩
  · show 1 ≤ c.toBits.length
    rw [Code.toBits_length]; omega
  · show c.toBits.length ≤ 16
    rw [Code.toBits_length]; omega
  · have : (writtenRecord b c).field = codeField c := by rw [codeField_eq]; rfl
    rw [this]
    simp [codeField]

theorem writtenRecord_entry (b : Byte) {c : Code} (h : LeftAligned c.len.val c.bits) :
    (writtenRecord b c).entry = { sym := b, code := c } := by
  rw [FileRecord.entry]
  show Entry.mk b (Code.ofBits c.toBits) = _
  rw [Code.ofBits_toBits h]

theorem FileRecord.bytes_length {r : FileRecord} (h : r.Valid) : r.bytes.length = 17 := by
  rw [FileRecord.bytes, List.length_cons, h.2.2]

theorem flatMap_bytes_length {recs : List FileRecord} (h : ∀ r ∈ recs, r.Valid) :
    (recs.flatMap FileRecord.bytes).length = 17 * recs.length := by
  induction recs with
  | nil => rfl
  | cons r recs ih =>
    rw [List.flatMap_cons, List.length_append, FileRecord.bytes_length (h r (by simp)),
      ih fun q hq => h q (by simp [hq])]
    simp; omega

theorem FileRecord.entry_code_inj {r q : FileRecord} (hr : r.Valid) (hq : q.Valid) :
    r.entry.code = q.entry.code ↔ r.code = q.code :=
  Code.ofBits_inj hr.2.1 hq.2.1

/-! ### The header bytes -/

theorem readCountByte_val (c : Byte) : (readCountByte c).val = if c = 0 then 256 else c.toNat := by
  unfold readCountByte
  have := c.isLt
  split
  · rfl
  · simp [Fin.ofNat]; omega

theorem readCountByte_pos (c : Byte) : 1 ≤ (readCountByte c).val := by
  rw [readCountByte_val]
  split
  · omega
  · next h =>
    by_contra h0
    exact h (BitVec.eq_of_toNat_eq (by simp; omega))

/-- The count byte means the count it was written for (R97). -/
theorem readCountByte_countByte {n : Fin 257} (h : 1 ≤ n.val) : readCountByte (countByte n) = n := by
  apply Fin.ext
  have hn := n.isLt
  rw [readCountByte_val]
  have hc : (countByte n).toNat = n.val % 256 := by simp [countByte]
  by_cases h256 : n.val = 256
  · rw [if_pos]
    · omega
    · apply BitVec.eq_of_toNat_eq
      rw [hc, h256]
      rfl
  · rw [if_neg, hc]
    · omega
    · intro e
      rw [e] at hc
      simp at hc
      omega

theorem padByte_toNat (p : Fin 8) : (padByte p).toNat = p.val := by
  have := p.isLt
  simp [padByte]; omega

theorem padOf_val (n : Nat) : (padOf n).val = (8 - n % 8) % 8 := by
  simp [padOf, Fin.ofNat]

/-! ### Records -/

theorem entryIx_val {r : Nat} (h : r < 256) : (entryIx r).val = r := by
  simp [entryIx, Fin.ofNat]; omega

/-- Reading a record where 17 bytes are left (R173). -/
theorem readRecord_eq (r : Nat) (s : State) (sym : Byte) (field tail : List Byte)
    (hrest : s.rest = sym :: (field ++ tail)) (hf : field.length = 16) :
    readRecord r s = match readCodeField field with
      | none => .raised ({ s with sp := s.sp + 17 }.trap .malformedHeader (recordInfo r))
      | some c =>
        if (s.it.cells.take r).any (fun e => e.code == Code.ofBits c) then
          .raised ({ s with sp := s.sp + 17 }.trap .duplicateCode (recordInfo r))
        else .done (({ s with sp := s.sp + 17 } : State).acceptRecord r sym (Code.ofBits c)) := by
  have hlen : 17 ≤ s.rest.length := by
    rw [hrest]
    simp only [List.length_cons, List.length_append]
    omega
  have htake : s.rest.take 17 = sym :: field := by
    rw [hrest, List.take_succ_cons, ← hf, List.take_left]
  unfold readRecord
  rw [State.srcRemaining_eq, if_neg (by omega), State.srcReads_eq 17 s hlen, htake]
  dsimp only
  cases readCodeField field <;> rfl

/-- Fewer than 17 bytes are left: nothing of the partial record is consumed (R173). -/
theorem readRecord_short (r : Nat) (s : State) (h : s.rest.length < 17) :
    readRecord r s = .raised (s.trap .malformedHeader (recordInfo r)) := by
  unfold readRecord
  rw [State.srcRemaining_eq, if_pos h]
  rfl

theorem State.rest_sp (s : State) (n : Nat) :
    ({ s with sp := s.sp + n } : State).rest = s.rest.drop n := by
  simp [State.rest]

theorem acceptRecord_take (s : State) (r : Nat) (sym : Byte) (c : Code) (hr : r < 256) :
    (s.acceptRecord r sym c).it.cells.take (r + 1) =
      s.it.cells.take r ++ [{ sym := sym, code := c }] := by
  have hsize : s.it.cells.length = 256 := s.it.size
  show (s.it.cells.set (entryIx r).val _).take (r + 1) = _
  rw [entryIx_val hr, List.take_add_one, List.take_set_of_le (le_refl r),
    List.getElem?_set_self (by omega)]
  rfl

/-- Reading one valid record after the records `acc` (R173, R175). -/
theorem readRecord_valid (s : State) (acc : List FileRecord) (r : FileRecord) (tail : List Byte)
    (hacc : ∀ q ∈ acc, q.Valid) (hr : r.Valid)
    (htake : s.it.cells.take acc.length = acc.map FileRecord.entry)
    (hrest : s.rest = r.bytes ++ tail) :
    readRecord acc.length s =
      if r.code ∈ acc.map FileRecord.code then
        .raised ({ s with sp := s.sp + 17 }.trap .duplicateCode (recordInfo acc.length))
      else .done (({ s with sp := s.sp + 17 } : State).acceptRecord acc.length r.sym
        (Code.ofBits r.code)) := by
  rw [readRecord_eq acc.length s r.sym r.field tail (by rw [hrest]; rfl) hr.2.2,
    readCodeField_field hr]
  dsimp only
  have hany : ((s.it.cells.take acc.length).any fun e => e.code == Code.ofBits r.code) = true ↔
      r.code ∈ acc.map FileRecord.code := by
    rw [htake, List.any_eq_true]
    constructor
    · rintro ⟨e, he, h⟩
      obtain ⟨q, hq, rfl⟩ := List.mem_map.1 he
      have := (FileRecord.entry_code_inj (hacc q hq) hr).1 (eq_of_beq h)
      exact List.mem_map.2 ⟨q, hq, this⟩
    · intro h
      obtain ⟨q, hq, e⟩ := List.mem_map.1 h
      refine ⟨q.entry, List.mem_map_of_mem hq, ?_⟩
      exact beq_iff_eq.2 ((FileRecord.entry_code_inj (hacc q hq) hr).2 e)
  by_cases h : r.code ∈ acc.map FileRecord.code
  · rw [if_pos (hany.2 h), if_pos h]
  · rw [if_neg (fun h' => h (hany.1 h')), if_neg h]

/-- Reading a run of valid records with different codes, after the records `acc` (R172, R173). -/
theorem readRecords_done (recs acc : List FileRecord) (tail : List Byte) (s : State)
    (hv : ∀ q ∈ acc ++ recs, q.Valid) (hn : acc.length + recs.length ≤ 256)
    (htake : s.it.cells.take acc.length = acc.map FileRecord.entry)
    (hnd : ((acc ++ recs).map FileRecord.code).Nodup)
    (hrest : s.rest = recs.flatMap FileRecord.bytes ++ tail) :
    ∃ t, forEach readRecord (List.range' acc.length recs.length) s = .done t ∧
      t.it.cells.take (acc.length + recs.length) = (acc ++ recs).map FileRecord.entry ∧
      t.rest = tail ∧
      t = { s with
        it := t.it, itN := t.itN, sp := s.sp + 17 * recs.length } ∧
      t.itN.val = if recs = [] then s.itN.val else acc.length + recs.length := by
  induction recs generalizing acc s with
  | nil => exact ⟨s, rfl, by simpa using htake, by simpa using hrest, rfl, rfl⟩
  | cons r recs ih =>
    have hlen : (r :: recs).length = recs.length + 1 := rfl
    have hr : r.Valid := hv r (by simp)
    rw [List.flatMap_cons, List.append_assoc] at hrest
    have hnot : r.code ∉ acc.map FileRecord.code := by
      rw [List.map_append, List.map_cons] at hnd
      intro h
      exact (List.nodup_append.1 hnd).2.2 _ h _ (by simp) rfl
    have hread := readRecord_valid s acc r _ (fun q hq => hv q (by simp [hq])) hr htake
      hrest
    rw [if_neg hnot] at hread
    let u := ({ s with sp := s.sp + 17 } : State).acceptRecord acc.length r.sym (Code.ofBits r.code)
    have hu : u.it.cells.take (acc ++ [r]).length = (acc ++ [r]).map FileRecord.entry := by
      rw [List.length_append, List.length_singleton,
        acceptRecord_take _ _ _ _ (by omega), List.map_append]
      show s.it.cells.take acc.length ++ _ = _
      rw [htake]
      rfl
    have hurest : u.rest = recs.flatMap FileRecord.bytes ++ tail := by
      show ({ s with sp := s.sp + 17 } : State).rest = _
      rw [State.rest_sp, hrest]
      rw [List.drop_append_of_le_length (by rw [FileRecord.bytes_length hr]),
        List.drop_of_length_le (by rw [FileRecord.bytes_length hr])]
      rfl
    have hcons : (acc ++ [r]) ++ recs = acc ++ r :: recs := by simp
    have haccl : (acc ++ [r]).length = acc.length + 1 := by simp
    obtain ⟨t, h₁, h₂, h₃, h₄, h₅⟩ := ih (acc ++ [r]) u (by rw [hcons]; exact hv)
      (by rw [haccl]; omega) hu (by rw [hcons]; exact hnd) hurest
    refine ⟨t, ?_, ?_, h₃, ?_, ?_⟩
    · rw [hlen, List.range'_succ, forEach_cons, hread, Run.done_andThen, ← h₁, haccl]
    · rw [haccl, hcons] at h₂
      rw [← h₂, hlen]
      congr 1; omega
    · rw [h₄]
      have : s.sp + 17 + 17 * recs.length = s.sp + 17 * (r :: recs).length := by rw [hlen]; omega
      show { u with it := _, itN := _, sp := s.sp + 17 + 17 * recs.length } = _
      rw [this]
      rfl
    · rw [h₅, if_neg (by simp : ¬ r :: recs = [])]
      split
      · next e =>
        subst e
        show (Fin.ofNat 257 (acc.length + 1)).val = _
        have : acc.length + 1 < 257 := by omega
        simp [Fin.ofNat, Nat.mod_eq_of_lt this]
      · rw [haccl]; omega

/-! ### DEC_HEADER -/

/-- The state in which DEC_HEADER reads its records (R172). -/
def State.headerRead (s : State) (p c : Byte) : State :=
  { s with sp := s.sp + 2, pad := Fin.ofNat 8 p.toNat, nsym := readCountByte c }

theorem readHeader_eq (s : State) (p c : Byte) (tail : List Byte) (hrest : s.rest = p :: c :: tail)
    (hp : p.toNat ≤ 7) :
    readHeader s = (forEach readRecord (List.range' 0 (readCountByte c).val) (s.headerRead p c)).andThen
      fun s => .done { s with cand := 0, candLen := 0, phase := .tableReady } := by
  unfold readHeader
  rw [State.srcRemaining_eq, if_neg (by rw [hrest]; simp),
    State.srcReads_eq 2 s (by rw [hrest]; simp), hrest]
  simp only [List.take_succ_cons, List.take_zero]
  unfold readTable
  rw [if_neg (by omega), ← List.range_eq_range']
  rfl

theorem headerRead_rest {s : State} {p c : Byte} {tail : List Byte} (hrest : s.rest = p :: c :: tail) :
    (s.headerRead p c).rest = tail := by
  show ({ s with sp := s.sp + 2 } : State).rest = _
  rw [State.rest_sp, hrest]
  rfl

theorem headerRead_pad {s : State} {p c : Byte} (hp : p.toNat ≤ 7) :
    (s.headerRead p c).pad.val = p.toNat := by
  show (Fin.ofNat 8 p.toNat).val = _
  simp [Fin.ofNat]; omega

/-- DEC_HEADER of a header and as many valid records with different codes as it declares (R172). -/
theorem readHeader_done (s : State) (p c : Byte) (recs : List FileRecord) (tail : List Byte)
    (hrest : s.rest = p :: c :: (recs.flatMap FileRecord.bytes ++ tail)) (hp : p.toNat ≤ 7)
    (hlen : recs.length = (readCountByte c).val) (hv : ∀ r ∈ recs, r.Valid)
    (hnd : (recs.map FileRecord.code).Nodup) :
    ∃ t, readHeader s = .done t ∧ t.pad.val = p.toNat ∧ t.nsym.val = recs.length ∧
      t.itN.val = recs.length ∧ t.records = recs.map FileRecord.entry ∧ t.rest = tail ∧
      t = { s with
        pad := t.pad, nsym := t.nsym, it := t.it, itN := t.itN, cand := 0, candLen := 0,
        sp := s.sp + 2 + 17 * recs.length, phase := .tableReady } := by
  have hle := (readCountByte c).isLt
  have hpos := readCountByte_pos c
  obtain ⟨t, h₁, h₂, h₃, h₄, h₅⟩ := readRecords_done recs [] tail (s.headerRead p c)
    (by simpa using hv) (by simp; omega) (by simp) (by simpa using hnd) (headerRead_rest hrest)
  rw [if_neg (by intro e; rw [e] at hlen; simp at hlen; omega)] at h₅
  simp only [List.length_nil, Nat.zero_add, List.nil_append] at h₁ h₂ h₅
  have hpad : t.pad = (s.headerRead p c).pad := by rw [h₄]
  have hnsym : t.nsym = (s.headerRead p c).nsym := by rw [h₄]
  refine ⟨{ t with cand := 0, candLen := 0, phase := .tableReady }, ?_, ?_, ?_, h₅, ?_, h₃, ?_⟩
  · rw [readHeader_eq s p c _ hrest hp, ← hlen, h₁]
    rfl
  · show t.pad.val = _
    rw [hpad, headerRead_pad hp]
  · show t.nsym.val = _
    rw [hnsym, hlen]; rfl
  · show t.it.cells.take t.itN.val = _
    rw [h₅, h₂]
  · show ({ t with cand := 0, candLen := 0, phase := .tableReady } : State) =
      { s with pad := t.pad, nsym := t.nsym, it := t.it, itN := t.itN, cand := 0, candLen := 0,
               sp := s.sp + 2 + 17 * recs.length, phase := .tableReady }
    rw [h₄]
    rfl

/-- DEC_HEADER up to a record it has not accepted yet: what stands before it is accepted, and the next
record decides (R173, R265 item 3). -/
theorem readHeader_next (s : State) (p c : Byte) (recs : List FileRecord) (tail : List Byte)
    (hrest : s.rest = p :: c :: (recs.flatMap FileRecord.bytes ++ tail)) (hp : p.toNat ≤ 7)
    (hlen : recs.length < (readCountByte c).val) (hv : ∀ r ∈ recs, r.Valid)
    (hnd : (recs.map FileRecord.code).Nodup) :
    ∃ u, u.it.cells.take recs.length = recs.map FileRecord.entry ∧ u.rest = tail ∧
      u.sp = s.sp + 2 + 17 * recs.length ∧
      u.itN.val = (if recs = [] then s.itN.val else recs.length) ∧
      ∀ t, readRecord recs.length u = .raised t → readHeader s = .raised t := by
  have hle := (readCountByte c).isLt
  obtain ⟨u, h₁, h₂, h₃, h₄, h₅⟩ := readRecords_done recs [] tail (s.headerRead p c)
    (by simpa using hv) (by simp; omega) (by simp) (by simpa using hnd) (headerRead_rest hrest)
  simp only [List.length_nil, Nat.zero_add, List.nil_append] at h₁ h₂ h₅
  refine ⟨u, h₂, h₃, by rw [h₄]; rfl, h₅, fun t ht => ?_⟩
  rw [readHeader_eq s p c _ hrest hp]
  have hsplit : List.range' 0 (readCountByte c).val = List.range' 0 recs.length ++
      recs.length :: List.range' (recs.length + 1) ((readCountByte c).val - recs.length - 1) := by
    have e : (readCountByte c).val = recs.length + ((readCountByte c).val - recs.length - 1 + 1) := by
      omega
    conv_lhs => rw [e, List.range'_append_1.symm]
    rw [List.range'_succ, Nat.zero_add]
  rw [hsplit, forEach_append, h₁, Run.done_andThen, forEach_cons, ht]
  rfl

end Sys2Proof.Machine
end

