-- ==== Sys2Proof/Laws/Frequency.lean ====
section
/-! SUPPORT. What counting does (spec/40_frequency_analyzer.md R130 to R132). -/

namespace Sys2Proof.Machine

/-- The state after one count (R130). -/
def State.counted1 (s : State) (sym : Byte) : State :=
  { s.setFt sym (s.ftAt sym + 1) with total := s.total + 1, phase := .counting }

theorem countSymbol_lt (sym : Byte) (s : State) (h : s.total ≠ s.cfg.maxCount) :
    countSymbol sym s = .done (s.counted1 sym) := by
  rw [countSymbol, if_neg h]; rfl

theorem countSymbol_max (sym : Byte) (s : State) (h : s.total = s.cfg.maxCount) :
    countSymbol sym s = .raised (s.trap .countOverflow (zext16 sym)) := by
  rw [countSymbol, if_pos h]; rfl

theorem counted1_ftAt (s : State) (a b : Byte) :
    (s.counted1 a).ftAt b = s.ftAt b + if a = b then 1 else 0 := by
  show (s.setFt a (s.ftAt a + 1)).ftAt b = _
  rw [setFt_ftAt]
  split
  · next h => rw [h]
  · rfl

/-- Counting a sequence of source bytes that stays within the bound counts each byte, in any order
(R131, R132). -/
theorem countAll_done (xs : List Byte) (s : State) (h : s.total + xs.length ≤ s.cfg.maxCount) :
    ∃ t, forEach (fun b t => countSymbol b t.advance) xs s = .done t ∧
      (∀ b, t.ftAt b = s.ftAt b + xs.count b) ∧
      t = { s with
        ft := t.ft, total := s.total + xs.length, sp := s.sp + xs.length,
        phase := if xs = [] then s.phase else .counting } := by
  induction xs generalizing s with
  | nil => exact ⟨s, rfl, by simp, rfl⟩
  | cons x xs ih =>
    have hlen : (x :: xs).length = xs.length + 1 := rfl
    have hne : s.advance.total ≠ s.advance.cfg.maxCount := by
      show s.total ≠ s.cfg.maxCount
      omega
    obtain ⟨t, h₁, h₂, h₃⟩ := ih (s.advance.counted1 x) (by
      show s.total + 1 + xs.length ≤ s.cfg.maxCount
      omega)
    refine ⟨t, ?_, ?_, ?_⟩
    · rw [forEach_cons, countSymbol_lt x s.advance hne, Run.done_andThen, h₁]
    · intro b
      rw [h₂ b, counted1_ftAt, List.count_cons]
      show s.ftAt b + _ + _ = _
      by_cases hx : x = b <;> (simp [hx]; try omega)
    · have hp : (if x :: xs = [] then s.phase else Phase.counting) = .counting := if_neg (by simp)
      rw [hp, h₃]
      have e₁ : s.total + 1 + xs.length = s.total + (x :: xs).length := by omega
      have e₂ : s.sp + 1 + xs.length = s.sp + (x :: xs).length := by omega
      simp only [State.counted1, State.setFt, State.advance, e₁, e₂, ite_self]

/-- Counting a sequence that passes the bound raises at the byte that would pass it (R131, R260). -/
theorem countAll_raised (xs : List Byte) (b : Byte) (ys : List Byte) (s : State)
    (h : s.total + xs.length = s.cfg.maxCount) :
    ∃ t, forEach (fun b t => countSymbol b t.advance) (xs ++ b :: ys) s = .raised t ∧
      (∀ c, t.ftAt c = s.ftAt c + xs.count c) ∧
      t = { s with
        ft := t.ft, total := s.cfg.maxCount, sp := s.sp + xs.length + 1,
        err := .countOverflow, errInfo := zext16 b, phase := .fault } := by
  obtain ⟨t, h₁, h₂, h₃⟩ := countAll_done xs s (by omega)
  have ht : t.advance.total = t.advance.cfg.maxCount := by
    show t.total = t.cfg.maxCount
    rw [h₃]
    exact h
  refine ⟨t.advance.trap .countOverflow (zext16 b), ?_, h₂, ?_⟩
  · rw [forEach_append, h₁, Run.done_andThen, forEach_cons, countSymbol_max b t.advance ht]
    rfl
  · rw [h₃, h]
    rfl

theorem countSource_eq (s : State) :
    countSource s = (forEach (fun b t => countSymbol b t.advance) s.rest s).andThen
      fun s => .done { s with phase := .counting } := by
  rw [countSource, drain_eq_forEach countSymbol_stream]

/-- FREQ_RUN within the bound (R131). -/
theorem countSource_done (s : State) (h : s.total + s.rest.length ≤ s.cfg.maxCount) :
    ∃ t, countSource s = .done t ∧ (∀ b, t.ftAt b = s.ftAt b + s.rest.count b) ∧
      t = { s with
        ft := t.ft, total := s.total + s.rest.length, sp := s.sp + s.rest.length,
        phase := .counting } := by
  obtain ⟨t, h₁, h₂, h₃⟩ := countAll_done s.rest s h
  refine ⟨{ t with phase := .counting }, by rw [countSource_eq, h₁]; rfl, h₂, ?_⟩
  rw [h₃]

/-- Whatever `TOTAL` was: a count that completes has counted every byte it was given. -/
theorem countAll_counts (xs : List Byte) (s t : State)
    (h : forEach (fun b t => countSymbol b t.advance) xs s = .done t) (b : Byte) :
    t.ftAt b = s.ftAt b + xs.count b := by
  induction xs generalizing s with
  | nil => cases h; rfl
  | cons x xs ih =>
    rw [forEach_cons, Run.andThen_eq_done] at h
    obtain ⟨u, hu, h⟩ := h
    by_cases hm : s.advance.total = s.advance.cfg.maxCount
    · rw [countSymbol_max x s.advance hm] at hu
      cases hu
    · rw [countSymbol_lt x s.advance hm] at hu
      cases hu
      rw [ih _ h, counted1_ftAt, List.count_cons]
      show s.ftAt b + _ + _ = _
      by_cases hx : x = b <;> (simp [hx]; try omega)

/-- So after a FREQ_RUN that completes every byte that was left has a count (R131). -/
theorem countSource_counts {s t : State} (h : countSource s = .done t) (b : Byte) :
    t.ftAt b = s.ftAt b + s.rest.count b := by
  rw [countSource_eq, Run.andThen_eq_done] at h
  obtain ⟨u, hu, h⟩ := h
  cases h
  exact countAll_counts _ _ _ hu b

theorem countSource_raised (s : State) (h₀ : s.total ≤ s.cfg.maxCount)
    (h : s.cfg.maxCount < s.total + s.rest.length) :
    ∃ t b, countSource s = .raised t ∧ s.rest[s.cfg.maxCount - s.total]? = some b ∧
      (∀ c, t.ftAt c = s.ftAt c + (s.rest.take (s.cfg.maxCount - s.total)).count c) ∧
      t = { s with
        ft := t.ft, total := s.cfg.maxCount, sp := s.sp + (s.cfg.maxCount - s.total) + 1,
        err := .countOverflow, errInfo := zext16 b, phase := .fault } := by
  have hk : s.cfg.maxCount - s.total < s.rest.length := by omega
  have hlen : (s.rest.take (s.cfg.maxCount - s.total)).length = s.cfg.maxCount - s.total := by
    rw [List.length_take]; omega
  obtain ⟨t, h₁, h₂, h₃⟩ := countAll_raised (s.rest.take (s.cfg.maxCount - s.total))
    s.rest[s.cfg.maxCount - s.total] (s.rest.drop (s.cfg.maxCount - s.total + 1)) s (by
      rw [hlen]; omega)
  rw [← List.drop_eq_getElem_cons hk, List.take_append_drop] at h₁
  refine ⟨t, _, by rw [countSource_eq, h₁]; rfl, List.getElem?_eq_getElem hk, h₂, ?_⟩
  rw [hlen] at h₃
  exact h₃

theorem countSource_ne_stuck (s : State) (f : Fault) : countSource s ≠ .stuck f := by
  have h : forEach (fun b t => countSymbol b t.advance) s.rest s ≠ .stuck f := by
    refine forEach_ne_stuck ?_ _ _ _
    intro x u g
    unfold countSymbol
    split <;> simp
  rw [countSource_eq, Ne, Run.andThen_eq_stuck]
  rintro (e | ⟨t, _, e⟩)
  · exact h e
  · cases e

/-- The sum of a table after one more count (R27). -/
theorem counted1_ft_sum (s : State) (sym : Byte) :
    (s.counted1 sym).ft.cells.sum = s.ft.cells.sum + 1 := by
  have hset : (s.counted1 sym).ft.cells = s.ft.cells.set sym.toNat (s.ftAt sym + 1) := rfl
  have hlt : sym.toNat < s.ft.cells.length := by rw [s.ft.size]; exact sym.isLt
  have hget : s.ftAt sym = s.ft.cells[sym.toNat] := rfl
  rw [hset, List.set_eq_take_append_cons_drop, if_pos hlt]
  conv_rhs => rw [← List.take_append_drop sym.toNat s.ft.cells, List.drop_eq_getElem_cons hlt]
  simp only [List.sum_append, List.sum_cons, hget]
  omega

end Sys2Proof.Machine
end

