-- ==== Sys2Proof/Laws/Packer.lean ====
section
/-! SUPPORT. Packing: the bits in the sink and the accumulator are the codes placed so far, in order
(spec/44_bit_packer.md R200 to R204). -/

namespace Sys2Proof.Machine

/-- Bits `7 − FILL` down to 0 of `ACC` are 0 (R34). -/
def State.AccClear (s : State) : Prop := ∀ j, s.fill.val ≤ j → s.acc.getMsbD j = false

theorem placeBit_getMsbD (acc : Byte) (fill : Fin 8) (b : Bool) (j : Nat) (hj : j < 8)
    (hclear : acc.getMsbD fill.val = false) :
    (placeBit acc fill b).getMsbD j = if j = fill.val then b else acc.getMsbD j := by
  have hone : ∀ f k : Fin 8, ((1 : Byte) <<< (7 - f.val)).getMsbD k.val = decide (k = f) := by decide
  have hone' : ((1 : Byte) <<< (7 - fill.val)).getMsbD j = decide (j = fill.val) := by
    have := hone fill ⟨j, hj⟩
    simpa [Fin.ext_iff] using this
  unfold placeBit
  cases b
  · simp only [Bool.false_eq_true, if_false]
    split
    · next e => rw [e, hclear]
    · rfl
  · simp only [if_true, BitVec.getMsbD_or, hone']
    by_cases e : j = fill.val
    · simp [e]
    · simp [e]

theorem map_streamBit_congr {a b : Byte} {n : Nat} (h : ∀ j, j < n → a.getMsbD j = b.getMsbD j) :
    (List.range n).map (streamBit a) = (List.range n).map (streamBit b) :=
  List.map_congr_left fun j hj => h j (List.mem_range.1 hj)

/-- PutBit appends one bit to the bits in the sink and the accumulator (R200). -/
theorem putBit_spec (s : State) (b : Bool) (h : s.AccClear) :
    ∃ bytes, (putBit s b).snk = s.snk ++ bytes ∧
      bitsOf bytes ++ (putBit s b).pendingBits = s.pendingBits ++ [b] ∧
      8 * bytes.length + (putBit s b).fill.val = s.fill.val + 1 ∧ (putBit s b).AccClear := by
  have hf := s.fill.isLt
  have hbit := fun j hj => placeBit_getMsbD s.acc s.fill b j hj (h _ le_rfl)
  have hbits : (List.range (s.fill.val + 1)).map (streamBit (placeBit s.acc s.fill b)) =
      s.pendingBits ++ [b] := by
    rw [List.range_succ, List.map_append, List.map_singleton]
    congr 1
    · refine map_streamBit_congr fun j hj => ?_
      rw [hbit j (by omega), if_neg (by omega)]
    · unfold streamBit
      rw [hbit _ hf, if_pos rfl]
  unfold putBit
  dsimp only
  by_cases h7 : s.fill = 7
  · rw [if_pos h7]
    have h7' : s.fill.val = 7 := by rw [h7]; rfl
    refine ⟨[placeBit s.acc s.fill b], rfl, ?_, ?_, ?_⟩
    · rw [← hbits, h7', bitsOf_cons, bitsOf_nil, List.append_nil]
      show _ ++ ([] : List Bool) = _
      rw [List.append_nil]
    · rw [h7']; rfl
    · intro j _
      show (0 : Byte).getMsbD j = false
      simp
  · rw [if_neg h7]
    have hne : s.fill.val ≠ 7 := fun e => h7 (Fin.ext e)
    have hfill : (s.fill + 1).val = s.fill.val + 1 := by
      rw [Fin.val_add_one_of_lt' (by omega)]
    refine ⟨[], by simp, ?_, ?_, ?_⟩
    · rw [bitsOf_nil, List.nil_append, ← hbits]
      unfold State.pendingBits
      rw [hfill]
    · rw [hfill]; simp
    · intro j hj
      rw [hfill] at hj
      show (placeBit s.acc s.fill b).getMsbD j = false
      by_cases hj8 : j < 8
      · rw [hbit j hj8, if_neg (by omega), h j (by omega)]
      · exact BitVec.getMsbD_of_ge _ _ (by omega)

/-- Placing a bit-string appends it (R200, R201). -/
theorem putBits_spec (bs : List Bool) (s : State) (h : s.AccClear) :
    ∃ bytes, (bs.foldl putBit s).snk = s.snk ++ bytes ∧
      bitsOf bytes ++ (bs.foldl putBit s).pendingBits = s.pendingBits ++ bs ∧
      8 * bytes.length + (bs.foldl putBit s).fill.val = s.fill.val + bs.length ∧
      (bs.foldl putBit s).AccClear := by
  induction bs generalizing s with
  | nil => exact ⟨[], by simp, by simp, by simp, h⟩
  | cons b bs ih =>
    obtain ⟨xs, h₁, h₂, h₃, h₄⟩ := putBit_spec s b h
    obtain ⟨ys, i₁, i₂, i₃, i₄⟩ := ih (putBit s b) h₄
    refine ⟨xs ++ ys, ?_, ?_, ?_, i₄⟩
    · rw [List.foldl_cons, i₁, h₁, List.append_assoc]
    · rw [List.foldl_cons, bitsOf_append, List.append_assoc, i₂, ← List.append_assoc, h₂]
      simp
    · rw [List.foldl_cons, List.length_append, List.length_cons]
      omega

/-- PACK_SYM of a symbol with a code (R201). -/
theorem packSymbol_done (sym : Byte) (s : State) (hl : 0 < (s.ctAt sym).len.val) (h : s.AccClear) :
    ∃ t bytes, packSymbol sym s = .done t ∧
      bitsOf bytes ++ t.pendingBits = s.pendingBits ++ (s.ctAt sym).toBits ∧
      8 * bytes.length + t.fill.val = s.fill.val + (s.ctAt sym).len.val ∧ t.AccClear ∧
      t = { s with snk := s.snk ++ bytes, acc := t.acc, fill := t.fill } := by
  obtain ⟨bytes, h₁, h₂, h₃, h₄⟩ := putBits_spec (s.ctAt sym).toBits s h
  refine ⟨_, bytes, ?_, h₂, ?_, h₄, ?_⟩
  · unfold packSymbol
    rw [if_neg (by omega)]
  · rw [Code.toBits_length] at h₃
    exact h₃
  · have e := (putBits_frame (s.ctAt sym).toBits s).2
    rw [h₁] at e
    exact e

theorem packSymbol_raised (sym : Byte) (s : State) (hl : (s.ctAt sym).len.val = 0) :
    packSymbol sym s = .raised (s.trap .noCodeForSymbol (zext16 sym)) := by
  unfold packSymbol
  rw [if_pos hl]
  rfl

/-- Packing a sequence of source bytes appends their codes (R202). -/
theorem packAll_done (xs : List Byte) (s : State) (hl : ∀ x ∈ xs, 0 < (s.ctAt x).len.val)
    (h : s.AccClear) :
    ∃ t bytes, forEach (fun b t => packSymbol b t.advance) xs s = .done t ∧
      bitsOf bytes ++ t.pendingBits = s.pendingBits ++ s.codeBits xs ∧ t.AccClear ∧
      8 * bytes.length + t.fill.val = s.fill.val + (s.codeBits xs).length ∧
      t = { s with
        snk := s.snk ++ bytes, acc := t.acc, fill := t.fill, sp := s.sp + xs.length } := by
  induction xs generalizing s with
  | nil => exact ⟨s, [], rfl, by simp [State.codeBits], h, by simp [State.codeBits], by simp⟩
  | cons x xs ih =>
    obtain ⟨u, bs, h₁, h₂, h₃, h₄, h₅⟩ := packSymbol_done x s.advance (hl x (by simp)) h
    have hct : u.ct = s.ct := by rw [h₅]; rfl
    have hctAt : ∀ b, u.ctAt b = s.ctAt b := fun b => by unfold State.ctAt; rw [hct]
    have hcode : ∀ l, u.codeBits l = s.codeBits l := fun l => by
      unfold State.codeBits
      simp only [hctAt]
    have hcons : s.codeBits (x :: xs) = (s.ctAt x).toBits ++ s.codeBits xs := by
      simp [State.codeBits]
    obtain ⟨t, cs, i₁, i₂, i₃, i₄, i₅⟩ := ih u
      (fun y hy => by rw [hctAt]; exact hl y (by simp [hy])) h₄
    have e₂ : bitsOf bs ++ u.pendingBits = s.pendingBits ++ (s.ctAt x).toBits := h₂
    have e₃ : 8 * bs.length + u.fill.val = s.fill.val + (s.ctAt x).len.val := h₃
    refine ⟨t, bs ++ cs, ?_, ?_, i₃, ?_, ?_⟩
    · rw [forEach_cons, h₁, Run.done_andThen, i₁]
    · rw [bitsOf_append, List.append_assoc, i₂, ← List.append_assoc, e₂, hcode, hcons,
        List.append_assoc]
    · rw [hcode] at i₄
      rw [hcons, List.length_append, List.length_append, Code.toBits_length]
      omega
    · have hsp : s.sp + 1 + xs.length = s.sp + (x :: xs).length := by simp; omega
      rw [i₅, h₅, ← hsp]
      simp only [State.advance, List.append_assoc]

theorem packSource_eq (s : State) :
    packSource s = forEach (fun b t => packSymbol b t.advance) s.rest s := by
  rw [packSource, drain_eq_forEach packSymbol_stream]

/-- PACK_RUN at the first source byte without a code (R202, R259). -/
theorem packAll_raised (xs : List Byte) (b : Byte) (ys : List Byte) (s : State)
    (hl : ∀ x ∈ xs, 0 < (s.ctAt x).len.val) (hb : (s.ctAt b).len.val = 0) (h : s.AccClear) :
    ∃ t bytes, forEach (fun b t => packSymbol b t.advance) (xs ++ b :: ys) s = .raised t ∧
      bitsOf bytes ++ t.pendingBits = s.pendingBits ++ s.codeBits xs ∧ t.AccClear ∧
      t = { s with
        snk := s.snk ++ bytes, acc := t.acc, fill := t.fill, sp := s.sp + xs.length + 1,
        err := .noCodeForSymbol, errInfo := zext16 b, phase := .fault } := by
  obtain ⟨t, bytes, h₁, h₂, h₃, _, h₅⟩ := packAll_done xs s hl h
  have hct : t.advance.ctAt b = s.ctAt b := by
    unfold State.ctAt
    rw [State.advance_ct, h₅]
  refine ⟨t.advance.trap .noCodeForSymbol (zext16 b), bytes, ?_, h₂, h₃, ?_⟩
  · rw [forEach_append, h₁, Run.done_andThen, forEach_cons, packSymbol_raised b _ (by rw [hct, hb])]
    rfl
  · rw [h₅]
    rfl

theorem packSource_ne_stuck (s : State) (f : Fault) : packSource s ≠ .stuck f := by
  rw [packSource_eq]
  refine forEach_ne_stuck ?_ _ _ _
  intro x u g
  unfold packSymbol
  split <;> simp

end Sys2Proof.Machine
end

