-- ==== Sys2Proof/Laws/Phases.lean ====
section
/-! SUPPORT. The phase every body leaves: the one of R22 where it completes, `FAULT` with an error where
it raises (R22, R263), and how the bodies of COMPRESS and DECOMPRESS follow one another. -/

namespace Sys2Proof.Machine

/-- A body completes in phase `p`, or raises into `FAULT` with an error. -/
structure Run.Ends (r : Run) (p : Phase) : Prop where
  done : ∀ t, r = .done t → t.phase = p
  raised : ∀ t, r = .raised t → t.phase = .fault ∧ t.err ≠ .noError

/-- A body raises into `FAULT` with an error, if it raises. -/
def Run.Traps (r : Run) : Prop := ∀ t, r = .raised t → t.phase = .fault ∧ t.err ≠ .noError

theorem Run.traps_done (s : State) : (Run.done s).Traps := fun _ h => by cases h

theorem Run.traps_raise (s : State) {k : ErrKind} (h : k ≠ .noError) (info : Word) :
    (s.raise k info).Traps := fun t ht => by cases ht; exact ⟨rfl, h⟩

theorem Run.traps_stuck (f : Fault) : (Run.stuck f).Traps := fun _ h => by cases h

theorem Run.Traps.andThen {r : Run} {k : State → Run} (h : r.Traps) (hk : ∀ s, (k s).Traps) :
    (r.andThen k).Traps := by
  intro t ht
  rcases Run.andThen_eq_raised.1 ht with e | ⟨s, _, e⟩
  · exact h t e
  · exact hk s t e

theorem Run.Traps.forEach {α : Type} {body : α → State → Run} (h : ∀ x s, (body x s).Traps)
    (xs : List α) (s : State) : (forEach body xs s).Traps := by
  induction xs generalizing s with
  | nil => exact Run.traps_done s
  | cons x xs ih => exact (h x s).andThen ih

theorem Run.Traps.drain {body : Byte → State → Run} (h : ∀ x s, (body x s).Traps) (n : Nat)
    (s : State) : (drainFor body n s).Traps := by
  induction n generalizing s with
  | zero => exact Run.traps_done s
  | succ n ih =>
    rw [drainFor]
    split
    · exact Run.traps_done s
    · exact (h _ _).andThen ih

/-- A sequence that ends with a body completing in phase `p` does. -/
theorem Run.Ends.andThen {r : Run} {k : State → Run} {p : Phase} (h : r.Traps)
    (hk : ∀ s, (k s).Ends p) : (r.andThen k).Ends p where
  done t ht := by
    obtain ⟨s, _, e⟩ := Run.andThen_eq_done.1 ht
    exact (hk s).done t e
  raised := h.andThen fun s => (hk s).raised

theorem Run.ends_done {s : State} {p : Phase} (h : s.phase = p) : (Run.done s).Ends p where
  done t ht := by cases ht; exact h
  raised := Run.traps_done s

theorem Run.Ends.traps {r : Run} {p : Phase} (h : r.Ends p) : r.Traps := h.raised

theorem Run.ends_raise (s : State) {k : ErrKind} (h : k ≠ .noError) (info : Word) {p : Phase} :
    (s.raise k info).Ends p where
  done _ ht := by cases ht
  raised := Run.traps_raise s h info

/-! ### The bodies -/

theorem clearAll_ends (s : State) : (clearAll s).Ends .idle := Run.ends_done rfl

theorem rewindSource_ends (s : State) : (rewindSource s).Ends s.phase := Run.ends_done rfl

theorem countSymbol_ends (sym : Byte) (s : State) : (countSymbol sym s).Ends .counting := by
  unfold countSymbol
  split
  · exact Run.ends_raise s (by simp) _
  · exact Run.ends_done rfl

theorem countSource_ends (s : State) : (countSource s).Ends .counting :=
  Run.Ends.andThen (Run.Traps.drain (fun x s => (countSymbol_ends x s).raised) _ _)
    fun _ => Run.ends_done rfl

theorem buildTree_ends (s : State) : (buildTree s).Ends .treeReady := by
  unfold buildTree
  dsimp only
  split
  · exact Run.ends_raise _ (by simp) _
  · split
    · exact Run.ends_raise _ (by simp) _
    · exact Run.ends_done rfl

theorem visit_traps (n : Nat) (i : NodeIx) (path : List Bool) (s : State) :
    (visit n i path s).Traps := by
  induction n generalizing i path s with
  | zero => exact Run.traps_stuck _
  | succ n ih =>
    rw [visit]
    split
    · split
      · exact Run.traps_raise s (by simp) _
      · exact Run.traps_done _
    · exact (ih _ _ _).andThen fun t => ih _ _ t

theorem generateCodes_ends (s : State) : (generateCodes s).Ends .codesReady := by
  refine Run.Ends.andThen ?_ fun _ => Run.ends_done rfl
  unfold assignCodes
  split
  · exact Run.traps_done _
  · exact visit_traps _ _ _ _

theorem writeHeader_ends (s : State) : (writeHeader s).Ends .packing := Run.ends_done rfl

theorem readRecord_traps (r : Nat) (s : State) : (readRecord r s).Traps := by
  unfold readRecord
  split
  · exact Run.traps_raise s (by simp) _
  · dsimp only
    split
    · exact Run.traps_raise _ (by simp) _
    · split
      · exact Run.traps_raise _ (by simp) _
      · split
        · exact Run.traps_raise _ (by simp) _
        · exact Run.traps_done _

theorem readHeader_ends (s : State) : (readHeader s).Ends .tableReady := by
  unfold readHeader
  split
  · exact Run.ends_raise _ (by simp) _
  · split
    · unfold readTable
      split
      · exact Run.ends_raise _ (by simp) _
      · exact Run.Ends.andThen (Run.Traps.forEach readRecord_traps _ _) fun _ => Run.ends_done rfl
    · exact Run.ends_raise _ (by simp) _

theorem packSymbol_ends (sym : Byte) (s : State) : (packSymbol sym s).Ends s.phase := by
  unfold packSymbol
  split
  · exact Run.ends_raise _ (by simp) _
  · refine Run.ends_done ?_
    rw [(putBits_frame _ _).2]

theorem packSource_traps (s : State) : (packSource s).Traps :=
  Run.Traps.drain (fun x s => (packSymbol_ends x s).raised) _ _

theorem packSource_ends (s : State) : (packSource s).Ends s.phase := by
  refine ⟨fun t ht => ?_, packSource_traps s⟩
  unfold packSource at ht
  rw [drain_eq_forEach packSymbol_stream] at ht
  have h : ∀ xs u, forEach (fun b t => packSymbol b t.advance) xs u = .done t →
      t.phase = u.phase := by
    intro xs
    induction xs with
    | nil => intro u hu; cases hu; rfl
    | cons x xs ih =>
      intro u hu
      obtain ⟨v, hv, hvt⟩ := Run.andThen_eq_done.1 hu
      rw [ih v hvt, (packSymbol_ends x u.advance).done v hv]
      rfl
  exact h _ _ ht

theorem flush_ends (s : State) : (flush s).Ends .done := Run.ends_done rfl

theorem unpackBit_traps (b : Bool) (s : State) : (unpackBit b s).Traps := by
  unfold unpackBit
  dsimp only
  split
  · exact Run.traps_done _
  · split
    · exact Run.traps_raise _ (by simp) _
    · exact Run.traps_done _

theorem unpackFor_traps (m : Nat) (s : State) : (unpackFor m s).Traps := by
  induction m generalizing s with
  | zero => exact Run.traps_done s
  | succ m ih =>
    rw [unpackFor]
    split
    · exact Run.traps_done s
    · dsimp only
      exact (Run.Traps.forEach unpackBit_traps _ _).andThen ih

theorem unpackPayload_ends (s : State) : (unpackPayload s).Ends .done := by
  refine Run.Ends.andThen ?_ fun _ => Run.ends_done rfl
  unfold decodePayload
  split
  · split
    · exact Run.traps_raise _ (by simp) _
    · exact Run.traps_done s
  · refine (unpackFor_traps _ _).andThen fun t => ?_
    unfold checkCand
    split
    · exact Run.traps_raise _ (by simp) _
    · exact Run.traps_done t

theorem compressSource_ends (s : State) : (compressSource s).Ends .done := by
  unfold compressSource
  refine Run.Ends.andThen ?_ flush_ends
  refine Run.Traps.andThen ?_ packSource_traps
  refine Run.Traps.andThen ?_ fun t => (rewindSource_ends t).raised
  refine Run.Traps.andThen ?_ fun t => (writeHeader_ends t).raised
  refine Run.Traps.andThen ?_ fun t => (generateCodes_ends t).raised
  refine Run.Traps.andThen ?_ fun t => (buildTree_ends t).raised
  refine Run.Traps.andThen ?_ fun t => (countSource_ends t).raised
  exact (Run.traps_done _).andThen fun t => (rewindSource_ends t).raised

theorem decompressSource_ends (s : State) : (decompressSource s).Ends .done := by
  unfold decompressSource
  refine Run.Ends.andThen ?_ unpackPayload_ends
  exact (Run.traps_done _).andThen fun t => (readHeader_ends t).raised

/-! ### Sequences of commands -/

theorem execAll_append (is js : List Instr) (s : State) :
    execAll (is ++ js) s = match execAll is s with
      | .next t => execAll js t
      | .fault f => .fault f
      | .refused r => .refused r := by
  induction is generalizing s with
  | nil => rfl
  | cons i is ih =>
    rw [List.cons_append, execAll, execAll]
    cases exec i s with
    | next t => exact ih t
    | fault f => rfl
    | refused r => rfl

theorem execAll_singleton (i : Instr) (s : State) : execAll [i] s = exec i s := by
  rw [execAll]
  cases exec i s <;> rfl

/-- The body of every command. -/
def bodyOf : Instr → State → Run
  | .clear => clearAll
  | .rewind => rewindSource
  | .freqByte sym => countSymbol sym
  | .freqRun => countSource
  | .treeBuild => buildTree
  | .codeGen => generateCodes
  | .encHeader => writeHeader
  | .packSym sym => packSymbol sym
  | .packRun => packSource
  | .packFlush => flush
  | .decHeader => readHeader
  | .unpackRun => unpackPayload
  | .compress => compressSource
  | .decompress => decompressSource

/-- Every command is dispatched the same way (R93). -/
theorem exec_eq_issue (i : Instr) (s : State) : exec i s = issue i (bodyOf i) s := by
  cases i <;> rfl

/-- A legal command runs its body (R93). -/
theorem exec_legal {i : Instr} {s : State} (h : legalIn i s.phase = true) :
    exec i s = (bodyOf i s).outcome := by
  rw [exec_eq_issue, issue_legal _ h]

/-- In `FAULT` a command is ignored (R95). -/
theorem exec_ignored {i : Instr} {s : State} (hp : s.phase = .fault) (h : runsInFault i = false) :
    exec i s = .next s := by
  rw [exec_eq_issue, issue_ignored _ hp h]

theorem execAll_ignored {is : List Instr} {s : State} (hp : s.phase = .fault)
    (h : ∀ i ∈ is, runsInFault i = false) : execAll is s = .next s := by
  induction is with
  | nil => rfl
  | cons i is ih =>
    rw [execAll, exec_ignored hp (h i (by simp))]
    exact ih fun j hj => h j (by simp [hj])

/-- The first of a sequence of commands, where the rest is ignored in `FAULT`: the rest runs if it
completes. -/
theorem execAll_cons {i : Instr} {is : List Instr} {s : State} {k : State → Run}
    (hl : legalIn i s.phase = true) (ht : (bodyOf i s).Traps)
    (hi : ∀ j ∈ is, runsInFault j = false)
    (hk : ∀ t, bodyOf i s = .done t → execAll is t = (k t).outcome) :
    execAll (i :: is) s = ((bodyOf i s).andThen k).outcome := by
  rw [execAll, exec_legal hl]
  cases hb : bodyOf i s with
  | done t => exact hk t hb
  | raised t =>
    rw [hb] at ht
    exact execAll_ignored (ht t rfl).1 hi
  | stuck f => rfl

end Sys2Proof.Machine
end

