-- ==== Sys2Proof/Laws/Unpacker.lean ====
section
/-! SUPPORT. Unpacking: the candidate as a bit-string, the match after every bit, and the payload as one
sequence of bits (spec/45_bit_unpacker.md R215 to R217). -/

namespace Sys2Proof.Machine

/-! ### The candidate as a bit-string -/

/-- The state with the bit-string `c` as its candidate (R35). -/
def State.withCand (s : State) (c : List Bool) : State :=
  { s with cand := leftAlign c, candLen := Fin.ofNat 17 c.length }

theorem State.withCand_nil (s : State) : s.withCand [] = s.emptyCand := rfl

theorem State.withCand_of {s : State} {c : List Bool} (h : s.cand = leftAlign c)
    (h' : s.candLen.val = c.length) : s.withCand c = s := by
  have : Fin.ofNat 17 c.length = s.candLen := by
    apply Fin.ext
    have := s.candLen.isLt
    rw [← h']
    simp [Fin.ofNat]
  unfold State.withCand
  rw [this, ← h]

theorem leftAlign_snoc (c : List Bool) (b : Bool) (h : c.length ≤ 15) :
    leftAlign c ||| (if b then (1 : Word) <<< (15 - c.length) else 0) = leftAlign (c ++ [b]) := by
  apply Word.ext_msb
  intro i hi
  rw [BitVec.getMsbD_or, leftAlign_getMsbD _ _ hi, leftAlign_getMsbD _ _ hi]
  have hone : ∀ f k : Fin 16, ((1 : Word) <<< (15 - f.val)).getMsbD k.val = decide (k = f) := by decide
  have hone' : ((1 : Word) <<< (15 - c.length)).getMsbD i = decide (i = c.length) := by
    have := hone ⟨c.length, by omega⟩ ⟨i, hi⟩
    simpa [Fin.ext_iff] using this
  have hb : (if b then (1 : Word) <<< (15 - c.length) else 0).getMsbD i =
      (b && decide (i = c.length)) := by
    cases b
    · simp
    · simpa using hone'
  rw [hb]
  rcases Nat.lt_trichotomy i c.length with hlt | heq | hgt
  · rw [List.getD_eq_getElem _ _ hlt, List.getD_eq_getElem _ _ (by simp; omega),
      List.getElem_append_left hlt]
    have : decide (i = c.length) = false := by simp; omega
    simp [this]
  · subst heq
    rw [List.getD_eq_default _ _ le_rfl, List.getD_eq_getElem _ _ (by simp)]
    simp
  · rw [List.getD_eq_default _ _ (by omega), List.getD_eq_default _ _ (by simp; omega)]
    have : decide (i = c.length) = false := by simp; omega
    simp [this]

theorem State.appendCand_withCand (s : State) (c : List Bool) (b : Bool) (h : c.length ≤ 15) :
    (s.withCand c).appendCand b = s.withCand (c ++ [b]) := by
  have hlen : (s.withCand c).candLen.val = c.length := by
    show (Fin.ofNat 17 c.length).val = _
    simp [Fin.ofNat]; omega
  unfold State.appendCand
  rw [hlen]
  have hcand : (s.withCand c).cand ||| (if b then (1 : Word) <<< (15 - c.length) else 0) =
      leftAlign (c ++ [b]) := leftAlign_snoc c b h
  rw [hcand]
  unfold State.withCand
  rw [List.length_append, List.length_singleton]

/-- The records as a prefix-free set of left-aligned codes (R217). -/
structure State.PrefixFree (s : State) : Prop where
  incomparable : s.records.Pairwise fun e f => Incomparable e.code.toBits f.code.toBits
  aligned : ∀ e ∈ s.records, 1 ≤ e.code.len.val ∧ LeftAligned e.code.len.val e.code.bits

theorem State.records_withCand (s : State) (c : List Bool) : (s.withCand c).records = s.records := rfl

theorem candCode_eq (c : List Bool) (s : State) :
    Code.mk (s.withCand c).candLen (s.withCand c).cand = Code.ofBits c := rfl

/-- The record a candidate matches (R215). -/
theorem State.matchCand_some (s : State) (c : List Bool)
    (ha : ∀ e ∈ s.records, LeftAligned e.code.len.val e.code.bits)
    (hd : s.records.Pairwise fun e f => e.code ≠ f.code) {e : Entry} (he : e ∈ s.records)
    (hm : e.code.toBits = c) : (s.withCand c).matchCand = some e := by
  have hcode : ∀ f ∈ s.records, (f.code == Code.ofBits c) = decide (f.code = e.code) := by
    intro f hf
    have : Code.ofBits c = e.code := by rw [← hm, Code.ofBits_toBits (ha e he)]
    rw [this]
    rfl
  unfold State.matchCand
  rw [State.records_withCand, candCode_eq]
  cases hfind : s.records.find? fun f => f.code == Code.ofBits c with
  | none =>
    have := List.find?_eq_none.1 hfind e he
    rw [hcode e he] at this
    simp at this
  | some f =>
    have hf := List.mem_of_find?_eq_some hfind
    have hp := List.find?_some hfind
    rw [hcode f hf] at hp
    have hfe : f.code = e.code := of_decide_eq_true hp
    congr 1
    by_contra hne
    obtain ⟨i, hi, rfl⟩ := List.mem_iff_getElem.1 hf
    obtain ⟨j, hj, rfl⟩ := List.mem_iff_getElem.1 he
    have hpw := List.pairwise_iff_getElem.1 hd
    rcases Nat.lt_trichotomy i j with hij | hij | hij
    · exact hpw i j hi hj hij hfe
    · subst hij; exact hne rfl
    · exact hpw j i hj hi hij hfe.symm

theorem State.matchCand_none (s : State) (c : List Bool) (hc : c.length ≤ 16)
    (hm : ∀ e ∈ s.records, e.code.toBits ≠ c) : (s.withCand c).matchCand = none := by
  unfold State.matchCand
  rw [State.records_withCand, candCode_eq, List.find?_eq_none]
  intro e he hcode
  have := eq_of_beq hcode
  exact hm e he (by rw [this, Code.toBits_ofBits hc])

/-- A bit that completes a code (R215). -/
theorem unpackBit_match (s : State) (c : List Bool) (b : Bool) (hc : c.length ≤ 15)
    (ha : ∀ e ∈ s.records, LeftAligned e.code.len.val e.code.bits)
    (hd : s.records.Pairwise fun e f => e.code ≠ f.code) {e : Entry} (he : e ∈ s.records)
    (hm : e.code.toBits = c ++ [b]) :
    unpackBit b (s.withCand c) = .done (s.sinkWrite e.sym).emptyCand := by
  unfold unpackBit
  dsimp only
  rw [State.appendCand_withCand s c b hc,
    State.matchCand_some s (c ++ [b]) ha hd he hm]
  rfl

/-- A bit that completes no code, before the candidate is full (R215). -/
theorem unpackBit_more (s : State) (c : List Bool) (b : Bool) (hc : c.length ≤ 14)
    (hm : ∀ e ∈ s.records, e.code.toBits ≠ c ++ [b]) :
    unpackBit b (s.withCand c) = .done (s.withCand (c ++ [b])) := by
  unfold unpackBit
  dsimp only
  rw [State.appendCand_withCand s c b (by omega),
    State.matchCand_none s (c ++ [b]) (by simp; omega) hm]
  dsimp only
  rw [if_neg]
  intro h
  have : (s.withCand (c ++ [b])).candLen.val = c.length + 1 := by
    show (Fin.ofNat 17 (c ++ [b]).length).val = _
    simp [Fin.ofNat]; omega
  rw [h] at this
  have h16 : (16 : Fin 17).val = 16 := rfl
  omega

/-- A sixteenth bit that completes no code (R215, R258). -/
theorem unpackBit_full (s : State) (c : List Bool) (b : Bool) (hc : c.length = 15)
    (hm : ∀ e ∈ s.records, e.code.toBits ≠ c ++ [b]) :
    unpackBit b (s.withCand c) =
      .raised ((s.withCand (c ++ [b])).trap .unmatchedCode (leftAlign (c ++ [b]))) := by
  unfold unpackBit
  dsimp only
  rw [State.appendCand_withCand s c b (by omega),
    State.matchCand_none s (c ++ [b]) (by simp; omega) hm]
  dsimp only
  rw [if_pos]
  · rfl
  · apply Fin.ext
    show (Fin.ofNat 17 (c ++ [b]).length).val = _
    rw [List.length_append, hc]
    rfl

/-! ### Runs of bits -/

/-- Bits along which no code ends only lengthen the candidate (R215). -/
theorem unpackBits_more (bs : List Bool) (s : State) (c : List Bool) (hlen : c.length + bs.length ≤ 15)
    (hm : ∀ p, p <+: bs → p ≠ [] → ∀ e ∈ s.records, e.code.toBits ≠ c ++ p) :
    forEach unpackBit bs (s.withCand c) = .done (s.withCand (c ++ bs)) := by
  induction bs generalizing c with
  | nil => rw [List.append_nil]; rfl
  | cons b bs ih =>
    rw [List.length_cons] at hlen
    rw [forEach_cons, unpackBit_more s c b (by omega)
      (hm [b] (by simp) (by simp)), Run.done_andThen, ih (c ++ [b])]
    · rw [List.append_assoc]; rfl
    · rw [List.length_append, List.length_singleton]; omega
    · intro p hp _ e he
      rw [List.append_assoc]
      exact hm (b :: p) (by simpa using hp) (by simp) e he

theorem State.PrefixFree.distinct {s : State} (h : s.PrefixFree) :
    s.records.Pairwise fun e f => e.code ≠ f.code := by
  refine h.incomparable.imp ?_
  intro e f hef heq
  rw [heq] at hef
  exact hef.1 List.prefix_rfl

theorem State.PrefixFree.eq_of_prefix {s : State} (h : s.PrefixFree) {e f : Entry}
    (he : e ∈ s.records) (hf : f ∈ s.records) (hp : e.code.toBits <+: f.code.toBits) : e = f := by
  by_contra hne
  have hsymm : ∀ a b : Entry, Incomparable a.code.toBits b.code.toBits →
      Incomparable b.code.toBits a.code.toBits := fun _ _ hab => ⟨hab.2, hab.1⟩
  obtain ⟨i, hi, rfl⟩ := List.mem_iff_getElem.1 he
  obtain ⟨j, hj, rfl⟩ := List.mem_iff_getElem.1 hf
  have hpw := List.pairwise_iff_getElem.1 h.incomparable
  rcases Nat.lt_trichotomy i j with hij | hij | hij
  · exact (hpw i j hi hj hij).1 hp
  · subst hij; exact hne rfl
  · exact (hpw j i hj hi hij).2 hp

theorem Code.toBits_length_le (c : Code) : c.toBits.length ≤ 16 := by
  rw [Code.toBits_length]; have := c.len.isLt; omega

/-- The bits of a code, from an empty candidate, emit its symbol and leave an empty candidate
(R217). -/
theorem unpackBits_code (s : State) (h : s.PrefixFree) {e : Entry} (he : e ∈ s.records) :
    forEach unpackBit e.code.toBits s.emptyCand = .done (s.sinkWrite e.sym).emptyCand := by
  have hne : e.code.toBits ≠ [] := by
    intro h0
    have := e.code.toBits_length
    rw [h0] at this
    have := (h.aligned e he).1
    simp at *
    omega
  obtain ⟨c, b, hcb⟩ : ∃ c b, e.code.toBits = c ++ [b] :=
    ⟨_, _, (List.dropLast_append_getLast hne).symm⟩
  have hlen : c.length ≤ 15 := by
    have := e.code.toBits_length_le
    rw [hcb, List.length_append, List.length_singleton] at this
    omega
  rw [hcb, forEach_append, ← State.withCand_nil, unpackBits_more c s [] (by simpa using hlen)]
  · rw [Run.done_andThen, List.nil_append, forEach_cons,
      unpackBit_match s c b hlen (fun e he => (h.aligned e he).2) h.distinct he hcb]
    rfl
  · intro p hp _ f hf heq
    rw [List.nil_append] at heq
    have hpre : f.code.toBits <+: e.code.toBits := by
      rw [heq, hcb]
      exact hp.trans (List.prefix_append _ _)
    have := h.eq_of_prefix hf he hpre
    subst this
    rw [hcb] at heq
    have := hp.length_le
    rw [← heq, List.length_append, List.length_singleton] at this
    omega

/-- The concatenation of codes decodes to their symbols (R217). -/
theorem unpackBits_codes (ys : List Entry) (s : State) (h : s.PrefixFree)
    (hy : ∀ y ∈ ys, y ∈ s.records) :
    forEach unpackBit (ys.flatMap fun y => y.code.toBits) s.emptyCand =
      .done (s.sinkWrites (ys.map fun y => y.sym)).emptyCand := by
  induction ys generalizing s with
  | nil =>
    show Run.done s.emptyCand = _
    unfold State.sinkWrites
    simp
  | cons y ys ih =>
    rw [List.flatMap_cons, forEach_append, unpackBits_code s h (hy y (by simp)), Run.done_andThen,
      ih (s.sinkWrite y.sym) ⟨h.incomparable, h.aligned⟩ fun z hz => hy z (by simp [hz])]
    unfold State.sinkWrites State.sinkWrite
    simp

/-! ### The payload as one sequence of bits -/

/-- The bits UNPACK_RUN consumes of the payload bytes (R216). -/
def consumedBits (pad : Fin 8) : List Byte → List Bool
  | [] => []
  | [b] => payloadBits b (8 - pad.val)
  | b :: c :: bs => payloadBits b 8 ++ consumedBits pad (c :: bs)

theorem payloadBits_length (b : Byte) (n : Nat) : (payloadBits b n).length = n := by simp [payloadBits]

theorem payloadBits_take (b : Byte) (n : Nat) (h : n ≤ 8) :
    payloadBits b n = (payloadBits b 8).take n := by
  unfold payloadBits
  rw [← List.map_take, List.take_range, Nat.min_eq_left h]

/-- They are all bits but the last `PAD` (R216). -/
theorem consumedBits_eq (pad : Fin 8) (bs : List Byte) (h : bs ≠ []) :
    consumedBits pad bs = (bitsOf bs).take (8 * bs.length - pad.val) := by
  induction bs with
  | nil => exact absurd rfl h
  | cons b bs ih =>
    have hp := pad.isLt
    cases bs with
    | nil =>
      rw [consumedBits, payloadBits_take _ _ (by omega), bitsOf_cons, bitsOf_nil, List.append_nil]
      rfl
    | cons c bs =>
      rw [consumedBits, ih (by simp), bitsOf_cons b]
      have e : 8 * (b :: c :: bs).length - pad.val =
          (payloadBits b 8).length + (8 * (c :: bs).length - pad.val) := by
        rw [payloadBits_length]
        simp only [List.length_cons]
        omega
      rw [e]
      exact (List.take_length_add_append _).symm

/-- The same state at another source position. -/
def State.atSp (s : State) (n : Nat) : State := { s with sp := n }

/-- Apply a change of position to the state a body leaves. -/
def Run.atSp (n : Nat) : Run → Run
  | .done s => .done (s.atSp n)
  | .raised s => .raised (s.atSp n)
  | .stuck f => .stuck f

/-- Consuming a bit neither reads nor moves the source position. -/
theorem unpackBit_atSp (b : Bool) (s : State) (n : Nat) :
    unpackBit b (s.atSp n) = (unpackBit b s).atSp n := by
  unfold unpackBit
  dsimp only
  have hm : ((s.atSp n).appendCand b).matchCand = (s.appendCand b).matchCand := rfl
  rw [hm]
  cases (s.appendCand b).matchCand with
  | some e => rfl
  | none =>
    dsimp only
    have hl : ((s.atSp n).appendCand b).candLen = (s.appendCand b).candLen := rfl
    rw [hl]
    split <;> rfl

theorem unpackBits_atSp (bs : List Bool) (s : State) (n : Nat) :
    forEach unpackBit bs (s.atSp n) = (forEach unpackBit bs s).atSp n := by
  induction bs generalizing s with
  | nil => rfl
  | cons b bs ih =>
    rw [forEach_cons, forEach_cons, unpackBit_atSp]
    cases unpackBit b s with
    | done t => exact ih t
    | raised t => rfl
    | stuck f => rfl

theorem unpackBits_inputs (bs : List Bool) (s t : State) (h : forEach unpackBit bs s = .done t) :
    t.src = s.src ∧ t.sp = s.sp ∧ t.pad = s.pad := by
  induction bs generalizing s with
  | nil => cases h; exact ⟨rfl, rfl, rfl⟩
  | cons b bs ih =>
    obtain ⟨u, hu, hut⟩ := Run.andThen_eq_done.1 h
    obtain ⟨h₁, h₂, h₃⟩ := ih u hut
    have : u.src = s.src ∧ u.sp = s.sp ∧ u.pad = s.pad := by
      unfold unpackBit at hu
      dsimp only at hu
      split at hu
      · cases hu; exact ⟨rfl, rfl, rfl⟩
      · split at hu
        · cases hu
        · cases hu; exact ⟨rfl, rfl, rfl⟩
    exact ⟨h₁.trans this.1, h₂.trans this.2.1, h₃.trans this.2.2⟩

theorem nextByte {s : State} {b : Byte} {bs : List Byte} (h : s.rest = b :: bs) :
    s.srcByte = some b ∧ s.advance.rest = bs := by
  rw [State.srcByte_eq, State.rest_advance, h]
  exact ⟨rfl, rfl⟩

/-- The payload loop where every bit is consumed without a raise (R216). -/
theorem unpackFor_done (bs : List Byte) (s t : State) (hrest : s.rest = bs)
    (h : forEach unpackBit (consumedBits s.pad bs) s = .done t) :
    unpackFor bs.length s = .done (t.atSp (s.sp + bs.length)) := by
  induction bs generalizing s t with
  | nil =>
    cases h
    rfl
  | cons b bs ih =>
    obtain ⟨hbyte, hadv⟩ := nextByte hrest
    rw [List.length_cons, unpackFor, hbyte]
    dsimp only
    have hsplit : consumedBits s.pad (b :: bs) =
        payloadBits b (if bs.length = 0 then 8 - s.pad.val else 8) ++ consumedBits s.pad bs := by
      cases bs with
      | nil => simp [consumedBits]
      | cons c bs => rw [consumedBits]; simp
    rw [hsplit, forEach_append] at h
    obtain ⟨u, hu, hut⟩ := Run.andThen_eq_done.1 h
    have hadv' : s.advance = s.atSp (s.sp + 1) := rfl
    rw [hadv', unpackBits_atSp, hu]
    obtain ⟨e₁, e₂, e₃⟩ := unpackBits_inputs _ _ _ hu
    have hrest' : (u.atSp (s.sp + 1)).rest = bs := by
      rw [← hadv]
      show u.src.drop (s.sp + 1) = s.src.drop (s.sp + 1)
      rw [e₁]
    have hpad : (u.atSp (s.sp + 1)).pad = s.pad := e₃
    show unpackFor bs.length (u.atSp (s.sp + 1)) = _
    rw [ih (u.atSp (s.sp + 1)) (t.atSp (s.sp + 1)) hrest'
      (by rw [hpad, unpackBits_atSp, hut]; rfl)]
    show Run.done (t.atSp (s.sp + 1 + bs.length)) = _
    rw [show s.sp + 1 + bs.length = s.sp + (bs.length + 1) by omega]

/-- The payload loop where bit `pre.length` raises: the byte that holds it has been consumed (R216). -/
theorem unpackFor_raised (bs : List Byte) (s u v : State) (pre post : List Bool) (b : Bool)
    (hrest : s.rest = bs) (hbits : consumedBits s.pad bs = pre ++ b :: post)
    (hpre : forEach unpackBit pre s = .done u) (hb : unpackBit b u = .raised v) :
    unpackFor bs.length s = .raised (v.atSp (s.sp + pre.length / 8 + 1)) := by
  induction bs generalizing s u v pre with
  | nil => rw [consumedBits] at hbits; simp at hbits
  | cons c bs ih =>
    obtain ⟨hbyte, hadv⟩ := nextByte hrest
    rw [List.length_cons, unpackFor, hbyte]
    dsimp only
    have hsplit : consumedBits s.pad (c :: bs) =
        payloadBits c (if bs.length = 0 then 8 - s.pad.val else 8) ++ consumedBits s.pad bs := by
      cases bs with
      | nil => simp [consumedBits]
      | cons d bs => rw [consumedBits]; simp
    have hadv' : s.advance = s.atSp (s.sp + 1) := rfl
    rw [hadv', unpackBits_atSp]
    generalize hn : (if bs.length = 0 then 8 - s.pad.val else 8) = n at hsplit ⊢
    have hn8 : n ≤ 8 := by rw [← hn]; split <;> omega
    have hplen : (payloadBits c n).length = n := payloadBits_length c n
    by_cases hlt : pre.length < n
    · -- the bit is in this byte
      have hthis : ∃ post', payloadBits c n = pre ++ b :: post' := by
        have e := hsplit.symm.trans hbits
        have e' : payloadBits c n = (pre ++ b :: post).take n := by
          rw [← e, List.take_left' hplen]
        refine ⟨post.take (n - pre.length - 1), ?_⟩
        rw [e', List.take_append, List.take_of_length_le (by omega)]
        congr 1
        rw [show n - pre.length = (n - pre.length - 1) + 1 by omega, List.take_succ_cons]
        rfl
      obtain ⟨post', hpost'⟩ := hthis
      have hrun : forEach unpackBit (payloadBits c n) s = .raised v := by
        rw [hpost', forEach_append, hpre, Run.done_andThen, forEach_cons, hb]
        rfl
      rw [hrun]
      show Run.raised (v.atSp (s.sp + 1)) = _
      rw [Nat.div_eq_of_lt (by omega)]
    · -- the bit is in a later byte
      have hbsne : bs ≠ [] := by
        rintro rfl
        rw [consumedBits, List.append_nil] at hsplit
        have := congrArg List.length (hsplit.symm.trans hbits)
        rw [hplen, List.length_append, List.length_cons] at this
        omega
      have hn8' : n = 8 := by
        rw [← hn, if_neg]
        intro e
        exact hbsne (List.length_eq_zero_iff.1 e)
      subst hn8'
      have e := hsplit.symm.trans hbits
      have hpre' : pre = payloadBits c 8 ++ pre.drop 8 := by
        have : payloadBits c 8 = pre.take 8 := by
          have h1 : payloadBits c 8 = (pre ++ b :: post).take 8 := by
            rw [← e, List.take_left' hplen]
          rw [h1, List.take_append_of_le_length (by omega)]
        rw [this, List.take_append_drop]
      have hrest2 : consumedBits s.pad bs = pre.drop 8 ++ b :: post := by
        have h1 : consumedBits s.pad bs = (pre ++ b :: post).drop 8 := by
          rw [← e, List.drop_left' hplen]
        rw [h1, List.drop_append_of_le_length (by omega)]
      rw [hpre', forEach_append] at hpre
      obtain ⟨w, hw, hwu⟩ := Run.andThen_eq_done.1 hpre
      obtain ⟨e₁, e₂, e₃⟩ := unpackBits_inputs _ _ _ hw
      have hrest' : (w.atSp (s.sp + 1)).rest = bs := by
        rw [← hadv]
        show w.src.drop (s.sp + 1) = s.src.drop (s.sp + 1)
        rw [e₁]
      rw [hw]
      show unpackFor bs.length (w.atSp (s.sp + 1)) = _
      have hu' : forEach unpackBit (pre.drop 8) (w.atSp (s.sp + 1)) = .done (u.atSp (s.sp + 1)) := by
        rw [unpackBits_atSp, hwu]; rfl
      have hb' : unpackBit b (u.atSp (s.sp + 1)) = .raised (v.atSp (s.sp + 1)) := by
        rw [unpackBit_atSp, hb]; rfl
      have hpad : (w.atSp (s.sp + 1)).pad = s.pad := e₃
      rw [ih (w.atSp (s.sp + 1)) (u.atSp (s.sp + 1)) (v.atSp (s.sp + 1)) (pre.drop 8) hrest'
        (by rw [hpad]; exact hrest2) hu' hb']
      show Run.raised (v.atSp (s.sp + 1 + (pre.drop 8).length / 8 + 1)) = _
      rw [List.length_drop, show s.sp + 1 + (pre.length - 8) / 8 + 1 = s.sp + pre.length / 8 + 1 by omega]

/-! ### UNPACK_RUN -/

theorem decodePayload_nil (s : State) (h : s.rest = []) :
    unpackPayload s = if s.pad = 0 then .done { s with phase := .done }
      else .raised (s.trap .truncatedPayload 0) := by
  unfold unpackPayload decodePayload
  rw [State.srcRemaining_eq, h]
  simp only [List.length_nil, if_true]
  by_cases hp : s.pad = 0
  · simp [hp]
  · simp [hp]

/-- UNPACK_RUN where no bit raises (R216). -/
theorem unpackPayload_done (s t : State) (h : s.rest ≠ [])
    (hrun : forEach unpackBit (consumedBits s.pad s.rest) s = .done t) :
    unpackPayload s =
      if t.candLen = 0 then .done { t with sp := s.sp + s.rest.length, phase := .done }
      else .raised ((t.atSp (s.sp + s.rest.length)).trap .truncatedPayload
        (BitVec.ofNat 16 t.candLen.val)) := by
  have hlen : s.rest.length ≠ 0 := fun e => h (List.length_eq_zero_iff.1 e)
  unfold unpackPayload decodePayload
  rw [State.srcRemaining_eq, if_neg hlen, unpackFor_done s.rest s t rfl hrun, Run.done_andThen]
  unfold checkCand
  have hc : (t.atSp (s.sp + s.rest.length)).candLen = t.candLen := rfl
  rw [hc]
  by_cases h0 : t.candLen = 0
  · rw [if_neg (fun hne => hne h0), if_pos h0]
    rfl
  · rw [if_pos h0, if_neg h0]
    rfl

/-- UNPACK_RUN where a bit raises (R215, R216). -/
theorem unpackPayload_raised (s u v : State) (pre post : List Bool) (b : Bool) (h : s.rest ≠ [])
    (hbits : consumedBits s.pad s.rest = pre ++ b :: post) (hpre : forEach unpackBit pre s = .done u)
    (hb : unpackBit b u = .raised v) :
    unpackPayload s = .raised (v.atSp (s.sp + pre.length / 8 + 1)) := by
  have hlen : s.rest.length ≠ 0 := fun e => h (List.length_eq_zero_iff.1 e)
  unfold unpackPayload decodePayload
  rw [State.srcRemaining_eq, if_neg hlen, unpackFor_raised s.rest s u v pre post b rfl hbits hpre hb]
  rfl

theorem unpackBit_ne_stuck (b : Bool) (s : State) (f : Fault) : unpackBit b s ≠ .stuck f := by
  unfold unpackBit
  dsimp only
  split
  · simp
  · split <;> simp

theorem unpackFor_ne_stuck (m : Nat) (s : State) (f : Fault) : unpackFor m s ≠ .stuck f := by
  induction m generalizing s with
  | zero => simp [unpackFor]
  | succ m ih =>
    rw [unpackFor]
    split
    · simp
    · dsimp only
      rw [Ne, Run.andThen_eq_stuck]
      rintro (e | ⟨t, _, e⟩)
      · exact forEach_ne_stuck unpackBit_ne_stuck _ _ _ e
      · exact ih t e

theorem unpackPayload_ne_stuck (s : State) (f : Fault) : unpackPayload s ≠ .stuck f := by
  have h : decodePayload s ≠ .stuck f := by
    unfold decodePayload
    split
    · split <;> simp
    · rw [Ne, Run.andThen_eq_stuck]
      rintro (e | ⟨t, _, e⟩)
      · exact unpackFor_ne_stuck _ _ _ e
      · unfold checkCand at e
        split at e <;> simp at e
  unfold unpackPayload
  rw [Ne, Run.andThen_eq_stuck]
  rintro (e | ⟨t, _, e⟩)
  · exact h e
  · cases e

/-- The bits of a payload that is a sequence of bits and the declared padding (R216, R217). -/
theorem consumedBits_of_padded (pad : Fin 8) (bytes : List Byte) (bits padding : List Bool)
    (h : bytes ≠ []) (hp : padding.length = pad.val) (hb : bitsOf bytes = bits ++ padding) :
    consumedBits pad bytes = bits := by
  have hlen := bitsOf_length bytes
  rw [hb, List.length_append, hp] at hlen
  rw [consumedBits_eq pad bytes h, hb, List.take_left' (by omega)]

/-- UNPACK_RUN over a prefix-free table, of the codes of `ys` and any padding bits (R217). -/
theorem unpackPayload_codes (s : State) (ys : List Entry) (padding : List Bool)
    (h0 : s.emptyCand = s) (hsp : s.sp ≤ s.src.length) (hpf : s.PrefixFree)
    (hy : ∀ y ∈ ys, y ∈ s.records) (hp : padding.length = s.pad.val)
    (hb : bitsOf s.rest = ys.flatMap (fun y => y.code.toBits) ++ padding) :
    unpackPayload s = .done { s with
      snk := s.snk ++ ys.map (fun y => y.sym), sp := s.src.length, phase := .done } := by
  have hlen : s.sp + s.rest.length = s.src.length := by
    unfold State.rest
    rw [List.length_drop]; omega
  by_cases hr : s.rest = []
  · rw [decodePayload_nil s hr]
    rw [hr, bitsOf_nil] at hb
    obtain ⟨h₁, h₂⟩ := List.append_eq_nil_iff.1 hb.symm
    rw [h₂] at hp
    have hpad : s.pad = 0 := Fin.ext (by simpa using hp.symm)
    have hys : ys = [] := by
      cases ys with
      | nil => rfl
      | cons y ys =>
        rw [List.flatMap_cons] at h₁
        have := (hpf.aligned y (hy y (by simp))).1
        have e := congrArg List.length (List.append_eq_nil_iff.1 h₁).1
        rw [Code.toBits_length] at e
        simp only [List.length_nil] at e
        omega
    rw [if_pos hpad, hys]
    rw [hr] at hlen
    simp only [List.length_nil, Nat.add_zero] at hlen
    simp [← hlen]
  · have hrun := unpackBits_codes ys s hpf hy
    rw [h0, ← consumedBits_of_padded s.pad s.rest _ padding hr hp hb] at hrun
    have hcl' : (s.sinkWrites (ys.map fun y => y.sym)).emptyCand.candLen = 0 := rfl
    rw [unpackPayload_done s _ hr hrun, if_pos hcl', hlen]
    conv_rhs => rw [← h0]
    rfl

end Sys2Proof.Machine
end

