-- ==== Sys2Proof/Laws/Invariant.lean ====
section
/-! SUPPORT. The invariant, body by body: the facts that hold in every phase (`FieldsOk`), that a trap
keeps them, and what each body of a command leaves. -/

namespace Sys2Proof.Machine

/-- The part of the invariant that does not depend on the phase (R27, R29, R32 to R36). -/
structure FieldsOk (s : State) : Prop where
  totalEq : s.total = s.ft.cells.sum
  totalLe : s.total ≤ s.cfg.maxCount
  freqLe : ∀ i : NodeIx, s.freqOf i ≤ s.cfg.maxCount
  spLe : Memory.wf s
  wlSize : s.wl.length + s.wlStale.length = 256
  accClear : s.AccClear
  candClear : LeftAligned s.candLen.val s.cand
  ctClear : ∀ b : Byte, LeftAligned (s.ctAt b).len.val (s.ctAt b).bits
  itClear : ∀ r, LeftAligned (s.it.get r).code.len.val (s.it.get r).code.bits

theorem State.Inv.fields {s : State} (h : s.Inv) : FieldsOk s :=
  ⟨h.totalEq, h.totalLe, h.freqLe, h.spLe, h.wlSize, h.accClear, h.candClear, h.ctClear, h.itClear⟩

/-! ### The byte spaces: every operation keeps `SP` inside the source -/

theorem memory_wf_reset : Memory.wf State.reset := Nat.zero_le _

theorem memory_wf_srcRewind (s : State) : Memory.wf s.srcRewind := Nat.zero_le _

theorem memory_wf_advance {s : State} {b : Byte} (h : s.srcByte = some b) : Memory.wf s.advance :=
  (List.getElem?_eq_some_iff.1 h).1

theorem memory_wf_srcReads (n : Nat) {s : State} (h : Memory.wf s) :
    Memory.wf (State.srcReads n s).2 := by
  induction n generalizing s with
  | zero => exact h
  | succ n ih =>
    rw [State.srcReads]
    split
    · exact h
    · next hb => exact ih (memory_wf_advance hb)

theorem memory_wf_sinkWrites {s : State} (bs : List Byte) (h : Memory.wf s) :
    Memory.wf (s.sinkWrites bs) := h

theorem memory_wf_attach (s : State) (before after : List Byte) :
    Memory.wf (s.attach before after) := by
  show before.length ≤ (before ++ after).length
  simp

/-! ### Traps and clearing -/

/-- Trap entry leaves the invariant, whatever partial result stands (R23, R263, R265). -/
theorem FieldsOk.trap {s : State} (h : FieldsOk s) {k : ErrKind} (hk : k ≠ .noError)
    (hio : k ≠ .ioError) (info : Word) : (s.trap k info).Inv where
  errIff := ⟨fun _ => rfl, fun _ => hk⟩
  errInfoZero e := absurd e hk
  noIoError := hio
  totalEq := h.totalEq
  totalLe := h.totalLe
  freqLe := h.freqLe
  spLe := h.spLe
  wlSize := h.wlSize
  accClear := h.accClear
  candClear := h.candClear
  candShort e := absurd rfl e
  ctClear := h.ctClear
  itClear := h.itClear
  idleFresh e := by cases e
  countingFresh e := by cases e
  ctFresh e := by cases e
  tree e := by cases e
  codes e := by cases e
  table e := by cases e

/-- CLEAR leaves the invariant (R230). -/
theorem State.Inv.clear {s : State} (h : Memory.wf s) : s.clear.Inv where
  errIff := by simp [State.clear]
  errInfoZero _ := rfl
  noIoError := by simp [State.clear]
  totalEq := by
    show 0 = (List.replicate 256 0).sum
    rw [List.sum_replicate]
    rfl
  totalLe := Nat.zero_le _
  freqLe i := by
    show ((Table.fill 511 Node.zero).get i).freq ≤ _
    rw [Table.get_fill]
    exact Nat.zero_le _
  spLe := h
  wlSize := by
    show ([] : List NodeIx).length + State.reset.wlStale.length = 256
    rw [State.reset_wlStale, List.length_replicate]
    rfl
  accClear _ _ := by simp [State.clear]
  candClear := leftAligned_zero _
  candShort _ := by simp [State.clear]
  ctClear b := by
    have e : s.clear.ctAt b = Code.zero := Table.get_fill _ _
    rw [e]
    exact leftAligned_zero _
  itClear r := by
    have e : s.clear.it.get r = Entry.zero := Table.get_fill _ _
    rw [e]
    exact leftAligned_zero _
  idleFresh _ := rfl
  countingFresh e := by cases e
  ctFresh e := by cases e
  tree e := by cases e
  codes e := by cases e
  table e := by cases e

/-- The invariant says of the source, the host and the last host read only that `SP` is inside the
source (R36). -/
theorem State.Inv.withInputs {s : State} (h : s.Inv) (src : List Byte) {sp : Nat}
    (hsp : sp ≤ src.length) (host : List HostEvent) (rdata : Nat) :
    ({ s with src := src, sp := sp, host := host, rdata := rdata } : State).Inv where
  errIff := h.errIff
  errInfoZero := h.errInfoZero
  noIoError := h.noIoError
  totalEq := h.totalEq
  totalLe := h.totalLe
  freqLe := h.freqLe
  spLe := hsp
  wlSize := h.wlSize
  accClear := h.accClear
  candClear := h.candClear
  candShort := h.candShort
  ctClear := h.ctClear
  itClear := h.itClear
  idleFresh e := by
    have := h.idleFresh e
    show ({ s.clear with src := src, sp := sp, host := host, rdata := rdata } : State) =
      { s with src := src, sp := sp, host := host, rdata := rdata }
    rw [this]
  countingFresh e := by
    have := h.countingFresh e
    show ({ ({ s.clear with phase := .counting, ft := s.ft, total := s.total } : State) with
        src := src, sp := sp, host := host, rdata := rdata } : State) =
      { s with src := src, sp := sp, host := host, rdata := rdata }
    rw [this]
  ctFresh := h.ctFresh
  tree e := by
    have := h.tree e
    exact ⟨this.1, this.2, this.3, this.4, this.5, this.6, this.7, this.8⟩
  codes e := ⟨(h.codes e).1, (h.codes e).2⟩
  table e := ⟨(h.table e).1, (h.table e).2, (h.table e).3, (h.table e).4, (h.table e).5⟩

/-- Reading one source byte keeps the invariant (R36). -/
theorem State.Inv.advance {s : State} {b : Byte} (h : s.Inv) (hb : s.srcByte = some b) :
    s.advance.Inv := h.withInputs s.src (memory_wf_advance hb) s.host s.rdata

/-- REWIND keeps the invariant (R231). -/
theorem State.Inv.srcRewind {s : State} (h : s.Inv) : s.srcRewind.Inv :=
  h.withInputs s.src (Nat.zero_le _) s.host s.rdata

/-! ### The bodies -/

/-- A body that completes leaves `Q`, and one that raises leaves the invariant. -/
structure Run.Leaves (r : Run) (Q : State → Prop) : Prop where
  done : ∀ t, r = .done t → Q t
  raised : ∀ t, r = .raised t → t.Inv

theorem Run.leaves_done {s : State} {Q : State → Prop} (h : Q s) : (Run.done s).Leaves Q where
  done t ht := by cases ht; exact h
  raised t ht := by cases ht

theorem Run.leaves_raise {s : State} (h : FieldsOk s) {k : ErrKind} (hk : k ≠ .noError)
    (hio : k ≠ .ioError) (info : Word) (Q : State → Prop) : (s.raise k info).Leaves Q where
  done t ht := by cases ht
  raised t ht := by cases ht; exact h.trap hk hio info

theorem Run.Leaves.andThen {r : Run} {k : State → Run} {P Q : State → Prop} (h : r.Leaves P)
    (hk : ∀ s, P s → (k s).Leaves Q) : (r.andThen k).Leaves Q where
  done t ht := by
    obtain ⟨s, hs, e⟩ := Run.andThen_eq_done.1 ht
    exact (hk s (h.done s hs)).done t e
  raised t ht := by
    rcases Run.andThen_eq_raised.1 ht with e | ⟨s, hs, e⟩
    · exact h.raised t e
    · exact (hk s (h.done s hs)).raised t e

theorem Run.Leaves.forEach {α : Type} {body : α → State → Run} {Q : State → Prop}
    (h : ∀ x s, Q s → (body x s).Leaves Q) (xs : List α) {s : State} (hs : Q s) :
    (forEach body xs s).Leaves Q := by
  induction xs generalizing s with
  | nil => exact Run.leaves_done hs
  | cons x xs ih => exact (h x s hs).andThen fun t ht => ih ht

theorem Run.Leaves.drain {body : Byte → State → Run} {Q : State → Prop}
    (h : ∀ b s, Q s → s.srcByte = some b → (body b s.advance).Leaves Q) (n : Nat) {s : State}
    (hs : Q s) : (drainFor body n s).Leaves Q := by
  induction n generalizing s with
  | zero => exact Run.leaves_done hs
  | succ n ih =>
    rw [drainFor]
    split
    · exact Run.leaves_done hs
    · next b hb => exact (h b s hs hb).andThen fun t ht => ih ht

/-- The phases in which counting is legal, with the invariant. -/
abbrev CountInv (s : State) : Prop := s.Inv ∧ (s.phase = .idle ∨ s.phase = .counting)

theorem CountInv.fresh {s : State} (h : CountInv s) :
    { s.clear with phase := s.phase, ft := s.ft, total := s.total } = s := by
  rcases h.2 with hp | hp
  · have := h.1.idleFresh hp
    conv_lhs => rw [this]
  · have := h.1.countingFresh hp
    rw [hp]
    exact this

/-- A state with only the frequency table written, in `COUNTING` (R21, R22). -/
theorem countingInv {s : State} (h : CountInv s) (ft : Table Nat 256) (total : Nat)
    (h₁ : total = ft.cells.sum) (h₂ : total ≤ s.cfg.maxCount) :
    ({ s with ft := ft, total := total, phase := .counting } : State).Inv := by
  have hf := h.fresh
  have hc : ({ s with ft := ft, total := total, phase := .counting } : State) =
      { s.clear with ft := ft, total := total, phase := .counting } := by
    conv_lhs => rw [← hf]
  have hi := State.Inv.clear h.1.spLe
  rw [hc]
  exact
    { errIff := by simp [State.clear]
      errInfoZero := hi.errInfoZero
      noIoError := hi.noIoError
      totalEq := h₁
      totalLe := h₂
      freqLe := hi.freqLe
      spLe := hi.spLe
      wlSize := hi.wlSize
      accClear := hi.accClear
      candClear := hi.candClear
      candShort := fun _ => hi.candShort (by simp [State.clear])
      ctClear := hi.ctClear
      itClear := hi.itClear
      idleFresh := fun e => by cases e
      countingFresh := fun _ => rfl
      ctFresh := fun e => by cases e
      tree := fun e => by cases e
      codes := fun e => by cases e
      table := fun e => by cases e }

theorem countSymbol_inv (sym : Byte) {s : State} (h : CountInv s) :
    (countSymbol sym s).Leaves CountInv := by
  by_cases hm : s.total = s.cfg.maxCount
  · rw [countSymbol_max sym s hm]
    exact Run.leaves_raise h.1.fields (by simp) (by simp) _ _
  · rw [countSymbol_lt sym s hm]
    refine Run.leaves_done ⟨countingInv h _ _ ?_ ?_, .inr rfl⟩
    · have := counted1_ft_sum s sym
      rw [← h.1.totalEq] at this
      exact this.symm
    · have := h.1.totalLe
      omega

theorem countSource_inv {s : State} (h : CountInv s) : (countSource s).Leaves CountInv := by
  refine Run.Leaves.andThen (P := CountInv) ?_ ?_
  · exact Run.Leaves.drain (fun b s hs hb => countSymbol_inv b ⟨hs.1.advance hb, hs.2⟩) _ h
  · intro t ht
    exact Run.leaves_done ⟨countingInv ht _ _ ht.1.totalEq ht.1.totalLe, .inr rfl⟩

/-! ### Tree builder -/

theorem mergeFor_freq_le {n m : Nat} (fuel : Nat) (s : State) (h : Merging n s)
    (hs : s.ft.cells.sum ≤ m) (hm : ∀ i, s.freqOf i ≤ m) (i : NodeIx) :
    (mergeFor fuel s).freqOf i ≤ m := by
  induction fuel generalizing s with
  | zero => exact hm i
  | succ fuel ih =>
    rw [mergeFor]
    split
    · next a b rest hwl =>
      refine ih _ (h.step hwl) hs fun j => ?_
      have hsum := h.sum
      rw [hwl] at hsum
      simp only [List.map_cons, List.sum_cons] at hsum
      unfold State.freqOf
      rw [mergeStep_nodeAt]
      split
      · show s.freqOf a + s.freqOf b ≤ m
        omega
      · exact hm j
    · exact hm i

theorem ftAt_le_sum (s : State) (b : Byte) : s.ftAt b ≤ s.ft.cells.sum := by
  rw [ft_sum_eq]
  exact List.single_le_sum (fun _ _ => Nat.zero_le _) _ (List.mem_map_of_mem (mem_symbols b))

theorem placeLeaves_freq_le {m : Nat} (s : State) (hs : s.ft.cells.sum ≤ m)
    (hm : ∀ i, s.freqOf i ≤ m) (i : NodeIx) : (placeLeaves s.counted 0 s).freqOf i ≤ m := by
  have hle := counted_length_le s
  unfold State.freqOf
  by_cases hi : i.val < s.counted.length
  · have := placeLeaves_nodeAt s.counted 0 s (by omega) i.val hi
    rw [Nat.zero_add, nodeIx_of_val] at this
    rw [this]
    have he := (mem_counted.1 (List.getElem_mem hi)).2
    show (s.counted[i.val]).2 ≤ m
    rw [he]
    exact (ftAt_le_sum s _).trans hs
  · rw [placeLeaves_nodeAt_of_lt s.counted 0 s i (by omega) (by omega)]
    exact hm i

theorem buildTree_inv {s : State} (h : CountInv s) :
    (buildTree s).Leaves fun t => t.Inv ∧ t.phase = .treeReady := by
  have hf := h.1.fields
  have hs : s.ft.cells.sum ≤ s.cfg.maxCount := by rw [← hf.totalEq]; exact hf.totalLe
  rcases buildTree_eq s with ⟨_, e⟩ | ⟨e, he, _, heq⟩ | ⟨hne, _, e⟩
  · rw [e]
    refine Run.leaves_raise (s := { s with nsym := 0 }) ?_ (by simp) (by simp) _ _
    exact ⟨hf.1, hf.2, hf.3, hf.4, hf.5, hf.6, hf.7, hf.8, hf.9⟩
  · rw [heq]
    refine Run.leaves_raise (s := { s.setNode 0 (leafOf e.1 e.2) with nsym := 1 }) ?_ (by simp)
      (by simp) _ _
    refine ⟨hf.1, hf.2, fun i => ?_, hf.4, hf.5, hf.6, hf.7, hf.8, hf.9⟩
    show ((s.setNode 0 (leafOf e.1 e.2)).nodeAt i).freq ≤ _
    rw [setNode_nodeAt]
    split
    · have hmem : e ∈ s.counted := by rw [he]; simp
      show e.2 ≤ _
      rw [(mem_counted.1 hmem).2]
      exact (ftAt_le_sum s _).trans hs
    · exact hf.freqLe i
  · rw [e]
    have ht := withTree_treeOk s hne
    have hsz := withTree_size s hne hf.wlSize
    have hfr := withTree_frame s
    have hfq : ∀ i, s.withTree.freqOf i ≤ s.cfg.maxCount := by
      intro i
      have hm := withLeaves_merging s hne
      have hft : s.withLeaves.ft = s.ft := by
        unfold State.withLeaves
        rw [insertLeaves_frame]
        show (placeLeaves s.counted 0 s).ft = s.ft
        rw [placeLeaves_frame]
      refine mergeFor_freq_le _ _ hm (by rw [hft]; exact hs) (fun j => ?_) i
      unfold State.freqOf
      rw [withLeaves_nodeAt]
      exact placeLeaves_freq_le s hs hf.freqLe j
    have hct : s.ct = Table.fill 256 Code.zero := by
      have := congrArg State.ct h.fresh
      exact this.symm
    have herr : s.err = .noError := by
      have := congrArg State.err h.fresh
      exact this.symm
    have hcand : s.candLen = 0 := by
      have := congrArg State.candLen h.fresh
      exact this.symm
    refine Run.leaves_done ⟨?_, by rw [hfr]⟩
    exact
      { errIff := by rw [hfr]; simp [herr]
        errInfoZero := by rw [hfr]; exact h.1.errInfoZero
        noIoError := by rw [hfr]; exact h.1.noIoError
        totalEq := by rw [hfr]; exact hf.totalEq
        totalLe := by rw [hfr]; exact hf.totalLe
        freqLe := fun i => (hfq i).trans (by rw [hfr])
        spLe := by rw [hfr]; exact hf.spLe
        wlSize := hsz
        accClear := by rw [hfr]; exact hf.accClear
        candClear := by rw [hfr]; exact hf.candClear
        candShort := by rw [hfr]; intro _; rw [hcand]; simp
        ctClear := by rw [hfr]; exact hf.ctClear
        itClear := by rw [hfr]; exact hf.itClear
        idleFresh := by rw [hfr]; intro e; cases e
        countingFresh := by rw [hfr]; intro e; cases e
        ctFresh := by rw [hfr]; exact fun _ => hct
        tree := fun _ => ht
        codes := by rw [hfr]; intro e; cases e
        table := by rw [hfr]; intro e; cases e }

/-! ### Code table generator -/

theorem visit_ctClear (n : Nat) (i : NodeIx) (path : List Bool) (s : State)
    (h : ∀ b : Byte, LeftAligned (s.ctAt b).len.val (s.ctAt b).bits) :
    (visit n i path s).Post fun t =>
      ∀ b : Byte, LeftAligned (t.ctAt b).len.val (t.ctAt b).bits := by
  induction n generalizing i path s with
  | zero => exact Run.post_stuck
  | succ n ih =>
    rw [visit]
    split
    · split
      · exact Run.post_raised.2 h
      · refine Run.post_done.2 fun b => ?_
        rw [setCt_ctAt]
        split
        · exact Code.leftAligned_ofBits (by omega)
        · exact h b
    · exact Run.post_andThen (ih _ _ _ h) (fun t ht => ih _ _ _ ht) (ih _ _ _ h).2

/-- CODE_GEN on a tree of R146 completes, or raises `CodeTooLong`; the code table is all it writes. -/
theorem State.TreeOk.generateCodes_cases {s : State} (h : s.TreeOk) :
    (∃ t, generateCodes s = .done t ∧ t = { s with ct := t.ct, phase := .codesReady }) ∨
    ∃ t b, generateCodes s = .raised t ∧
      t = ({ s with ct := t.ct } : State).trap .codeTooLong b := by
  by_cases hdeep : ∃ path i, s.LeafPath path i ∧ 16 < path.length
  · obtain ⟨t, path, i, e, _, _, _, ht⟩ := h.generateCodes_raised hdeep
    exact .inr ⟨t, _, e, ht⟩
  · left
    by_cases h1 : s.nsym.val = 1
    · exact ⟨_, generateCodes_single (h.root_kind.2 h1), rfl⟩
    · have := h.nsymPos
      obtain ⟨t, e, _, _, ht⟩ := h.generateCodes_done (by omega) fun path i hl => by
        by_contra hlt
        exact hdeep ⟨path, i, hl, by omega⟩
      exact ⟨t, e, ht⟩

theorem generateCodes_ctClear {s t : State}
    (h : ∀ b : Byte, LeftAligned (s.ctAt b).len.val (s.ctAt b).bits)
    (ht : generateCodes s = .raised t) (b : Byte) :
    LeftAligned (t.ctAt b).len.val (t.ctAt b).bits := by
  rcases Run.andThen_eq_raised.1 ht with e | ⟨_, _, e⟩
  · unfold assignCodes at e
    split at e
    · cases e
    · exact (visit_ctClear _ _ _ _ h).2 t e b
  · cases e

theorem generateCodes_inv {s : State} (h : s.Inv) (hp : s.phase = .treeReady) :
    (generateCodes s).Leaves fun t => t.Inv ∧ t.phase = .codesReady := by
  have hf := h.fields
  have ht := h.tree (by rw [hp]; rfl)
  have herr : s.err = .noError := by
    by_contra he
    have := h.errIff.1 he
    rw [hp] at this
    cases this
  rcases ht.generateCodes_cases with ⟨t, hd, hfr⟩ | ⟨t, b, hr, hfr⟩
  · rw [hd]
    obtain ⟨hc, _, ha, _⟩ := ht.codes (h.ctFresh hp) hd
    refine Run.leaves_done ⟨?_, by rw [hfr]⟩
    exact
      { errIff := by rw [hfr]; simp [herr]
        errInfoZero := by rw [hfr]; exact h.errInfoZero
        noIoError := by rw [hfr]; exact h.noIoError
        totalEq := by rw [hfr]; exact hf.totalEq
        totalLe := by rw [hfr]; exact hf.totalLe
        freqLe := by rw [hfr]; exact hf.freqLe
        spLe := by rw [hfr]; exact hf.spLe
        wlSize := by rw [hfr]; exact hf.wlSize
        accClear := by rw [hfr]; exact hf.accClear
        candClear := by rw [hfr]; exact hf.candClear
        candShort := by rw [hfr]; exact fun _ => h.candShort (by rw [hp]; simp)
        ctClear := ha
        itClear := by rw [hfr]; exact hf.itClear
        idleFresh := by rw [hfr]; intro e; cases e
        countingFresh := by rw [hfr]; intro e; cases e
        ctFresh := by rw [hfr]; intro e; cases e
        tree := by rw [hfr]; exact fun _ => ⟨ht.1, ht.2, ht.3, ht.4, ht.5, ht.6, ht.7, ht.8⟩
        codes := fun _ => hc
        table := by rw [hfr]; intro e; cases e }
  · rw [hr]
    have hx : FieldsOk { s with ct := t.ct } :=
      ⟨hf.1, hf.2, hf.3, hf.4, hf.5, hf.6, hf.7, fun c => generateCodes_ctClear (t := t) h.ctClear hr c,
        hf.9⟩
    rw [hfr]
    exact Run.leaves_raise hx (by simp) (by simp) _ _

/-! ### Codec framer, encoding, and bit packer -/

/-- Without an error the error registers are clear (R23, R24). -/
theorem State.Inv.noError {s : State} (h : s.Inv) (hp : s.phase ≠ .fault) :
    s.err = .noError ∧ s.errInfo = 0 := by
  have : s.err = .noError := by
    by_contra he
    exact hp (h.errIff.1 he)
  exact ⟨this, h.errInfoZero this⟩

/-- From `CODES_READY` or `PACKING`, a state in which only the padding, the sink and the accumulator
differ (R170, R200). -/
theorem State.Inv.packing {s : State} (h : s.Inv) (hp : s.phase.hasCodes = true) (pad : Fin 8)
    (snk : List Byte) {acc : Byte} {fill : Fin 8}
    (hacc : ∀ j, fill.val ≤ j → acc.getMsbD j = false) :
    ({ s with pad := pad, snk := snk, acc := acc, fill := fill, phase := .packing } : State).Inv := by
  have hf := h.fields
  have hnf : s.phase ≠ .fault := by intro e; rw [e] at hp; cases hp
  have ht := h.tree (by
    revert hp
    cases s.phase <;> simp [Phase.hasCodes, Phase.hasTree])
  have hc := h.codes hp
  exact
    { errIff := by simp [(h.noError hnf).1]
      errInfoZero := h.errInfoZero
      noIoError := h.noIoError
      totalEq := hf.totalEq
      totalLe := hf.totalLe
      freqLe := hf.freqLe
      spLe := hf.spLe
      wlSize := hf.wlSize
      accClear := hacc
      candClear := hf.candClear
      candShort := fun _ => h.candShort hnf
      ctClear := hf.ctClear
      itClear := hf.itClear
      idleFresh := fun e => by cases e
      countingFresh := fun e => by cases e
      ctFresh := fun e => by cases e
      tree := fun _ => ⟨ht.1, ht.2, ht.3, ht.4, ht.5, ht.6, ht.7, ht.8⟩
      codes := fun _ => ⟨hc.1, hc.2⟩
      table := fun e => by cases e }

theorem writeHeader_inv {s : State} (h : s.Inv) (hp : s.phase = .codesReady) :
    (writeHeader s).Leaves State.Inv :=
  Run.leaves_done (h.packing (by rw [hp]; rfl) _ _ (fun j _ => by simp))

abbrev PackInv (s : State) : Prop := s.Inv ∧ s.phase = .packing

theorem packSymbol_inv (sym : Byte) {s : State} (h : PackInv s) :
    (packSymbol sym s).Leaves PackInv := by
  by_cases hl : (s.ctAt sym).len.val = 0
  · unfold packSymbol
    rw [if_pos hl]
    exact Run.leaves_raise h.1.fields (by simp) (by simp) _ _
  · obtain ⟨t, bytes, e, _, _, ha, ht⟩ := packSymbol_done sym s (by omega) h.1.accClear
    rw [e]
    have := h.1.packing (by rw [h.2]; rfl) s.pad (s.snk ++ bytes) ha
    have heq : t = { s with
        pad := s.pad, snk := s.snk ++ bytes, acc := t.acc, fill := t.fill, phase := .packing } := by
      conv_lhs => rw [ht]
      rw [← h.2]
    refine Run.leaves_done ⟨?_, by rw [heq]⟩
    rw [heq]
    exact this

theorem packSource_inv {s : State} (h : PackInv s) : (packSource s).Leaves PackInv :=
  Run.Leaves.drain (fun b _ hs hb => packSymbol_inv b ⟨hs.1.advance hb, hs.2⟩) _ h

theorem FieldsOk.done {s : State} (h : FieldsOk s) (he : s.err = .noError) (hi : s.errInfo = 0)
    (hc : s.candLen.val ≤ 15) : ({ s with phase := .done } : State).Inv where
  errIff := by simp [he]
  errInfoZero _ := hi
  noIoError := by simp [he]
  totalEq := h.totalEq
  totalLe := h.totalLe
  freqLe := h.freqLe
  spLe := h.spLe
  wlSize := h.wlSize
  accClear := h.accClear
  candClear := h.candClear
  candShort _ := hc
  ctClear := h.ctClear
  itClear := h.itClear
  idleFresh e := by cases e
  countingFresh e := by cases e
  ctFresh e := by cases e
  tree e := by cases e
  codes e := by cases e
  table e := by cases e

theorem flush_inv {s : State} (h : PackInv s) : (flush s).Leaves State.Inv := by
  have hf := h.1.fields
  have hnf : s.phase ≠ .fault := by rw [h.2]; simp
  obtain ⟨he, hi⟩ := h.1.noError hnf
  have hc := h.1.candShort hnf
  unfold flush
  dsimp only
  refine Run.leaves_done ?_
  split
  · exact hf.done he hi hc
  · refine FieldsOk.done (s := (s.sinkWrite s.acc).emptyAcc) ?_ he hi hc
    exact ⟨hf.1, hf.2, hf.3, hf.4, hf.5, fun j _ => by simp [State.emptyAcc], hf.7, hf.8, hf.9⟩

/-! ### Codec framer, decoding -/

/-- What holds after `r` accepted records (R173, R175). -/
structure Reading (n r : Nat) (s : State) : Prop where
  fields : FieldsOk s
  err : s.err = .noError ∧ s.errInfo = 0
  nsym : s.nsym.val = n
  itN : r = 0 ∨ s.itN.val = r
  lenPos : ∀ e ∈ s.it.cells.take r, 1 ≤ e.code.len.val
  distinct : (s.it.cells.take r).Pairwise fun e f => e.code ≠ f.code

theorem readRecord_inv {n r : Nat} {s : State} (h : Reading n r s) (hr : r < 256) :
    (readRecord r s).Leaves (Reading n (r + 1)) := by
  have hf := h.fields
  by_cases hlen : s.rest.length < 17
  · rw [readRecord_short r s hlen]
    exact Run.leaves_raise hf (by simp) (by simp) _ _
  · obtain ⟨sym, l, hl⟩ : ∃ b l, s.rest = b :: l := by
      cases hrest : s.rest with
      | nil => rw [hrest] at hlen; simp at hlen
      | cons b l => exact ⟨b, l, rfl⟩
    have hl16 : 16 ≤ l.length := by rw [hl] at hlen; simp at hlen; omega
    have hfield : (l.take 16).length = 16 := by rw [List.length_take]; omega
    rw [readRecord_eq r s sym (l.take 16) (l.drop 16) (by rw [List.take_append_drop, hl]) hfield]
    have hsp : Memory.wf { s with sp := s.sp + 17 } := by
      have := State.sp_of_rest hl
      show s.sp + 17 ≤ s.srcLen
      omega
    have hf' : FieldsOk { s with sp := s.sp + 17 } :=
      ⟨hf.1, hf.2, hf.3, hsp, hf.5, hf.6, hf.7, hf.8, hf.9⟩
    split
    · exact Run.leaves_raise hf' (by simp) (by simp) _ _
    · next c hc =>
      obtain ⟨hc1, hc16⟩ := readCodeField_some hc (by omega)
      split
      · exact Run.leaves_raise hf' (by simp) (by simp) _ _
      · next hdup =>
        refine Run.leaves_done ?_
        have htake := acceptRecord_take { s with sp := s.sp + 17 } r sym (Code.ofBits c) hr
        exact
          { fields := by
              refine ⟨hf.1, hf.2, hf.3, hsp, hf.5, hf.6, hf.7, hf.8, fun k => ?_⟩
              show LeftAligned ((s.it.set (entryIx r) _).get k).code.len.val _
              unfold State.acceptRecord
              rw [Table.get_set]
              split
              · exact Code.leftAligned_ofBits hc16
              · exact hf.itClear k
            err := h.err
            nsym := h.nsym
            itN := .inr (by
              show (Fin.ofNat 257 (r + 1)).val = r + 1
              simp [Fin.ofNat]; omega)
            lenPos := by
              rw [htake]
              intro e he
              rcases List.mem_append.1 he with he | he
              · exact h.lenPos e he
              · rw [List.mem_singleton] at he
                rw [he]
                show 1 ≤ (Code.ofBits c).len.val
                rw [Code.ofBits_len hc16]
                exact hc1
            distinct := by
              rw [htake, List.pairwise_append]
              refine ⟨h.distinct, List.pairwise_singleton _ _, fun e he f hfm => ?_⟩
              rw [List.mem_singleton] at hfm
              rw [hfm]
              intro heq
              apply hdup
              rw [List.any_eq_true]
              exact ⟨e, he, by simpa using heq⟩ }

theorem readRecords_inv {n : Nat} (k : Nat) {r : Nat} {s : State} (h : Reading n r s)
    (hr : r + k ≤ 256) :
    (forEach readRecord (List.range' r k) s).Leaves (Reading n (r + k)) := by
  induction k generalizing r s with
  | zero => exact Run.leaves_done h
  | succ k ih =>
    rw [List.range'_succ, forEach_cons]
    refine (readRecord_inv h (by omega)).andThen fun t ht => ?_
    have := ih ht (by omega)
    rwa [show r + 1 + k = r + (k + 1) by omega] at this

theorem readHeader_inv {s : State} (h : s.Inv) (hp : s.phase = .idle) :
    (readHeader s).Leaves State.Inv := by
  have hf := h.fields
  have hne := h.noError (by rw [hp]; simp)
  unfold readHeader
  split
  · exact Run.leaves_raise hf (by simp) (by simp) _ _
  · next hlen =>
    rw [State.srcRemaining_eq] at hlen
    have hreads := State.srcReads_eq 2 s (by omega)
    have hsp : Memory.wf { s with sp := s.sp + 2 } := by
      have := memory_wf_srcReads 2 hf.spLe
      rwa [hreads] at this
    have hf' : FieldsOk { s with sp := s.sp + 2 } :=
      ⟨hf.1, hf.2, hf.3, hsp, hf.5, hf.6, hf.7, hf.8, hf.9⟩
    obtain ⟨p, c, htake⟩ : ∃ p c, s.rest.take 2 = [p, c] := by
      cases hrest : s.rest with
      | nil => rw [hrest] at hlen; simp at hlen
      | cons p l =>
        cases l with
        | nil => rw [hrest] at hlen; simp at hlen
        | cons c l => exact ⟨p, c, by simp⟩
    rw [hreads, htake]
    dsimp only
    unfold readTable
    split
    · exact Run.leaves_raise hf' (by simp) (by simp) _ _
    · dsimp only
      have h0 : Reading (readCountByte c).val 0
          { s with sp := s.sp + 2, pad := Fin.ofNat 8 p.toNat, nsym := readCountByte c } :=
        ⟨⟨hf.1, hf.2, hf.3, hsp, hf.5, hf.6, hf.7, hf.8, hf.9⟩, hne, rfl, .inl rfl, by simp,
          by simp⟩
      have hle : (readCountByte c).val ≤ 256 := by have := (readCountByte c).isLt; omega
      rw [List.range_eq_range']
      refine (readRecords_inv _ h0 (by omega)).andThen fun t ht => Run.leaves_done ?_
      have hpos := readCountByte_pos c
      have hitn : t.itN.val = (readCountByte c).val := by
        rcases ht.itN with e | e <;> omega
      have hrec : t.records = t.it.cells.take (0 + (readCountByte c).val) := by
        rw [State.records, hitn, Nat.zero_add]
      have hft := ht.fields
      exact
        { errIff := by simp [ht.err.1]
          errInfoZero := fun _ => ht.err.2
          noIoError := by simp [ht.err.1]
          totalEq := hft.totalEq
          totalLe := hft.totalLe
          freqLe := hft.freqLe
          spLe := hft.spLe
          wlSize := hft.wlSize
          accClear := hft.accClear
          candClear := leftAligned_zero _
          candShort := fun _ => by simp
          ctClear := hft.ctClear
          itClear := hft.itClear
          idleFresh := fun e => by cases e
          countingFresh := fun e => by cases e
          ctFresh := fun e => by cases e
          tree := fun e => by cases e
          codes := fun e => by cases e
          table := fun _ =>
            { itNEq := by show t.itN.val = t.nsym.val; rw [hitn, ht.nsym]
              itNPos := by show 1 ≤ t.itN.val; rw [hitn]; exact hpos
              lenPos := by show ∀ e ∈ t.records, _; rw [hrec]; exact ht.lenPos
              distinct := by show t.records.Pairwise _; rw [hrec]; exact ht.distinct
              candEmpty := ⟨rfl, rfl⟩ } }

/-! ### Bit unpacker -/

/-- What holds between two bits of UNPACK_RUN (R35). -/
structure Unpacking (s : State) : Prop where
  fields : FieldsOk s
  err : s.err = .noError ∧ s.errInfo = 0
  candShort : s.candLen.val ≤ 15

theorem appendCand_clear {s : State} (b : Bool) (h : LeftAligned s.candLen.val s.cand)
    (hc : s.candLen.val ≤ 15) :
    (s.appendCand b).candLen.val = s.candLen.val + 1 ∧
      LeftAligned (s.appendCand b).candLen.val (s.appendCand b).cand := by
  have hlen : (s.appendCand b).candLen.val = s.candLen.val + 1 := by
    show (Fin.ofNat 17 (s.candLen.val + 1)).val = _
    simp [Fin.ofNat]; omega
  refine ⟨hlen, fun i hi => ?_⟩
  rw [hlen] at hi
  show (s.cand ||| (if b then (1 : Word) <<< (15 - s.candLen.val) else 0)).getMsbD i = false
  rw [BitVec.getMsbD_or, h i (by omega), Bool.false_or]
  cases b
  · simp
  · by_cases h16 : i < 16
    · have hone : ∀ f k : Fin 16, f < k → ((1 : Word) <<< (15 - f.val)).getMsbD k.val = false := by
        decide
      exact hone ⟨s.candLen.val, by omega⟩ ⟨i, h16⟩ (by rw [Fin.lt_def]; exact hi)
    · exact BitVec.getMsbD_of_ge _ _ (by omega)

theorem unpackBit_inv (b : Bool) {s : State} (h : Unpacking s) : (unpackBit b s).Leaves Unpacking := by
  have hf := h.fields
  obtain ⟨hlen, hcl⟩ := appendCand_clear b hf.candClear h.candShort
  have hf' : FieldsOk (s.appendCand b) :=
    ⟨hf.1, hf.2, hf.3, hf.4, hf.5, hf.6, hcl, hf.8, hf.9⟩
  unfold unpackBit
  dsimp only
  split
  · exact Run.leaves_done ⟨⟨hf.1, hf.2, hf.3, hf.4, hf.5, hf.6, leftAligned_zero _, hf.8, hf.9⟩,
      h.err, by simp [State.emptyCand]⟩
  · split
    · exact Run.leaves_raise hf' (by simp) (by simp) _ _
    · next hne =>
      refine Run.leaves_done ⟨hf', h.err, ?_⟩
      have : (s.appendCand b).candLen.val ≠ 16 := fun e => hne (Fin.ext e)
      omega

theorem Unpacking.advance {s : State} {b : Byte} (h : Unpacking s) (hb : s.srcByte = some b) :
    Unpacking s.advance := by
  have hf := h.fields
  exact ⟨⟨hf.1, hf.2, hf.3, memory_wf_advance hb, hf.5, hf.6, hf.7, hf.8, hf.9⟩, h.err, h.candShort⟩

theorem unpackFor_inv (m : Nat) {s : State} (h : Unpacking s) : (unpackFor m s).Leaves Unpacking := by
  induction m generalizing s with
  | zero => exact Run.leaves_done h
  | succ m ih =>
    rw [unpackFor]
    split
    · exact Run.leaves_done h
    · next b hb =>
      dsimp only
      exact (Run.Leaves.forEach (fun b s => unpackBit_inv b) _ (h.advance hb)).andThen fun t ht => ih ht

theorem unpackPayload_inv {s : State} (h : s.Inv) (hp : s.phase = .tableReady) :
    (unpackPayload s).Leaves State.Inv := by
  have hnf : s.phase ≠ .fault := by rw [hp]; simp
  have hu : Unpacking s := ⟨h.fields, h.noError hnf, h.candShort hnf⟩
  refine Run.Leaves.andThen (P := Unpacking) ?_ fun t ht =>
    Run.leaves_done (ht.fields.done ht.err.1 ht.err.2 ht.candShort)
  unfold decodePayload
  split
  · split
    · exact Run.leaves_raise h.fields (by simp) (by simp) _ _
    · exact Run.leaves_done hu
  · refine (unpackFor_inv _ hu).andThen fun t ht => ?_
    unfold checkCand
    split
    · exact Run.leaves_raise ht.fields (by simp) (by simp) _ _
    · exact Run.leaves_done ht

end Sys2Proof.Machine
end

