-- ==== Sys2Proof/Laws/PerInstr.lean ====
section
/-! SUPPORT. What holds of every command as syntax, one lemma per command. -/

namespace Sys2Proof.Laws.CommandWord

/-- The command is well formed, and the two bytes of its word are an opcode of R91 and an operand its
format allows (R90, R94). -/
def Statement (i : Instr) : Prop :=
  i.wellFormed = true ∧ wordWellFormed i.opcode i.operand = true

theorem clear : Statement .clear := ⟨rfl, by decide⟩
theorem rewind : Statement .rewind := ⟨rfl, by decide⟩
theorem freqByte (sym : Byte) : Statement (.freqByte sym) := ⟨rfl, rfl⟩
theorem freqRun : Statement .freqRun := ⟨rfl, by decide⟩
theorem treeBuild : Statement .treeBuild := ⟨rfl, by decide⟩
theorem codeGen : Statement .codeGen := ⟨rfl, by decide⟩
theorem encHeader : Statement .encHeader := ⟨rfl, by decide⟩
theorem packSym (sym : Byte) : Statement (.packSym sym) := ⟨rfl, rfl⟩
theorem packRun : Statement .packRun := ⟨rfl, by decide⟩
theorem packFlush : Statement .packFlush := ⟨rfl, by decide⟩
theorem decHeader : Statement .decHeader := ⟨rfl, by decide⟩
theorem unpackRun : Statement .unpackRun := ⟨rfl, by decide⟩
theorem compress : Statement .compress := ⟨rfl, by decide⟩
theorem decompress : Statement .decompress := ⟨rfl, by decide⟩

end Sys2Proof.Laws.CommandWord
end

