-- ==== Sys2Proof/Laws/Premises.lean ====
section
/-! SUPPORT. The launch premises of spec/70_reset_and_hazards.md R294: what establishes each, and what it
gives. -/

namespace Sys2Proof.Machine

/-! ### CleanEntry -/

theorem cleanEntry_reset : CleanEntry State.reset :=
  ⟨rfl, rfl, rfl, rfl, rfl, rfl, rfl, rfl, rfl, rfl, rfl⟩

/-- CLEAR establishes *CleanEntry* (R230, R292). -/
theorem cleanEntry_clear (s : State) : CleanEntry s.clear :=
  ⟨rfl, rfl, rfl, rfl, rfl, rfl, rfl, rfl, rfl, rfl, rfl⟩

/-- Under the invariant *CleanEntry* is `PHASE = IDLE` (R21). -/
theorem cleanEntry_iff {s : State} (h : s.Inv) : CleanEntry s ↔ s.phase = .idle :=
  ⟨fun hc => hc.phaseIdle, fun hp => h.idleFresh hp ▸ cleanEntry_clear s⟩

/-- So under the invariant CLEAR changes nothing at a *CleanEntry* (R230). -/
theorem CleanEntry.clear_eq {s : State} (hc : CleanEntry s) (h : s.Inv) : s.clear = s :=
  h.idleFresh hc.phaseIdle

/-- Nothing is counted at a *CleanEntry* (R28). -/
theorem CleanEntry.ftAt_eq {s : State} (hc : CleanEntry s) (b : Byte) : s.ftAt b = 0 := by
  rw [State.ftAt, hc.ftReset]
  exact Table.get_fill _ _

/-! ### SourceAtStart -/

theorem sourceAtStart_reset : SourceAtStart State.reset := rfl

/-- REWIND establishes *SourceAtStart* (R231). -/
theorem sourceAtStart_srcRewind (s : State) : SourceAtStart s.srcRewind := rfl

/-- And changes nothing there. -/
theorem srcRewind_eq {s : State} (h : SourceAtStart s) : s.srcRewind = s := by
  rw [State.srcRewind, ← h]

/-- The whole source is left to read (R36). -/
theorem rest_of_sourceAtStart {s : State} (h : SourceAtStart s) : s.rest = s.src := by
  rw [State.rest, h, List.drop_zero]

/-! ### SourceFixed -/

theorem SourceFixed.trans {s t u : State} (h : SourceFixed s t) (h' : SourceFixed t u) :
    SourceFixed s u := Eq.trans h' h

/-- Every byte left to read in the second pass is one of the bytes of a first pass over the whole
source (R61, R300). -/
theorem SourceFixed.mem_rest {s t : State} (h : SourceFixed s t) (hs : SourceAtStart s) {b : Byte}
    (hb : b ∈ t.rest) : b ∈ s.rest := by
  rw [rest_of_sourceAtStart hs, ← h]
  exact List.mem_of_mem_drop hb

/-! ### NoIOFailure and SinkBase -/

/-- The model's streams never fail (R61, R62, R257). -/
theorem noIOFailure : NoIOFailure := by
  intro s
  refine ⟨fun h => ?_, fun n h => ?_, fun b => rfl, fun bs => rfl⟩
  · rw [State.srcRemaining_eq] at h
    rw [State.srcByte_eq]
    cases hr : s.rest with
    | nil => rw [hr] at h; cases h
    | cons b bs => rfl
  · rw [State.srcRemaining_eq] at h
    rw [State.srcReads_eq n s h, List.length_take, Nat.min_eq_left h]

theorem sinkBase_reset : SinkBase [] State.reset := rfl

/-- CLEAR keeps the base of the sink (R230). -/
theorem sinkBase_clear {S0 : List Byte} {s : State} (h : SinkBase S0 s) : SinkBase S0 s.clear := h

end Sys2Proof.Machine
end

