-- ==== Sys2Proof/Laws/TopLevel.lean ====
section
/-! SUPPORT. The bodies of COMPRESS and DECOMPRESS as chains, the payload with its padding, and what a
completed COMPRESS has written (spec/46_control_and_top.md R232 to R236, spec/44_bit_packer.md R204). -/

namespace Sys2Proof.Machine

/-! ### Sums over the symbols -/

theorem sum_single (f : Byte → Nat) (x : Byte) :
    (symbols.map fun b => if x = b then f b else 0).sum = f x := by
  have h : ∀ l : List Byte, l.Nodup → (l.map fun b => if x = b then f b else 0).sum =
      if x ∈ l then f x else 0 := by
    intro l
    induction l with
    | nil => simp
    | cons b l ih =>
      intro hnd
      rw [List.nodup_cons] at hnd
      rw [List.map_cons, List.sum_cons, ih hnd.2]
      by_cases hx : x = b
      · subst hx
        simp [hnd.1]
      · simp [hx]
  rw [h symbols symbols_nodup, if_pos (mem_symbols x)]

theorem sum_map_add (l : List Byte) (f g : Byte → Nat) :
    (l.map fun b => f b + g b).sum = (l.map f).sum + (l.map g).sum := by
  induction l with
  | nil => rfl
  | cons b l ih =>
    simp only [List.map_cons, List.sum_cons, ih]
    omega

/-- A sum over a sequence of symbols, symbol by symbol (R102). -/
theorem sum_by_count (f : Byte → Nat) (xs : List Byte) :
    (xs.map f).sum = (symbols.map fun b => xs.count b * f b).sum := by
  induction xs with
  | nil => simp
  | cons x xs ih =>
    have h : ∀ b, (x :: xs).count b * f b = (xs.count b * f b) + if x = b then f b else 0 := by
      intro b
      rw [List.count_cons]
      by_cases hx : x = b
      · subst hx; simp [Nat.add_mul]
      · simp [hx]
    simp only [h]
    rw [sum_map_add, ← ih, sum_single, List.map_cons, List.sum_cons]
    omega

theorem codeBits_length (s : State) (xs : List Byte) :
    (s.codeBits xs).length = (symbols.map fun b => xs.count b * (s.ctAt b).len.val).sum := by
  rw [← sum_by_count fun b => (s.ctAt b).len.val]
  unfold State.codeBits
  rw [List.length_flatMap]
  congr 1
  exact List.map_congr_left fun b _ => Code.toBits_length _

/-! ### PACK_FLUSH -/

/-- PACK_FLUSH appends the pending bits and zero bits up to a byte boundary (R203). -/
theorem flush_spec (s : State) (h : s.AccClear) :
    ∃ t bytes, flush s = .done t ∧
      bitsOf bytes = s.pendingBits ++ List.replicate ((8 - s.fill.val) % 8) false ∧
      t = { s with snk := s.snk ++ bytes, acc := if s.fill = 0 then s.acc else 0, fill := 0,
                   phase := .done } := by
  by_cases hf : s.fill = 0
  · refine ⟨{ s with phase := .done }, [], ?_, ?_, ?_⟩
    · unfold flush
      simp [hf]
    · have : s.pendingBits = [] := by unfold State.pendingBits; rw [hf]; rfl
      rw [this, hf]
      rfl
    · rw [if_pos hf, ← hf]
      simp
  · refine ⟨{ (s.sinkWrite s.acc).emptyAcc with phase := .done }, [s.acc], ?_, ?_, ?_⟩
    · unfold flush
      rw [if_neg hf]
    · rw [bitsOf_cons, bitsOf_nil, List.append_nil]
      have h0 : s.fill.val ≠ 0 := fun e => hf (Fin.ext e)
      have hlt := s.fill.isLt
      have hmod : (8 - s.fill.val) % 8 = 8 - s.fill.val := Nat.mod_eq_of_lt (by omega)
      rw [hmod]
      unfold State.pendingBits
      apply List.ext_getElem
      · simp only [List.length_map, List.length_range, List.length_append, List.length_replicate]
        omega
      · intro i h₁ h₂
        have hi : i < 8 := by simpa using h₁
        simp only [List.getElem_map, List.getElem_range]
        by_cases hlt : i < s.fill.val
        · rw [List.getElem_append_left (by simpa using hlt)]
          simp
        · rw [List.getElem_append_right (by simpa using hlt)]
          simp only [List.getElem_replicate]
          exact h i (by omega)
    · rw [if_neg hf]
      rfl

/-- The sequence ENC_HEADER, pack, PACK_FLUSH from an empty accumulator: the payload is the codes and the
padding the header declares (R204). -/
theorem payload_spec (pad : Fin 8) (bits : List Bool) (bytes bytes' : List Byte) (t : State)
    (hpad : pad.val = (8 - bits.length % 8) % 8) (h₁ : bitsOf bytes ++ t.pendingBits = bits)
    (h₂ : bitsOf bytes' = t.pendingBits ++ List.replicate ((8 - t.fill.val) % 8) false) :
    bitsOf (bytes ++ bytes') = bits ++ List.replicate pad.val false := by
  have hlen := congrArg List.length h₁
  rw [List.length_append, bitsOf_length] at hlen
  have hp : t.pendingBits.length = t.fill.val := by simp [State.pendingBits]
  rw [hp] at hlen
  have hf := t.fill.isLt
  have : pad.val = (8 - t.fill.val) % 8 := by rw [hpad, ← hlen]; omega
  rw [bitsOf_append, h₂, ← List.append_assoc, h₁, this]

/-! ### COMPRESS as a chain -/

/-- The state in which COMPRESS counts (R232). -/
def State.compressStart (s : State) : State := s.clear.srcRewind

theorem compressSource_eq (s : State) :
    compressSource s = (countSource s.compressStart).andThen fun a => (buildTree a).andThen fun b =>
      (generateCodes b).andThen fun c => (writeHeader c).andThen fun d =>
        (packSource d.srcRewind).andThen flush := by
  unfold compressSource
  simp only [Run.andThen_assoc]
  rfl

theorem compressStart_rest (s : State) : s.compressStart.rest = s.src := by
  simp [State.compressStart, State.rest]

theorem compressStart_ftAt (s : State) (b : Byte) : s.compressStart.ftAt b = 0 := by
  simp [State.compressStart, State.ftAt]

/-- What a COMPRESS has computed when it comes to its header: the table counts the source, the tree is one
of R146, and the codes are those of R163. -/
structure Compressed (s d : State) : Prop where
  counts : ∀ b, d.ftAt b = s.src.count b
  total : d.total = s.src.length
  nsym : d.nsym.val = (symbols.filter fun b => decide (0 < d.ftAt b)).length
  nsymPos : 1 ≤ d.nsym.val
  codes : d.CodesOk
  aligned : ∀ b, LeftAligned (d.ctAt b).len.val (d.ctAt b).bits
  src : d.src = s.src
  snk : d.snk = s.snk

theorem compressed_of {s a b c : State} (h₁ : countSource s.compressStart = .done a)
    (h₂ : buildTree a = .done b) (h₃ : generateCodes b = .done c) : Compressed s c := by
  have hcap : s.compressStart.total + s.compressStart.rest.length ≤ s.compressStart.cfg.maxCount := by
    by_contra hlt
    obtain ⟨t, x, e, _⟩ := countSource_raised s.compressStart (Nat.zero_le _) (by omega)
    rw [h₁] at e; cases e
  obtain ⟨a', e, hft, hfr⟩ := countSource_done s.compressStart hcap
  rw [h₁] at e
  cases e
  have ha : ∀ b, a.ftAt b = s.src.count b := by
    intro b
    rw [hft b, compressStart_ftAt, compressStart_rest, Nat.zero_add]
  rcases buildTree_eq a with ⟨_, e⟩ | ⟨_, _, _, e⟩ | ⟨hne, _, e⟩
  · rw [h₂] at e; cases e
  · rw [h₂] at e; cases e
  · rw [h₂] at e
    cases e
    have htree := withTree_treeOk a hne
    have hct : a.withTree.ct = Table.fill 256 Code.zero := by
      rw [withTree_frame, hfr]
      rfl
    have hcodes := htree.codes hct h₃
    have hcf := (generateCodes_frame a.withTree).1 c h₃
    unfold CodeFrame at hcf
    have hcft : ∀ b, c.ftAt b = s.src.count b := by
      intro b
      rw [← ha b]
      unfold State.ftAt
      rw [hcf, withTree_frame]
    have hn : c.nsym.val = a.counted.length := by
      rw [hcf]
      exact (withTree_spec a hne).2.2.2.1
    refine
      { counts := hcft, total := ?_, nsym := ?_, nsymPos := ?_, codes := hcodes.1,
        aligned := hcodes.2.2.1, src := ?_, snk := ?_ }
    · have : a.total = s.src.length := by
        rw [hfr]
        show 0 + s.compressStart.rest.length = _
        rw [compressStart_rest, Nat.zero_add]
      rw [hcf, withTree_frame, ← this]
    · rw [hn, counted_length]
      congr 1
      refine List.filter_congr fun b _ => ?_
      rw [hcft, ha]
    · rw [hn]
      exact List.length_pos_iff.2 hne
    · rw [hcf, withTree_frame, hfr]
      rfl
    · rw [hcf, withTree_frame, hfr]
      rfl

/-- The bytes of the header and the records ENC_HEADER writes (R170). -/
def State.headBytes (c : State) : List Byte :=
  padByte (padOf c.encodedBits) :: countByte c.nsym :: c.tableBytes

/-- The symbols with a code, ascending (R170). -/
def State.coded (c : State) : List Byte := symbols.filter fun b => decide (0 < (c.ctAt b).len.val)

/-- The records ENC_HEADER writes (R170, R98). -/
def State.fileRecords (c : State) : List FileRecord := c.coded.map fun b => writtenRecord b (c.ctAt b)

theorem mem_coded {c : State} {b : Byte} : b ∈ c.coded ↔ 0 < (c.ctAt b).len.val := by
  simp [State.coded]

theorem tableBytes_records (c : State) : c.tableBytes = c.fileRecords.flatMap FileRecord.bytes := by
  rw [tableBytes_eq, State.fileRecords, List.flatMap_map]
  exact List.flatMap_congr fun b _ => recordBytes_eq b _

theorem fileRecords_valid (c : State) : ∀ r ∈ c.fileRecords, r.Valid := by
  intro r hr
  obtain ⟨b, hb, rfl⟩ := List.mem_map.1 hr
  exact writtenRecord_valid b (mem_coded.1 hb)

theorem headBytes_length (c : State) : c.headBytes.length = 2 + 17 * c.coded.length := by
  unfold State.headBytes
  rw [List.length_cons, List.length_cons, tableBytes_records, flatMap_bytes_length (fileRecords_valid c),
    State.fileRecords, List.length_map]
  omega

/-- What ENC_HEADER leaves (R170). -/
theorem writeHeader_eq (c : State) : writeHeader c = .done { c with
    pad := padOf c.encodedBits, snk := c.snk ++ c.headBytes, acc := 0, fill := 0, phase := .packing } :=
  rfl

/-- Packing the counted symbols after ENC_HEADER, in any order, and flushing (R204). -/
theorem packed_payload (c : State) (xs : List Byte) (u v : State) (bytes bytes' : List Byte)
    (hcount : ∀ b, xs.count b = c.ftAt b) (h₁ : bitsOf bytes ++ u.pendingBits = c.codeBits xs)
    (h₂ : bitsOf bytes' = u.pendingBits ++ List.replicate ((8 - u.fill.val) % 8) false)
    (hpad : v.pad = padOf c.encodedBits) :
    bitsOf (bytes ++ bytes') = c.codeBits xs ++ List.replicate v.pad.val false ∧
      8 * (bytes ++ bytes').length =
        (symbols.map fun b => c.ftAt b * (c.ctAt b).len.val).sum + v.pad.val := by
  have hlen : (c.codeBits xs).length = c.encodedBits := by
    rw [codeBits_length, encodedBits_eq]
    congr 1
    exact List.map_congr_left fun b _ => by rw [hcount]
  have hp : v.pad.val = (8 - (c.codeBits xs).length % 8) % 8 := by rw [hpad, padOf_val, hlen]
  have h := payload_spec v.pad (c.codeBits xs) bytes bytes' u hp h₁ h₂
  refine ⟨h, ?_⟩
  have := congrArg List.length h
  rw [bitsOf_length, List.length_append (as := c.codeBits xs), List.length_replicate, hlen,
    encodedBits_eq] at this
  exact this

/-- The second half of COMPRESS: header, payload, and where the source stands (R232). -/
theorem compress_tail {s c : State} (h : Compressed s c) :
    ∃ t payload, ((writeHeader c).andThen fun d => (packSource d.srcRewind).andThen flush) = .done t ∧
      t.snk = s.snk ++ c.headBytes ++ payload ∧
      bitsOf payload = c.codeBits s.src ++ List.replicate t.pad.val false ∧
      8 * payload.length = (symbols.map fun b => c.ftAt b * (c.ctAt b).len.val).sum + t.pad.val ∧
      t.pad = padOf c.encodedBits ∧ t.sp = s.src.length ∧
      t = { c with pad := t.pad, snk := t.snk, acc := t.acc, fill := t.fill, sp := t.sp,
                   phase := .done } := by
  rw [writeHeader_eq, Run.done_andThen]
  generalize hd : ({ c with
      pad := padOf c.encodedBits, snk := c.snk ++ c.headBytes, acc := 0, fill := 0,
      phase := .packing } : State) = d
  have hrest : d.srcRewind.rest = s.src := by
    rw [← h.src, ← hd]
    simp [State.rest]
  have hct : ∀ b, d.srcRewind.ctAt b = c.ctAt b := fun b => by rw [← hd]; rfl
  have hcode : d.srcRewind.codeBits s.src = c.codeBits s.src := by rw [← hd]; rfl
  have hclear : d.srcRewind.AccClear := by
    rw [← hd]
    intro j _
    show (0 : Byte).getMsbD j = false
    simp
  obtain ⟨u, bytes, h₁, h₂, h₃, h₄, h₅⟩ := packAll_done s.src d.srcRewind
    (fun x hx => by
      rw [hct, h.codes.codedIffCounted, h.counts]
      exact List.count_pos_iff.2 hx) hclear
  obtain ⟨t, bytes', f₁, f₂, f₃⟩ := flush_spec u h₃
  have hpend : d.srcRewind.pendingBits = [] := by rw [← hd]; rfl
  rw [hpend, List.nil_append, hcode] at h₂
  have hpad : t.pad = padOf c.encodedBits := by rw [f₃, h₅, ← hd]; rfl
  obtain ⟨g₁, g₂⟩ := packed_payload c s.src u t bytes bytes' (fun b => (h.counts b).symm) h₂ f₂ hpad
  refine ⟨t, bytes ++ bytes', ?_, ?_, g₁, g₂, hpad, ?_, ?_⟩
  · rw [packSource_eq, hrest, h₁, Run.done_andThen, f₁]
  · rw [f₃, h₅, ← hd, ← h.snk]
    simp
  · rw [f₃, h₅]
    show 0 + s.src.length = _
    rw [Nat.zero_add]
  · rw [f₃, h₅, ← hd]
    rfl

/-- What a completed COMPRESS has written (R232, R74, R102). -/
theorem compressSource_done {s t : State} (h : compressSource s = .done t) :
    ∃ c payload, Compressed s c ∧ t.snk = s.snk ++ c.headBytes ++ payload ∧
      bitsOf payload = c.codeBits s.src ++ List.replicate t.pad.val false ∧
      8 * payload.length = (symbols.map fun b => c.ftAt b * (c.ctAt b).len.val).sum + t.pad.val ∧
      t.pad = padOf c.encodedBits ∧ t.sp = s.src.length ∧
      t = { c with pad := t.pad, snk := t.snk, acc := t.acc, fill := t.fill, sp := t.sp,
                   phase := .done } := by
  rw [compressSource_eq] at h
  obtain ⟨a, ha, h⟩ := Run.andThen_eq_done.1 h
  obtain ⟨b, hb, h⟩ := Run.andThen_eq_done.1 h
  obtain ⟨c, hc, h⟩ := Run.andThen_eq_done.1 h
  have hC := compressed_of ha hb hc
  obtain ⟨t', payload, h₁, h₂⟩ := compress_tail hC
  rw [h] at h₁
  cases h₁
  exact ⟨c, payload, hC, h₂⟩

theorem Compressed.coded_eq {s c : State} (h : Compressed s c) :
    c.coded = symbols.filter fun b => decide (0 < c.ftAt b) := by
  unfold State.coded
  exact List.filter_congr fun b _ => by simp [h.codes.codedIffCounted b]

theorem Compressed.coded_length {s c : State} (h : Compressed s c) : c.coded.length = c.nsym.val := by
  rw [h.coded_eq, h.nsym]

/-- DEC_HEADER and UNPACK_RUN over a file of prefix-free codes (R233, R217). -/
theorem decompressSource_done (s : State) (p c : Byte) (recs ys : List FileRecord)
    (payload : List Byte) (padding : List Bool)
    (hrest : s.rest = p :: c :: (recs.flatMap FileRecord.bytes ++ payload)) (hp : p.toNat ≤ 7)
    (hlen : recs.length = (readCountByte c).val) (hv : ∀ r ∈ recs, r.Valid)
    (hinc : recs.Pairwise fun r q => Incomparable r.code q.code) (hy : ∀ y ∈ ys, y ∈ recs)
    (hpad : padding.length = p.toNat)
    (hb : bitsOf payload = ys.flatMap FileRecord.code ++ padding) :
    ∃ t, decompressSource s = .done t ∧ t.snk = s.snk ++ ys.map FileRecord.sym ∧
      t.sp = s.src.length ∧ t.nsym.val = recs.length ∧ t.pad.val = p.toNat ∧ t.err = .noError := by
  have hclear : s.clear.rest = s.rest := rfl
  have hnd : (recs.map FileRecord.code).Nodup := by
    rw [List.nodup_iff_pairwise_ne, List.pairwise_map]
    refine hinc.imp ?_
    intro r q hrq e
    rw [e] at hrq
    exact hrq.1 List.prefix_rfl
  obtain ⟨u, h₁, h₂, h₃, _, h₅, h₆, h₇⟩ := readHeader_done s.clear p c recs payload
    (by rw [hclear, hrest]) hp hlen hv hnd
  have hbits : ∀ r ∈ recs, r.entry.code.toBits = r.code := fun r hr =>
    Code.toBits_ofBits (hv r hr).2.1
  have hpf : u.PrefixFree := by
    constructor
    · rw [h₅, List.pairwise_map]
      refine hinc.imp_of_mem ?_
      intro r q hr hq hrq
      rw [hbits r hr, hbits q hq]
      exact hrq
    · rw [h₅]
      intro e he
      obtain ⟨r, hr, rfl⟩ := List.mem_map.1 he
      refine ⟨?_, Code.leftAligned_ofBits (hv r hr).2.1⟩
      show 1 ≤ (Code.ofBits r.code).len.val
      rw [Code.ofBits_len (hv r hr).2.1]
      exact (hv r hr).1
  have hsp : u.sp ≤ u.src.length := by
    have hl := congrArg List.length hrest
    simp only [State.rest, List.length_drop, List.length_cons, List.length_append,
      flatMap_bytes_length hv] at hl
    rw [h₇]
    show s.sp + 2 + 17 * recs.length ≤ s.src.length
    omega
  have hunpack := unpackPayload_codes u (ys.map FileRecord.entry) padding (by rw [h₇]; rfl) hsp hpf
    (by
      intro y hy'
      obtain ⟨r, hr, rfl⟩ := List.mem_map.1 hy'
      rw [h₅]
      exact List.mem_map_of_mem (hy r hr))
    (by rw [hpad, h₂])
    (by
      rw [h₆, hb, List.flatMap_map]
      congr 1
      exact List.flatMap_congr fun r hr => (hbits r (hy r hr)).symm)
  refine ⟨{ u with snk := u.snk ++ (ys.map FileRecord.entry).map (fun y => y.sym),
                   sp := u.src.length, phase := .done }, ?_, ?_, ?_, h₃, h₂, ?_⟩
  · unfold decompressSource
    show ((readHeader s.clear).andThen unpackPayload) = _
    rw [h₁, Run.done_andThen, hunpack]
  · show u.snk ++ _ = _
    rw [h₇, List.map_map]
    rfl
  · show u.src.length = _
    rw [h₇]
    rfl
  · show u.err = _
    rw [h₇]
    rfl

end Sys2Proof.Machine
end

