-- ==== Sys2Proof/Tests/Slice0.lean ====
section
/-! SUPPORT. Tests: the encodings written out from spec/30_encoding.md, one step on small states with the
results of spec/95_test_vectors.md, and for every statement with hypotheses a state that meets them. -/

namespace Sys2Proof.Tests

open Sys2Proof.Machine

-- One theorem after the other: each evaluation in the kernel waits for the declarations before it.
set_option Elab.async false

/-! ### Helpers -/

/-- The state an outcome leaves. -/
def after (o : Host.Outcome State Fault Refusal) : State :=
  match o with
  | .next t => t
  | .fault _ => State.reset
  | .refused _ => State.reset

/-- Whether an outcome is a next state. -/
def answers (o : Host.Outcome State Fault Refusal) : Bool :=
  match o with
  | .next _ => true
  | .fault _ => false
  | .refused _ => false

theorem next_after {o : Host.Outcome State Fault Refusal} (h : answers o = true) :
    o = .next (after o) := by
  cases o with
  | next t => rfl
  | fault f => cases h
  | refused r => cases h

/-- The state after one command. -/
def ran (i : Instr) (s : State) : State := after (exec i s)

/-- The state after one step. -/
def stepped (s : State) : State := after (step s)

/-- A source, from reset. -/
def source (bs : List Byte) : State := { State.reset with src := bs }

/-- The source "ABC". -/
def abc : List Byte := [0x41, 0x42, 0x43]

/-- `CNT_W` bits for a count. -/
def withCntW (n : Nat) (s : State) : State := { s with cfg := { s.cfg with cntW := n } }

/-- The policy `FAULT`. -/
def withFaultPolicy (s : State) : State := { s with cfg := { s.cfg with policy := .fault } }

/-- A host that writes one word to `CMD`. -/
def hostWrites (w : Word) (s : State) : State := { s with host := [.writeReg 0x0000 w] }

/-- A frequency table in `COUNTING`. -/
def counting (es : List (Byte × Nat)) : State :=
  { es.foldl (fun s e => s.setFt e.1 e.2) State.reset with
    total := (es.map Prod.snd).sum, phase := .counting }

/-- A code table in the given phase. -/
def coded (es : List (Byte × List Bool)) (p : Phase) : State :=
  { es.foldl (fun s e => s.setCt e.1 (Code.ofBits e.2)) State.reset with phase := p }

/-- The codes of vector V3.5: A = "0", B = "10", N = "11", in `PACKING`. -/
def packingBanana : State :=
  coded [(0x41, [false]), (0x42, [true, false]), (0x4E, [true, true])] .packing

/-- The characters of a code. -/
def chars (c : List Bool) : List Byte := c.map fun b => if b then 0x31 else 0x30

/-- `rec(sym, "c")` of spec/95_test_vectors.md: 17 bytes. -/
def recd (sym : Byte) (c : List Bool) : List Byte :=
  sym :: chars c ++ List.replicate (16 - c.length) 0x00

/-- The same record as the statements write it. -/
def frec (sym : Byte) (c : List Bool) : FileRecord :=
  { sym := sym, code := c, junk := List.replicate (15 - c.length) 0x00 }

/-- An inverse table of up to three records, in `TABLE_READY`. -/
def table (es : List (Byte × List Bool)) (pad : Fin 8) (payload : List Byte) : State :=
  { source payload with
    it := ((List.range es.length).zip es).foldl
      (fun t e => t.set (Fin.ofNat 256 e.1) { sym := e.2.1, code := Code.ofBits e.2.2 })
      (Table.fill 256 Entry.zero)
    itN := Fin.ofNat 257 es.length, nsym := Fin.ofNat 257 es.length, pad := pad,
    phase := .tableReady }

/-! ### Well-formedness: one ill-formed term for each check -/

/-- R8 with "Parameters a model takes as arguments" of spec/92_eei_decisions.md: `CNT_W ≥ 1`. -/
theorem test_wellFormed_cntW_zero : Config.wellFormed { cntW := 0, policy := .fault } = false := by
  decide

/-- R94: 0x03 is in no row of R91. -/
theorem test_wellFormed_reserved_opcode : wordWellFormed 0x03 0x00 = false := by decide

/-- R90, R94: TREE_BUILD is of format `Z`. -/
theorem test_wellFormed_nonzero_operand : wordWellFormed 0x20 0x01 = false := by decide

/-- R92: every byte is a Symbol. -/
theorem test_wellFormed_symbols : ∀ b : Byte, wordWellFormed 0x50 b = true := by decide +kernel

/-! ### Decoding: each word written out from R91 -/

theorem test_decode_clear : decode 0b0000000100000000 = .ok .clear := by decide
theorem test_decode_rewind : decode 0b0000001000000000 = .ok .rewind := by decide
theorem test_decode_freqByte : decode 0b0001000001000001 = .ok (.freqByte 0x41) := by decide
theorem test_decode_freqRun : decode 0b0001000100000000 = .ok .freqRun := by decide
theorem test_decode_treeBuild : decode 0b0010000000000000 = .ok .treeBuild := by decide
theorem test_decode_codeGen : decode 0b0011000000000000 = .ok .codeGen := by decide
theorem test_decode_encHeader : decode 0b0100000000000000 = .ok .encHeader := by decide
theorem test_decode_packSym : decode 0b0101000011111111 = .ok (.packSym 0xFF) := by decide
theorem test_decode_packRun : decode 0b0101000100000000 = .ok .packRun := by decide
theorem test_decode_packFlush : decode 0b0101001000000000 = .ok .packFlush := by decide
theorem test_decode_decHeader : decode 0b0110000000000000 = .ok .decHeader := by decide
theorem test_decode_unpackRun : decode 0b0111000000000000 = .ok .unpackRun := by decide
theorem test_decode_compress : decode 0b1000000000000000 = .ok .compress := by decide
theorem test_decode_decompress : decode 0b1000000100000000 = .ok .decompress := by decide

/-- V8.2: format `Z` with an operand. -/
theorem test_decode_nonzero_operand : decode 0x2001 = .error .nonzeroOperand := by decide

/-- V8.3: reserved opcodes. -/
theorem test_decode_reserved :
    decode 0xFFFF = .error .reservedOpcode ∧ decode 0x0300 = .error .reservedOpcode ∧
      decode 0x0000 = .error .reservedOpcode := by decide

/-- The host's two entry points agree with the decoder. -/
theorem test_table_word : decodeTableWord 16 0x1041 = some (.freqByte 0x41) := by decide

theorem test_fetch_word :
    ((stepped (State.reset.withFetchWord 16 0x1041)).ftAt 0x41) = 1 := by decide +kernel

/-! ### One command each -/

/-- V8.9: CLEAR empties the registers; the sink and `SP` stay. -/
theorem test_clear :
    let s := ran .clear { packingBanana with fill := 1, sp := 2, snk := [0xAA] }
    s.phase = .idle ∧ s.fill = 0 ∧ (s.ctAt 0x42).len = 0 ∧ s.sp = 2 ∧ s.snk = [0xAA] := by
  decide +kernel

/-- V8.10. -/
theorem test_rewind :
    let s := ran .rewind { source abc with sp := 2, phase := .done }
    s.sp = 0 ∧ s.phase = .done := by decide +kernel

/-- V8.11: REWIND is ignored in `FAULT`. -/
theorem test_rewind_in_fault :
    (ran .rewind { source abc with sp := 2, phase := .fault }).sp = 2 := by decide +kernel

/-- V1.1. -/
theorem test_freqByte :
    let s := ran (.freqByte 0x41) State.reset
    s.ftAt 0x41 = 1 ∧ s.total = 1 ∧ s.phase = .counting ∧ s.sp = 0 := by decide +kernel

/-- V1.9: FREQ_BYTE in `TREE_READY`. -/
theorem test_freqByte_badSequence :
    let s := ran (.freqByte 0x41) { State.reset with phase := .treeReady }
    s.err = .badSequence ∧ s.errInfo = 0x1041 ∧ s.phase = .fault ∧ s.ftAt 0x41 = 0 := by
  decide +kernel

/-- V1.3, shortened to "ABA". -/
theorem test_freqRun :
    let s := ran .freqRun (source [0x41, 0x42, 0x41])
    s.ftAt 0x41 = 2 ∧ s.ftAt 0x42 = 1 ∧ s.total = 3 ∧ s.sp = 3 ∧ s.phase = .counting := by
  decide +kernel

/-- V1.7: the fourth byte is consumed, not counted. -/
theorem test_freqRun_overflow :
    let s := ran .freqRun (withCntW 2 (source [0x41, 0x42, 0x43, 0x44]))
    s.ftAt 0x44 = 0 ∧ s.total = 3 ∧ s.sp = 4 ∧ s.phase = .fault ∧ s.err = .countOverflow ∧
      s.errInfo = 0x0044 := by decide +kernel

/-- V2.3: leaf C sorts ahead of A and B, and the left child is the first removed. -/
theorem test_treeBuild :
    let s := ran .treeBuild (counting [(0x41, 2), (0x42, 2), (0x43, 1)])
    s.nodeAt 2 = { kind := .leaf, sym := 0x43, freq := 1, left := 0, right := 0 } ∧
      s.nodeAt 3 = { kind := .internal, sym := 0, freq := 3, left := 2, right := 0 } ∧
      s.nodeAt 4 = { kind := .internal, sym := 0, freq := 5, left := 1, right := 3 } ∧
      s.nnodes = 5 ∧ s.root = 4 ∧ s.wl = [4] := by decide +kernel

/-- V2.5: node 3 goes after leaf A, which has the same frequency. -/
theorem test_treeBuild_ties :
    let s := ran .treeBuild (counting [(0x41, 3), (0x42, 1), (0x4E, 2)])
    s.nodeAt 4 = { kind := .internal, sym := 0, freq := 6, left := 0, right := 3 } := by
  decide +kernel

/-- The tree of V2.2 ("ABC"). -/
def treeAbc : State := (counting [(0x41, 1), (0x42, 1), (0x43, 1)]).withTree

/-- V3.2. -/
theorem test_codeGen :
    let s := ran .codeGen treeAbc
    s.ctAt 0x41 = { len := 2, bits := 0x8000 } ∧ s.ctAt 0x42 = { len := 2, bits := 0xC000 } ∧
      s.ctAt 0x43 = { len := 1, bits := 0x0000 } ∧ s.phase = .codesReady := by decide +kernel

/-- V3.10: the root is a Leaf. -/
theorem test_codeGen_single_leaf :
    (ran .codeGen (counting [(0x41, 6)]).withTree).ctAt 0x41 = { len := 1, bits := 0 } := by
  decide +kernel

/-- The codes of V3.1 ("AB"), with the counts they came from. -/
def codesAb : State :=
  { coded [(0x41, [false]), (0x42, [true])] .codesReady with
    ft := (counting [(0x41, 1), (0x42, 1)]).ft, total := 2, nsym := 2 }

/-- V4.1. -/
theorem test_encHeader :
    let s := ran .encHeader codesAb
    s.snk = [0x06, 0x02] ++ recd 0x41 [false] ++ recd 0x42 [true] ∧ s.pad = 6 ∧
      s.phase = .packing := by decide +kernel

/-- R97: 256 symbols are written as the byte 0. -/
theorem test_encHeader_count_256 :
    (ran .encHeader { State.reset with phase := .codesReady, nsym := 256 }).snk = [0x00, 0x00] := by
  decide +kernel

/-- V5.1. -/
theorem test_packSym :
    let s := ran (.packSym 0x42) packingBanana
    s.acc = 0x80 ∧ s.fill = 2 ∧ s.snk = [] := by decide +kernel

/-- V5.7: two bytes from one command. -/
theorem test_packSym_two_bytes :
    let s := ran (.packSym 0x58)
      { coded [(0x58, List.replicate 16 true)] .packing with fill := 7 }
    s.snk = [0x01, 0xFF] ∧ s.acc = 0xFE ∧ s.fill = 7 := by decide +kernel

/-- V5.3. -/
theorem test_packRun :
    let s := ran .packRun { packingBanana with src := [0x42, 0x41, 0x4E, 0x41, 0x4E, 0x41] }
    s.snk = [0x9B] ∧ s.acc = 0x00 ∧ s.fill = 1 ∧ s.sp = 6 := by decide +kernel

/-- R202, R259: the byte without a code has been consumed, the bit before it stays. -/
theorem test_packRun_uncoded :
    let s := ran .packRun { packingBanana with src := [0x42, 0x43, 0x41] }
    s.err = .noCodeForSymbol ∧ s.errInfo = 0x0043 ∧ s.sp = 2 ∧ s.acc = 0x80 ∧ s.fill = 2 := by
  decide +kernel

/-- V5.3, its end. -/
theorem test_packFlush :
    let s := ran .packFlush { packingBanana with snk := [0x9B], fill := 1 }
    s.snk = [0x9B, 0x00] ∧ s.fill = 0 ∧ s.phase = .done := by decide +kernel

/-- V5.10. -/
theorem test_packFlush_empty :
    let s := ran .packFlush packingBanana
    s.snk = [] ∧ s.phase = .done := by decide +kernel

/-- V6.11: the bytes after the first 0x00 of a code field are ignored. -/
theorem test_decHeader :
    let s := ran .decHeader (source ([0x06, 0x02] ++ (0x41 :: 0x30 :: 0x00 :: List.replicate 14 0xAA) ++
      (0x42 :: 0x31 :: 0x00 :: List.replicate 14 0x55) ++ [0x40]))
    s.records = [{ sym := 0x41, code := { len := 1, bits := 0x0000 } },
      { sym := 0x42, code := { len := 1, bits := 0x8000 } }] ∧
      s.pad = 6 ∧ s.nsym = 2 ∧ s.sp = 36 ∧ s.phase = .tableReady := by decide +kernel

/-- V6.10: count 0 means 256. -/
theorem test_decHeader_count_zero :
    let s := ran .decHeader (source ([0x00, 0x00] ++ recd 0x41 [false] ++ [0x00]))
    s.nsym = 256 ∧ s.itN = 1 ∧ s.err = .malformedHeader ∧ s.errInfo = 0x0001 ∧ s.sp = 19 := by
  decide +kernel

/-- V7.1. -/
theorem test_unpackRun :
    let s := ran .unpackRun (table [(0x41, [false]), (0x42, [true])] 6 [0x40])
    s.snk = [0x41, 0x42] ∧ s.sp = 1 ∧ s.phase = .done := by decide +kernel

/-- V7.9: a table that is not prefix-free; the match is tested after every bit. -/
theorem test_unpackRun_not_prefix_free :
    let s := ran .unpackRun (table [(0x41, [true]), (0x42, [true, false])] 5 [0xA0])
    s.snk = [0x41] ∧ s.err = .truncatedPayload ∧ s.errInfo = 0x0002 ∧ s.cand = 0x4000 := by
  decide +kernel

/-- V9.2. -/
theorem test_compress :
    let s := ran .compress (source [0x41, 0x42])
    s.snk = [0x06, 0x02] ++ recd 0x41 [false] ++ recd 0x42 [true] ++ [0x40] ∧ s.nsym = 2 ∧
      s.pad = 6 ∧ s.phase = .done := by decide +kernel

/-- V9.4. -/
theorem test_compress_empty :
    let s := ran .compress State.reset
    s.snk = [] ∧ s.err = .emptyInput ∧ s.errInfo = 0 ∧ s.phase = .fault := by decide +kernel

/-- V9.3, read back. -/
theorem test_decompress :
    let s := ran .decompress (source ([0x02, 0x01] ++ recd 0x41 [false] ++ [0x00]))
    s.snk = List.replicate 6 0x41 ∧ s.err = .noError ∧ s.sp = 20 := by decide +kernel

/-- V8.5, its end: DECOMPRESS runs from `FAULT`. -/
theorem test_decompress_from_fault :
    let s := ran .decompress { State.reset with
      phase := .fault, err := .badSequence, errInfo := 0x3000 }
    s.err = .malformedHeader ∧ s.errInfo = 0xFFFF ∧ s.phase = .fault := by decide +kernel

/-! ### The host's side -/

/-- V8.3: an illegal word. -/
theorem test_illegal_word :
    let s := stepped (hostWrites 0x0101 State.reset)
    s.err = .illegalCommand ∧ s.errInfo = 0x0101 ∧ s.phase = .fault := by decide +kernel

/-- R39: `PHASE` reads 15 in `FAULT`, `ERR` reads 0x0B, `ERRINFO` the word. -/
theorem test_read_registers :
    let s := ran .codeGen State.reset
    s.readReg 0x0001 = 15 ∧ s.readReg 0x0002 = 0x0B ∧ s.readReg 0x0003 = 0x3000 ∧
      s.readReg 0x0000 = 0 := by decide +kernel

/-- R39: the windows of the files, at their bounds. -/
theorem test_read_files :
    let s := (coded [(0xFF, [true])] .codesReady).setNode 510
      { kind := .internal, sym := 0, freq := 9, left := 508, right := 509 }
    s.readReg 0x02FF = 1 ∧ s.readReg 0x03FF = 0x8000 ∧ s.readReg 0x09FE = 1 ∧
      s.readReg 0x0DFE = 9 ∧ s.readReg 0x0FFE = 508 ∧ s.readReg 0x11FE = 509 ∧
      s.readReg 0x09FF = 0 ∧ s.readReg 0x1200 = 0 := by decide +kernel

/-- R32, R39: the entries past `WL_LEN` hold what the merges left there (V2.2: [0,1,2] → [2,3] → [4]). -/
theorem test_read_wl_stale :
    treeAbc.readReg 0x0009 = 1 ∧ treeAbc.readReg 0x0400 = 4 := by decide +kernel

/-- R290: reset during `FAULT`. -/
theorem test_reset_event :
    let s := stepped { source abc with
      phase := .fault, err := .badSequence, snk := [0x41], host := [.assertReset] }
    s.phase = .idle ∧ s.err = .noError ∧ s.snk = [] ∧ s.src = abc := by decide +kernel

/-! ### Witnesses: states that meet the hypotheses of the statements

A statement that is not named here has no hypothesis. -/

theorem witness_DecodedWordEncodesBack : decode 0x50FF = .ok (.packSym 0xFF) := by decide

theorem witness_DecodeAcceptsExactlyWellFormedWords :
    (∃ i, decode 0x10FF = .ok i) ∧ wordWellFormed (opcodeOf 0x10FF) (operandOf 0x10FF) = true ∧
      wordWellFormed (opcodeOf 0x11FF) (operandOf 0x11FF) = false :=
  ⟨⟨.freqByte 0xFF, by decide⟩, by decide, by decide⟩

theorem witness_StepRunsDecodedCommand :
    (hostWrites 0x3000 State.reset).host = .writeReg 0x0000 0x3000 :: [] ∧
      decode 0x3000 = .ok .codeGen := ⟨rfl, by decide⟩

/-- A reserved opcode, and an operand of format `Z` one above the only legal one. -/
theorem witness_IllegalWordTraps :
    (hostWrites 0x2001 State.reset).host = .writeReg 0x0000 0x2001 :: [] ∧
      (hostWrites 0x2001 State.reset).phase ≠ .fault ∧
      wordWellFormed (opcodeOf 0x2001) (operandOf 0x2001) = false ∧
      wordWellFormed (opcodeOf 0xFFFF) (operandOf 0xFFFF) = false :=
  ⟨rfl, by decide, by decide, by decide⟩

/-- A trapped block. -/
def trapped : State := State.reset.trap .badSequence 0x3000

theorem witness_FaultIgnoresOtherWords :
    (hostWrites 0x0101 trapped).host = .writeReg 0x0000 0x0101 :: [] ∧
      (hostWrites 0x0101 trapped).phase = .fault ∧ (0x0101 : Word) ≠ 0x0100 ∧
      (0x0101 : Word) ≠ 0x8000 ∧ (0x0101 : Word) ≠ 0x8100 :=
  ⟨rfl, rfl, by decide, by decide, by decide⟩

theorem witness_CommandsFollowThePhaseTable_illegal :
    State.reset.phase ≠ .fault ∧ State.reset.phase ∉ legalPhases .codeGen := by decide

theorem witness_CommandsFollowThePhaseTable_fault :
    trapped.phase = .fault ∧ trapped.phase ∉ legalPhases .rewind := by decide

theorem witness_CommandsFollowThePhaseTable_legal :
    State.reset.phase ∈ legalPhases .freqRun ∧
      exec .freqRun State.reset = .next (ran .freqRun State.reset) :=
  ⟨by decide, next_after (by decide +kernel)⟩

theorem witness_ResetEventRestoresTheResetState :
    ({ trapped with host := [.assertReset] } : State).host = .assertReset :: [] := rfl

/-- A trapped block with something in the sink. -/
theorem witness_ClearRestoresAllButTheStreams :
    SinkBase [0x99] { trapped with snk := [0x99] } := rfl

theorem witness_RewindMovesTheSourceToItsStart :
    State.reset.phase ≠ .fault ∧ trapped.phase = .fault := by decide

/-! #### Frequency analyzer -/

/-- One below the bound, and at the bound. -/
theorem witness_FreqByteCountsOneSymbol :
    let s := withCntW 2 (counting [(0x41, 2)])
    let t := withCntW 2 (counting [(0x41, 3)])
    (s.phase = .idle ∨ s.phase = .counting) ∧ s.total ≠ 2 ^ s.cfg.cntW - 1 ∧
      (t.phase = .idle ∨ t.phase = .counting) ∧ t.total = 2 ^ t.cfg.cntW - 1 := by decide +kernel

/-- A source attached after reset is a *CleanEntry*. -/
theorem source_cleanEntry (bs : List Byte) : CleanEntry (source bs) :=
  ⟨rfl, rfl, rfl, rfl, rfl, rfl, rfl, rfl, rfl, rfl, rfl⟩

/-- The bound itself is reached (V1.8). -/
theorem witness_FreqRunCountsTheRemainingSource :
    let s := withCntW 2 (source abc)
    NoIOFailure ∧ (s.phase = .idle ∨ s.phase = .counting) ∧ s.sp ≤ s.src.length ∧
      s.total + s.rest.length ≤ 2 ^ s.cfg.cntW - 1 ∧ SourceAtStart s ∧ CleanEntry s :=
  ⟨noIOFailure, by decide, by decide, by decide, rfl, rfl, rfl, rfl, rfl, rfl, rfl, rfl, rfl, rfl,
    rfl, rfl⟩

/-- The bound is passed by one (V1.7). -/
theorem witness_FreqRunStopsAtCountOverflow :
    let s := withCntW 2 (source [0x41, 0x42, 0x43, 0x44])
    NoIOFailure ∧ (s.phase = .idle ∨ s.phase = .counting) ∧ s.total ≤ 2 ^ s.cfg.cntW - 1 ∧
      2 ^ s.cfg.cntW - 1 < s.total + s.rest.length :=
  ⟨noIOFailure, by decide +kernel⟩

/-! #### Tree builder -/

theorem witness_TreeBuildOfEmptyTableTraps :
    (State.reset.phase = .idle ∨ State.reset.phase = .counting) ∧ ∀ b, State.reset.ftAt b = 0 :=
  ⟨.inl rfl, fun _ => Table.get_fill _ _⟩

theorem witness_TreeBuildOfOneSymbolTrapsUnderFaultPolicy :
    let s := withFaultPolicy (counting [(0xFF, 6)])
    (s.phase = .idle ∨ s.phase = .counting) ∧ s.cfg.policy = .fault ∧ 0 < s.ftAt 0xFF ∧
      ∀ c, c ≠ 0xFF → s.ftAt c = 0 := by decide +kernel

/-- One symbol under the default policy, and two under the policy `FAULT`. -/
theorem witness_TreeBuildEstablishesTheTree :
    (let s := counting [(0x41, 6)]
     (s.phase = .idle ∨ s.phase = .counting) ∧ 0 < s.ftAt 0x41 ∧ s.cfg.policy = .oneBitCode) ∧
    (let s := withFaultPolicy (counting [(0x41, 1), (0x42, 1)])
     (s.phase = .idle ∨ s.phase = .counting) ∧ (0x41 : Byte) ≠ 0x42 ∧ 0 < s.ftAt 0x41 ∧
       0 < s.ftAt 0x42) := by decide +kernel

/-- The merge of V2.3 that makes node 4, with the merge before it. -/
theorem witness_TreeBuildMergesTheTwoLeast :
    let s := counting [(0x41, 2), (0x42, 2), (0x43, 1)]
    let t := ran .treeBuild s
    exec .treeBuild s = .next t ∧ t.phase = .treeReady ∧ s.phase ≠ .treeReady ∧
      t.nsym.val ≤ (4 : NodeIx).val ∧ (4 : NodeIx).val < t.nnodes.val ∧
      t.nsym.val ≤ (3 : NodeIx).val ∧ (3 : NodeIx).val < (4 : NodeIx).val :=
  ⟨next_after (by decide +kernel), by decide +kernel⟩

/-- Two states with one table, one of them with an old arena. -/
theorem witness_TreeDependsOnTheTableOnly :
    let s := counting [(0x41, 1), (0x42, 1)]
    let s' := { s.setNode 7 (leafOf 0x7A 9) with snk := [0x41] }
    s.ft = s'.ft ∧ s.cfg.policy = s'.cfg.policy ∧
      exec .treeBuild s = .next (ran .treeBuild s) ∧
      exec .treeBuild s' = .next (ran .treeBuild s') ∧
      (ran .treeBuild s).phase = .treeReady ∧ (ran .treeBuild s').phase = .treeReady ∧
      s.phase ≠ .treeReady ∧ s'.phase ≠ .treeReady :=
  ⟨rfl, rfl, next_after (by decide +kernel), next_after (by decide +kernel), by decide +kernel⟩

/-- A list that is in order, with an entry of the same frequency as the new one and one of greater. -/
theorem witness_InsertOrderedKeepsTheOrder :
    let s := { counting [] with
      nodes := (((Table.fill 511 Node.zero).set 0 (leafOf 0x41 1)).set 1 (leafOf 0x42 2)).set 2
        (leafOf 0x43 1), wl := [0, 1] }
    s.wl.Pairwise (fun i j => s.freqOf i ≤ s.freqOf j) ∧ (s.insertOrdered 2).wl = [0, 2, 1] := by
  decide +kernel

/-! #### Code table generator -/

theorem treeAbc_ok : treeAbc.TreeOk := withTree_treeOk _ (by decide +kernel)

theorem treeAbc_nsym : treeAbc.nsym.val = 3 := by decide +kernel

theorem witness_CodeGenOfSingleLeafAssignsZero :
    let s := (counting [(0x41, 6)]).withTree
    s.phase = .treeReady ∧ (s.nodeAt s.root).kind = .leaf := by decide +kernel

theorem witness_CodeGenWritesRootToLeafPaths :
    treeAbc.phase = .treeReady ∧ treeAbc.TreeOk ∧ 2 ≤ treeAbc.nsym.val ∧
      ∀ path i, treeAbc.LeafPath path i → path.length ≤ 16 :=
  ⟨by decide +kernel, treeAbc_ok, by decide +kernel, fun path i h => by
    have := treeAbc_ok.leafPath_length h
    rw [treeAbc_nsym] at this
    omega⟩

/-- `FT[i] = fib[i]` for `n` symbols (V3.14 to V3.16): the deepest trees there are. -/
def fibonacci (n : Nat) : State :=
  counting ((List.range n).map fun i =>
    (BitVec.ofNat 8 i, (Nat.rec (1, 1) (fun _ p => (p.2, p.1 + p.2)) i : Nat × Nat).1))

/-- The boundary: 17 symbols of V3.15, where the longest code has 16 choices. -/
theorem witness_CodeGenWritesRootToLeafPaths_boundary :
    let s := (fibonacci 17).withTree
    s.phase = .treeReady ∧ s.TreeOk ∧ 2 ≤ s.nsym.val ∧
      (∀ path i, s.LeafPath path i → path.length ≤ 16) ∧
      s.LeafPath (List.replicate 16 true) 1 := by
  have hok : ((fibonacci 17).withTree).TreeOk := withTree_treeOk _ (by decide +kernel)
  have hn : ((fibonacci 17).withTree).nsym.val = 17 := by decide +kernel
  refine ⟨by decide +kernel, hok, by decide +kernel, fun path i h => ?_, ?_⟩
  · have := hok.leafPath_length h
    rw [hn] at this
    omega
  · exact ⟨by decide +kernel, by decide +kernel⟩

theorem witness_GeneratedCodesArePrefixFreeAndComplete :
    treeAbc.phase = .treeReady ∧ treeAbc.TreeOk ∧ treeAbc.ct = Table.fill 256 Code.zero ∧
      exec .codeGen treeAbc = .next (ran .codeGen treeAbc) ∧
      (ran .codeGen treeAbc).phase = .codesReady :=
  ⟨by decide +kernel, treeAbc_ok, by decide +kernel, next_after (by decide +kernel),
    by decide +kernel⟩

/-- The 18 symbols of V3.16: symbol 0 is the first leaf at depth 17. -/
theorem witness_CodeGenTrapsAtFirstTooDeepLeaf :
    let s := (fibonacci 18).withTree
    s.phase = .treeReady ∧ s.TreeOk ∧ ∃ path i, s.LeafPath path i ∧ 16 < path.length :=
  ⟨by decide +kernel, withTree_treeOk _ (by decide +kernel),
    List.replicate 16 true ++ [false], 0, ⟨by decide +kernel, by decide +kernel⟩, by decide⟩

/-! #### Codec framer -/

theorem witness_EncHeaderWritesHeaderAndRecords :
    NoIOFailure ∧ SinkBase [0x99] { codesAb with snk := [0x99] } ∧
      ({ codesAb with snk := [0x99] } : State).phase = .codesReady := ⟨noIOFailure, rfl, rfl⟩

theorem frec_valid (sym : Byte) {c : List Bool} (h : 1 ≤ c.length) (h' : c.length ≤ 16) :
    (frec sym c).Valid := by
  refine ⟨h, h', ?_⟩
  show (c.map choiceChar ++ _).length = 16
  rw [List.length_append, List.length_map]
  split
  · next hlt =>
    have : c.length < 16 := hlt
    simp only [List.length_cons, frec, List.length_replicate]
    omega
  · next hge =>
    have : ¬ c.length < 16 := hge
    simp only [List.length_nil]
    omega

/-- A code of 16 choices, and one whose terminator is followed by filler other than 0x00. -/
def oddRecords : List FileRecord :=
  [frec 0x42 (List.replicate 16 true), { sym := 0x41, code := [false], junk := List.replicate 14 0xAA }]

theorem oddRecords_valid : ∀ r ∈ oddRecords, r.Valid := by
  intro r hr
  rcases List.mem_cons.1 hr with e | hr
  · rw [e]; exact frec_valid _ (by decide) (by decide)
  · rw [List.mem_singleton.1 hr]; exact ⟨by decide, by decide, by decide⟩

theorem witness_DecHeaderReadsTheTable :
    let s := source (0x07 :: 0x02 :: (oddRecords.flatMap FileRecord.bytes ++ [0x40]))
    let file : List Byte := 0x07 :: 0x02 :: (oddRecords.flatMap FileRecord.bytes ++ [0x40])
    let u := { source (0x99 :: file) with sp := 1 }
    NoIOFailure ∧ s.phase = .idle ∧ SourceAtStart s ∧ s.src = file ∧ u.phase = .idle ∧
      u.rest = file ∧
      (0x07 : Byte).toNat ≤ 7 ∧
      oddRecords.length = (if (0x02 : Byte) = 0 then 256 else (0x02 : Byte).toNat) ∧
      (∀ r ∈ oddRecords, r.Valid) ∧ (oddRecords.map FileRecord.code).Nodup :=
  ⟨noIOFailure, rfl, rfl, rfl, rfl, rfl, by decide, by decide, oddRecords_valid, by decide⟩

/-- 256 records: the codes of 8 choices, in the order of V4.5. -/
def allRecords : List FileRecord :=
  symbols.map fun b => frec b ((List.range 8).map (streamBit b))

/-- The count byte 0x00. -/
theorem witness_DecHeaderReadsTheTable_256 :
    let s := source (0x00 :: 0x00 :: (allRecords.flatMap FileRecord.bytes ++ []))
    NoIOFailure ∧ s.phase = .idle ∧ SourceAtStart s ∧
      s.src = 0x00 :: 0x00 :: (allRecords.flatMap FileRecord.bytes ++ []) ∧
      allRecords.length = (if (0x00 : Byte) = 0 then 256 else (0x00 : Byte).toNat) ∧
      (∀ r ∈ allRecords, r.Valid) ∧ (allRecords.map FileRecord.code).Nodup := by
  refine ⟨noIOFailure, rfl, rfl, rfl, by decide +kernel, ?_, ?_⟩
  · intro r hr
    obtain ⟨b, _, rfl⟩ := List.mem_map.1 hr
    exact frec_valid _ (by simp) (by simp)
  · rw [allRecords, List.map_map]
    refine symbols_nodup.map_on fun a _ b _ h => Byte.ext_msb fun i hi => ?_
    have hbits : (List.range 8).map (streamBit a) = (List.range 8).map (streamBit b) := h
    have := congrArg (fun l => l[i]?) hbits
    simpa [hi, streamBit] using this

/-- One byte, and a padding byte of 8 (V6.4, V6.5). -/
theorem witness_DecHeaderRejectsMalformedHeaderBytes :
    NoIOFailure ∧ (source [0x00]).phase = .idle ∧ (source [0x00]).rest.length < 2 ∧
      (source [0x08, 0x01]).phase = .idle ∧ (source [0x08, 0x01]).rest = 0x08 :: 0x01 :: [] ∧
      7 < (0x08 : Byte).toNat :=
  ⟨noIOFailure, by decide⟩

/-- After one record: 16 bytes, a record of the code "12", and the code of the first record again
(V6.6, V6.8, V6.9). -/
theorem witness_DecHeaderRejectsBadRecords :
    let recs := [frec 0x41 [false]]
    let short := List.replicate 16 0x30
    let bad := [0x31, 0x32] ++ List.replicate 14 0x00
    let again := frec 0x42 [false]
    NoIOFailure ∧
      (∀ tail, CleanEntry (source (0x00 :: 0x02 :: (recs.flatMap FileRecord.bytes ++ tail))) ∧
      (source (0x00 :: 0x02 :: (recs.flatMap FileRecord.bytes ++ tail))).phase = .idle ∧
      (source (0x00 :: 0x02 :: (recs.flatMap FileRecord.bytes ++ tail))).itN = 0 ∧
      (source (0x00 :: 0x02 :: (recs.flatMap FileRecord.bytes ++ tail))).rest =
        0x00 :: 0x02 :: (recs.flatMap FileRecord.bytes ++ tail)) ∧
      (0x00 : Byte).toNat ≤ 7 ∧
      recs.length < (if (0x02 : Byte) = 0 then 256 else (0x02 : Byte).toNat) ∧
      (∀ r ∈ recs, r.Valid) ∧ (recs.map FileRecord.code).Nodup ∧ short.length < 17 ∧
      bad.length = 16 ∧ BadField bad ∧ again.Valid ∧ again.code ∈ recs.map FileRecord.code := by
  refine ⟨noIOFailure, fun tail => ⟨source_cleanEntry _, rfl, rfl, rfl⟩, by decide, by decide, ?_,
    by decide, by decide, by decide, ?_,
    frec_valid _ (by decide) (by decide), by decide⟩
  · intro r hr
    rw [List.mem_singleton.1 hr]
    exact frec_valid _ (by decide) (by decide)
  · exact .inr ⟨0x32, by decide, by decide, by decide⟩

theorem codesAb_eq (b : Byte) :
    codesAb.ctAt b = if (0x42 : Byte) = b then Code.ofBits [true]
      else if (0x41 : Byte) = b then Code.ofBits [false] else Code.zero := by
  have h : codesAb.ctAt b =
      ((State.reset.setCt 0x41 (Code.ofBits [false])).setCt 0x42 (Code.ofBits [true])).ctAt b := rfl
  rw [h, setCt_ctAt, setCt_ctAt]
  have h0 : State.reset.ctAt b = Code.zero := Table.get_fill _ _
  rw [h0]

theorem codesAb_aligned (b : Byte) : LeftAligned (codesAb.ctAt b).len.val (codesAb.ctAt b).bits := by
  rw [codesAb_eq]
  split
  · exact Code.leftAligned_ofBits (by simp)
  · split
    · exact Code.leftAligned_ofBits (by simp)
    · exact leftAligned_zero _

theorem witness_DecHeaderReadsWhatEncHeaderWrote :
    let S0 : List Byte := []
    let t := ran .encHeader codesAb
    let u := source (t.snk.drop S0.length ++ [0x40])
    NoIOFailure ∧ SinkBase S0 codesAb ∧ codesAb.phase = .codesReady ∧
      (∀ b, LeftAligned (codesAb.ctAt b).len.val (codesAb.ctAt b).bits) ∧
      (∀ b d, b ≠ d → 0 < (codesAb.ctAt b).len.val → codesAb.ctAt b ≠ codesAb.ctAt d) ∧
      codesAb.nsym.val = (symbols.filter fun b => 0 < (codesAb.ctAt b).len.val).length ∧
      1 ≤ codesAb.nsym.val ∧ exec .encHeader codesAb = .next t ∧ u.phase = .idle ∧
      SourceAtStart u ∧ u.src = t.snk.drop S0.length ++ [0x40] ∧
      u.rest = t.snk.drop S0.length ++ [0x40] := by
  refine ⟨noIOFailure, rfl, by decide, codesAb_aligned, ?_, by decide +kernel, by decide +kernel,
    next_after (by decide +kernel), rfl, rfl, rfl, rfl⟩
  intro b d hne
  rw [codesAb_eq, codesAb_eq]
  split
  · next hb =>
    rw [if_neg (fun hd => hne (hb.symm.trans hd))]
    split <;> decide
  · split
    · next hb =>
      rw [if_neg (c := (0x41 : Byte) = d) (fun hd => hne (hb.symm.trans hd))]
      split <;> decide
    · intro h; exact absurd h (by decide)

/-! #### Bit packer -/

/-- One bit is pending: ACC = 0x80, FILL = 1. -/
def pending : State := { packingBanana with acc := 0x80, fill := 1, src := [0x42, 0x43] }

theorem pending_clear : ∀ j, pending.fill.val ≤ j → pending.acc.getMsbD j = false := by
  intro j hj
  by_cases h : j < 8
  · have : ∀ k : Fin 8, 1 ≤ k.val → (0x80 : Byte).getMsbD k.val = false := by decide
    exact this ⟨j, h⟩ hj
  · exact BitVec.getMsbD_of_ge _ _ (by omega)

theorem witness_PackSymAppendsTheCode :
    NoIOFailure ∧ SinkBase [] pending ∧ pending.phase = .packing ∧
      (∀ j, pending.fill.val ≤ j → pending.acc.getMsbD j = false) ∧
      0 < (pending.ctAt 0x42).len.val :=
  ⟨noIOFailure, rfl, rfl, pending_clear, by decide +kernel⟩

theorem witness_PackSymOfUncodedSymbolTraps :
    NoIOFailure ∧ pending.phase = .packing ∧ (pending.ctAt 0x43).len.val = 0 :=
  ⟨noIOFailure, by decide +kernel⟩

theorem witness_PackRunAppendsTheRemainingSource :
    let s := { pending with src := [0x42, 0x4E] }
    NoIOFailure ∧ SinkBase [] s ∧ s.phase = .packing ∧
      (∀ j, s.fill.val ≤ j → s.acc.getMsbD j = false) ∧ s.sp ≤ s.src.length ∧
      ∀ b ∈ s.rest, 0 < (s.ctAt b).len.val :=
  ⟨noIOFailure, rfl, rfl, pending_clear, by decide, by decide +kernel⟩

/-- The two passes of a unit-level compression over one source. -/
theorem witness_PackRunAppendsTheRemainingSource_counted :
    let r := source [0x42, 0x4E]
    let t := ran .freqRun r
    let s := { pending with src := [0x42, 0x4E], ft := t.ft }
    SourceAtStart r ∧ SourceFixed r s ∧ exec .freqRun r = .next t ∧ t.phase = .counting ∧
      s.ft = t.ft ∧ ∀ b, 0 < s.ftAt b → 0 < (s.ctAt b).len.val :=
  ⟨rfl, rfl, next_after (by decide +kernel), by decide +kernel, rfl, by decide +kernel⟩

theorem witness_PackRunStopsAtUncodedByte :
    NoIOFailure ∧ SinkBase [] pending ∧ pending.phase = .packing ∧
      (∀ j, pending.fill.val ≤ j → pending.acc.getMsbD j = false) ∧
      pending.rest = [0x42] ++ 0x43 :: [] ∧ (∀ x ∈ [0x42], 0 < (pending.ctAt x).len.val) ∧
      (pending.ctAt 0x43).len.val = 0 :=
  ⟨noIOFailure, rfl, rfl, pending_clear, by decide, by decide +kernel, by decide +kernel⟩

/-- A partial byte, and none. -/
theorem witness_PackFlushWritesThePartialByte :
    NoIOFailure ∧ SinkBase [] pending ∧ SinkBase [] packingBanana ∧ pending.phase = .packing ∧
      pending.fill ≠ 0 ∧
      packingBanana.phase = .packing ∧
      packingBanana.fill = 0 := ⟨noIOFailure, by decide⟩

theorem witness_PackedPayloadHasTheDeclaredPadding :
    let xs : List Byte := [0x42, 0x41]
    NoIOFailure ∧ SinkBase [] codesAb ∧ codesAb.phase = .codesReady ∧
      (∀ b, xs.count b = codesAb.ftAt b) ∧
      ∀ b, 0 < codesAb.ftAt b → 0 < (codesAb.ctAt b).len.val :=
  ⟨noIOFailure, by decide +kernel⟩

/-! #### Bit unpacker -/

/-- The table of V7.6: A = "0", B = "10", C = "11". -/
def tableAbc (pad : Fin 8) (payload : List Byte) : State :=
  table [(0x41, [false]), (0x42, [true, false]), (0x43, [true, true])] pad payload

/-- Its records. -/
def entriesAbc : List Entry :=
  [{ sym := 0x41, code := Code.ofBits [false] }, { sym := 0x42, code := Code.ofBits [true, false] },
    { sym := 0x43, code := Code.ofBits [true, true] }]

theorem tableAbc_records (pad : Fin 8) (payload : List Byte) :
    (tableAbc pad payload).records = entriesAbc := by
  show (tableAbc 0 []).records = entriesAbc
  decide +kernel

theorem tableAbc_prefixFree (pad : Fin 8) (payload : List Byte) :
    ((tableAbc pad payload).records.Pairwise fun e f => Incomparable e.code.toBits f.code.toBits) ∧
      (∀ e ∈ (tableAbc pad payload).records,
        1 ≤ e.code.len.val ∧ LeftAligned e.code.len.val e.code.bits) ∧
      (tableAbc pad payload).records.Pairwise fun e f => e.code ≠ f.code := by
  rw [tableAbc_records]
  refine ⟨?_, ?_, by decide⟩
  · unfold Incomparable
    decide
  · intro e he
    simp only [entriesAbc, List.mem_cons, List.not_mem_nil, or_false] at he
    rcases he with rfl | rfl | rfl <;>
      exact ⟨by decide, Code.leftAligned_ofBits (by simp)⟩

/-- A bit that completes a code, one that does not, and a sixteenth that does not. -/
theorem witness_UnpackBitTestsTheCandidateAfterEveryBit :
    let s := { tableAbc 0 [] with cand := leftAlign [true], candLen := 1 }
    let u := { table [(0x41, List.replicate 16 false)] 0 [] with
      cand := leftAlign (List.replicate 15 true), candLen := 15 }
    [true].length ≤ 15 ∧ s.cand = leftAlign [true] ∧ s.candLen.val = [true].length ∧
      (∃ e ∈ s.records, e.code.toBits = [true] ++ [false]) ∧
      (∀ e ∈ (tableAbc 0 []).records, e.code.toBits ≠ [] ++ [true]) ∧ ([] : List Bool).length ≤ 14 ∧
      u.cand = leftAlign (List.replicate 15 true) ∧
      u.candLen.val = (List.replicate 15 true).length ∧
      (∀ e ∈ u.records, e.code.toBits ≠ List.replicate 15 true ++ [true]) := by decide +kernel

/-- The same table meets the two hypotheses about every record. -/
theorem witness_UnpackBitTestsTheCandidateAfterEveryBit_records :
    let s := { tableAbc 0 [] with cand := leftAlign [true], candLen := 1 }
    (∀ e ∈ s.records, LeftAligned e.code.len.val e.code.bits) ∧
      s.records.Pairwise (fun e f => e.code ≠ f.code) :=
  ⟨fun e he => ((tableAbc_prefixFree 0 []).2.1 e he).2, (tableAbc_prefixFree 0 []).2.2⟩

/-- The codes "0", "10" and five bits of padding that are not 0 (V7.3). -/
theorem witness_UnpackRunDecodesPrefixFreeCodes :
    let s := tableAbc 5 [0x5F]
    let ys := entriesAbc.take 2
    NoIOFailure ∧ SinkBase [] s ∧ s.phase = .tableReady ∧ s.cand = 0 ∧ s.candLen = 0 ∧
      s.sp ≤ s.src.length ∧
      s.records.Pairwise (fun e f => Incomparable e.code.toBits f.code.toBits) ∧
      (∀ e ∈ s.records, 1 ≤ e.code.len.val ∧ LeftAligned e.code.len.val e.code.bits) ∧
      (∀ y ∈ ys, y ∈ s.records) ∧ (List.replicate 5 true).length = s.pad.val ∧
      bitsOf s.rest = ys.flatMap (fun y => y.code.toBits) ++ List.replicate 5 true := by
  refine ⟨noIOFailure, rfl, rfl, rfl, rfl, by decide, (tableAbc_prefixFree 5 _).1,
    (tableAbc_prefixFree 5 _).2.1, ?_,
    rfl, by decide⟩
  rw [tableAbc_records]
  decide

/-- V7.4 and V7.5. -/
theorem witness_UnpackRunOfEmptyPayload :
    NoIOFailure ∧ (tableAbc 0 []).phase = .tableReady ∧ (tableAbc 0 []).rest = [] ∧
      (tableAbc 0 []).pad = 0 ∧
      (tableAbc 3 []).phase = .tableReady ∧ (tableAbc 3 []).rest = [] ∧
      (tableAbc 3 []).pad ≠ 0 :=
  ⟨noIOFailure, by decide⟩

/-- V7.6: the payload 0x55 ends inside a code. -/
theorem witness_UnpackRunEndingInsideACodeTraps :
    let s := tableAbc 0 [0x55]
    let ys := [entriesAbc[0], entriesAbc[1], entriesAbc[1], entriesAbc[1]]
    NoIOFailure ∧ SinkBase [] s ∧ s.phase = .tableReady ∧ s.cand = 0 ∧ s.candLen = 0 ∧
      s.sp ≤ s.src.length ∧
      s.records.Pairwise (fun e f => Incomparable e.code.toBits f.code.toBits) ∧
      (∀ e ∈ s.records, 1 ≤ e.code.len.val ∧ LeftAligned e.code.len.val e.code.bits) ∧
      (∀ y ∈ ys, y ∈ s.records) ∧ ([] : List Bool).length = s.pad.val ∧ 1 ≤ [true].length ∧
      [true].length ≤ 15 ∧ (∀ e ∈ s.records, ¬ e.code.toBits <+: [true]) ∧
      bitsOf s.rest = ys.flatMap (fun y => y.code.toBits) ++ [true] ++ [] := by
  refine ⟨noIOFailure, rfl, rfl, rfl, rfl, by decide, (tableAbc_prefixFree 0 _).1,
    (tableAbc_prefixFree 0 _).2.1, ?_,
    rfl, by decide, by decide, ?_, by decide⟩
  · rw [tableAbc_records]
    decide
  · rw [tableAbc_records]
    decide

/-- V7.7: eight times A, then a 1 and fifteen 0 that match nothing. -/
theorem witness_UnpackRunOfUnmatchedBitsTraps :
    let s := table [(0x41, [false])] 0 [0x00, 0x80, 0x00, 0x00]
    let e : Entry := { sym := 0x41, code := Code.ofBits [false] }
    let lost := true :: List.replicate 15 false
    NoIOFailure ∧ SinkBase [] s ∧ s.phase = .tableReady ∧ s.cand = 0 ∧ s.candLen = 0 ∧
      s.records = [e] ∧
      s.records.Pairwise (fun e f => Incomparable e.code.toBits f.code.toBits) ∧
      (∀ e ∈ s.records, 1 ≤ e.code.len.val ∧ LeftAligned e.code.len.val e.code.bits) ∧
      (∀ y ∈ List.replicate 8 e, y ∈ s.records) ∧ s.pad.val ≤ (List.replicate 8 false).length ∧
      lost.length = 16 ∧ (∀ e ∈ s.records, ¬ e.code.toBits <+: lost) ∧
      bitsOf s.rest = (List.replicate 8 e).flatMap (fun y => y.code.toBits) ++ lost ++
        List.replicate 8 false := by
  have hr : (table [(0x41, [false])] 0 [0x00, 0x80, 0x00, 0x00]).records =
      [{ sym := 0x41, code := Code.ofBits [false] }] := by decide +kernel
  refine ⟨noIOFailure, rfl, rfl, rfl, rfl, hr, ?_, ?_, ?_, by decide, by decide, ?_, by decide⟩
  · rw [hr]
    exact List.pairwise_singleton _ _
  · rw [hr]
    intro e he
    rw [List.mem_singleton.1 he]
    exact ⟨by decide, Code.leftAligned_ofBits (by simp)⟩
  · rw [hr]
    decide
  · rw [hr]
    decide

/-! #### Top level -/

/-- A source attached after reset, where CLEAR and REWIND have nothing to do. -/
theorem witness_CompressIsTheUnitSequence :
    NoIOFailure ∧ (source abc).Inv ∧ CleanEntry (source abc) ∧ SourceAtStart (source abc) :=
  ⟨noIOFailure,
    (State.Inv.clear (s := State.reset) memory_wf_reset).withInputs abc (Nat.zero_le _) [] 0,
    source_cleanEntry _, rfl⟩

/-- The same inside a source: *SourceAtStart* is not needed. -/
theorem witness_DecompressIsTheUnitSequence :
    let s := { source abc with sp := 1 }
    NoIOFailure ∧ s.Inv ∧ CleanEntry s :=
  ⟨noIOFailure,
    (State.Inv.clear (s := State.reset) memory_wf_reset).withInputs abc (by decide) [] 0,
    rfl, rfl, rfl, rfl, rfl, rfl, rfl, rfl, rfl, rfl, rfl⟩

/-- Three symbols, at the bound of `CNT_W = 2` (V9.18). -/
theorem witness_CompressCompletes :
    let s := withCntW 2 (source abc)
    NoIOFailure ∧ SinkBase [] s ∧ s.src ≠ [] ∧ s.src.length ≤ 2 ^ s.cfg.cntW - 1 ∧
      s.cfg.policy = .oneBitCode ∧
      s.src.dedup.length ≤ 17 :=
  ⟨noIOFailure, by decide +kernel⟩

/-- 17 symbols, and two symbols under the policy `FAULT`. -/
theorem witness_CompressCompletes_boundary :
    (source (symbols.take 17)).src.dedup.length = 17 ∧
    (let s := withFaultPolicy (source abc)
     s.cfg.policy = .fault ∧ (0x41 : Byte) ≠ 0x42 ∧ 0x41 ∈ s.src ∧ 0x42 ∈ s.src) := by
  decide +kernel

/-- The second way to meet the condition on the tree. -/
theorem witness_CompressCompletes_tree :
    ∀ t path i, execAll [.clear, .rewind, .freqRun, .treeBuild] (source abc) = .next t →
      t.LeafPath path i → path.length ≤ 16 := by
  intro t path i h hl
  have hu : execAll [.clear, .rewind, .freqRun] (source abc) =
      .next (after (execAll [.clear, .rewind, .freqRun] (source abc))) :=
    next_after (by decide +kernel)
  have hsplit := execAll_append [.clear, .rewind, .freqRun] [.treeBuild] (source abc)
  rw [hu] at hsplit
  have hc : (after (execAll [.clear, .rewind, .freqRun] (source abc))).counted.length = 3 := by
    decide +kernel
  have hp : legalIn .treeBuild (after (execAll [.clear, .rewind, .freqRun] (source abc))).phase =
      true := by decide +kernel
  revert hc hp hsplit
  generalize after (execAll [.clear, .rewind, .freqRun] (source abc)) = u
  intro hsplit hc hp
  have hne : u.counted ≠ [] := by intro e; rw [e] at hc; cases hc
  have hb : buildTree u = .done u.withTree := by
    rcases buildTree_eq u with ⟨e, _⟩ | ⟨e, he, _⟩ | ⟨_, _, e⟩
    · exact absurd e hne
    · rw [he] at hc; cases hc
    · exact e
  have ht : t = u.withTree := by
    have := h.symm.trans hsplit
    change _ = execAll [.treeBuild] u at this
    rw [execAll_singleton, exec_legal hp] at this
    simp only [bodyOf] at this
    rw [hb] at this
    exact Host.Outcome.next.inj this
  rw [ht] at hl
  have hok := withTree_treeOk u hne
  have := hok.leafPath_length hl
  rw [(withTree_spec u hne).2.2.2.1, hc] at this
  omega

theorem witness_FailedCompressWritesNothing :
    NoIOFailure ∧ SinkBase [] State.reset ∧
      exec .compress State.reset = .next (ran .compress State.reset) ∧
      (ran .compress State.reset).phase = .fault :=
  ⟨noIOFailure, rfl, next_after (by decide +kernel), by decide +kernel⟩

/-- One of the two has compressed before and has a sink. -/
theorem witness_CompressDependsOnTheSourceOnly :
    let s := source [0x41, 0x42]
    let s' := { packingBanana with src := [0x41, 0x42], snk := [0x9B], fill := 3, sp := 1 }
    NoIOFailure ∧ SinkBase [] s ∧ SinkBase [0x9B] s' ∧ SourceFixed s s' ∧ s.cfg = s'.cfg ∧
      exec .compress s = .next (ran .compress s) ∧ exec .compress s' = .next (ran .compress s') :=
  ⟨noIOFailure, rfl, rfl, rfl, rfl, next_after (by decide +kernel), next_after (by decide +kernel)⟩

/-- The file of V7.3: V9.2 with padding bits that are not 0. -/
theorem witness_DecompressReadsAFile :
    let recs := [frec 0x41 [false], frec 0x42 [true]]
    let s := source (0x06 :: 0x02 :: (recs.flatMap FileRecord.bytes ++ [0x7F]))
    let file : List Byte := 0x06 :: 0x02 :: (recs.flatMap FileRecord.bytes ++ [0x7F])
    let u := { source (0x99 :: file) with sp := 1 }
    NoIOFailure ∧ SinkBase [] s ∧ SourceAtStart s ∧ s.src = file ∧ SinkBase [] u ∧ u.rest = file ∧
      (0x06 : Byte).toNat ≤ 7 ∧
      recs.length = (if (0x02 : Byte) = 0 then 256 else (0x02 : Byte).toNat) ∧
      (∀ r ∈ recs, r.Valid) ∧ recs.Pairwise (fun r q => Incomparable r.code q.code) ∧
      (∀ y ∈ recs, y ∈ recs) ∧ (List.replicate 6 true).length = (0x06 : Byte).toNat ∧
      bitsOf [0x7F] = recs.flatMap FileRecord.code ++ List.replicate 6 true := by
  refine ⟨noIOFailure, rfl, rfl, rfl, rfl, rfl, by decide, by decide, ?_, ?_, fun _ h => h,
    by decide, by decide⟩
  · intro r hr
    rcases List.mem_cons.1 hr with e | hr
    · rw [e]; exact frec_valid _ (by decide) (by decide)
    · rw [List.mem_singleton.1 hr]; exact frec_valid _ (by decide) (by decide)
  · unfold Incomparable
    decide

theorem witness_RoundTripIdentity :
    let s := { source [0x41, 0x42] with snk := [0x99] }
    let t := ran .compress s
    let u := { source (t.snk.drop [0x99].length) with snk := [0x55] }
    let u' := { u with src := 0x00 :: u.src, sp := 1 }
    NoIOFailure ∧ SinkBase [0x99] s ∧ SinkBase [0x55] u ∧ SinkBase [0x55] u' ∧
      exec .compress s = .next t ∧ t.phase = .done ∧ SourceAtStart u ∧
      u.src = t.snk.drop [0x99].length ∧ u'.rest = t.snk.drop [0x99].length :=
  ⟨noIOFailure, rfl, rfl, rfl, next_after (by decide +kernel), by decide +kernel, rfl, rfl, rfl⟩

/-! #### Whole-machine rules -/

/-- One host access of each kind that leaves the error, and one that clears it. -/
theorem witness_ErrorStaysUntilCleared :
    trapped.phase = .fault ∧
      step (hostWrites 0x0200 trapped) = .next (stepped (hostWrites 0x0200 trapped)) ∧
      step (hostWrites 0x0100 trapped) = .next (stepped (hostWrites 0x0100 trapped)) ∧
      (hostWrites 0x0100 trapped).host = .writeReg 0x0000 0x0100 :: [] :=
  ⟨rfl, next_after (by decide +kernel), next_after (by decide +kernel), rfl⟩

theorem witness_SinkOnlyGrows :
    let s := hostWrites 0x5200 pending
    step s = .next (stepped s) ∧ ∀ rest, s.host ≠ .assertReset :: rest :=
  ⟨next_after (by decide +kernel), fun rest h => by cases h⟩

theorem witness_CommandsLeaveTheInputsAlone :
    exec .packRun pending = .next (ran .packRun pending) := next_after (by decide +kernel)

theorem witness_CommandsKeepTheirFrame :
    (∀ i ∈ [Instr.clear, .rewind, .freqByte 0x41, .freqRun, .treeBuild, .compress, .decompress],
      exec i (source abc) = .next (ran i (source abc))) ∧
    exec .codeGen treeAbc = .next (ran .codeGen treeAbc) ∧
    exec .encHeader codesAb = .next (ran .encHeader codesAb) ∧
    (∀ i ∈ [Instr.packSym 0x42, .packRun, .packFlush], exec i pending = .next (ran i pending)) ∧
    exec .decHeader (source abc) = .next (ran .decHeader (source abc)) ∧
    exec .unpackRun (tableAbc 0 [0x55]) = .next (ran .unpackRun (tableAbc 0 [0x55])) :=
  ⟨fun i hi => next_after (by revert i; decide +kernel), next_after (by decide +kernel),
    next_after (by decide +kernel), fun i hi => next_after (by revert i; decide +kernel),
    next_after (by decide +kernel), next_after (by decide +kernel)⟩

/-- States other than reset that meet the invariant: one in `COUNTING` and one in `TREE_READY`. -/
theorem witness_inv_counting : ((State.reset.counted1 0x41).counted1 0x42).Inv ∧
    ((State.reset.counted1 0x41).counted1 0x42).phase = .counting := by
  have h0 : CountInv State.reset :=
    ⟨State.Inv.clear (s := State.reset) memory_wf_reset, .inl rfl⟩
  have h1 : CountInv (State.reset.counted1 0x41) :=
    (countSymbol_inv 0x41 h0).done _ (countSymbol_lt _ _ (by decide))
  have h2 : CountInv ((State.reset.counted1 0x41).counted1 0x42) :=
    (countSymbol_inv 0x42 h1).done _ (countSymbol_lt _ _ (by decide))
  exact ⟨h2.1, rfl⟩

theorem witness_inv_treeReady : ∃ t : State, t.Inv ∧ t.phase = .treeReady := by
  obtain ⟨h, hp⟩ := witness_inv_counting
  have ht := buildTree_inv ⟨h, .inr hp⟩
  rcases buildTree_eq ((State.reset.counted1 0x41).counted1 0x42) with ⟨e, _⟩ | ⟨_, e, _⟩ | ⟨_, _, e⟩
  · exact absurd e (by decide +kernel)
  · have h2 : ((State.reset.counted1 0x41).counted1 0x42).counted.length = 2 := by decide +kernel
    rw [e] at h2
    cases h2
  · exact ⟨_, ht.done _ e⟩

/-- A command written in that state leaves a next state. -/
theorem witness_StepKeepsTheInvariant :
    let s := hostWrites 0x2000 ((State.reset.counted1 0x41).counted1 0x42)
    s.Inv ∧ step s = .next (stepped s) :=
  ⟨witness_inv_counting.1.withInputs [] (Nat.zero_le _) _ 0, next_after (by decide +kernel)⟩

theorem witness_StepsAreSafeUnderTheInvariant :
    (hostWrites 0x3000 ((State.reset.counted1 0x41).counted1 0x42)).Inv :=
  witness_inv_counting.1.withInputs [] (Nat.zero_le _) _ 0

/-- The two clauses about addresses meet at 0x000E and 0x000F, and at the ends of the files. -/
theorem witness_HostReadsFollowTheRegisterMap :
    Unlisted 0x000F ∧ Unlisted 0x00FF ∧ Unlisted 0x09FF ∧ Unlisted 0x1200 ∧ ¬ Unlisted 0x000E ∧
      ¬ Unlisted 0x0100 ∧ ¬ Unlisted 0x09FE ∧ ¬ Unlisted 0x0A00 ∧ ¬ Unlisted 0x11FE := by
  unfold Unlisted
  omega

theorem witness_HostAccessesHaveNoOtherEffect :
    State.reset.host = [] ∧
      ({ State.reset with host := [.readReg 0x0001] } : State).host = .readReg 0x0001 :: [] ∧
      ({ State.reset with host := [.writeReg 0x0001 0x2000] } : State).host =
        .writeReg 0x0001 0x2000 :: [] ∧ (0x0001 : Nat) ≠ 0x0000 ∧
      ({ State.reset with host := [.attachSource [0x41] [0x42]] } : State).host =
        .attachSource [0x41] [0x42] :: [] := ⟨rfl, rfl, rfl, by decide, rfl⟩

theorem witness_RegisterReadsFitTheBus : ((State.reset.counted1 0x41).counted1 0x42).Inv :=
  witness_inv_counting.1

end Sys2Proof.Tests
end

section
/-! SUPPORT. No step answers a fault or a refusal under the invariant (spec/00_scope.md R17, R310): no
body of a command is stuck but CODE_GEN's, and that one only on an arena that is no tree of R146. -/

namespace Sys2Proof.Machine

/-- A body that is not stuck leaves a next state (R17, R42). -/
theorem Run.outcome_safe {r : Run} (h : ∀ f, r ≠ .stuck f) : Safe r.outcome := by
  cases r with
  | done t => exact ⟨t, rfl⟩
  | raised t => exact ⟨t, rfl⟩
  | stuck f => exact absurd rfl (h f)

/-- A sequence is not stuck when its first part is not, nor its second part where the first completes. -/
theorem Run.andThen_ne_stuck {r : Run} {k : State → Run} (hr : ∀ f, r ≠ .stuck f)
    (hk : ∀ s, r = .done s → ∀ f, k s ≠ .stuck f) (f : Fault) : r.andThen k ≠ .stuck f := by
  rw [Ne, Run.andThen_eq_stuck]
  rintro (e | ⟨s, hs, e⟩)
  · exact hr f e
  · exact hk s hs f e

/-! ### The bodies -/

theorem countSymbol_ne_stuck (sym : Byte) (s : State) (f : Fault) : countSymbol sym s ≠ .stuck f := by
  unfold countSymbol
  split <;> simp

theorem packSymbol_ne_stuck (sym : Byte) (s : State) (f : Fault) : packSymbol sym s ≠ .stuck f := by
  unfold packSymbol
  split <;> simp

theorem buildTree_ne_stuck (s : State) (f : Fault) : buildTree s ≠ .stuck f := by
  rcases buildTree_eq s with ⟨_, e⟩ | ⟨_, _, _, e⟩ | ⟨_, _, e⟩ <;> simp [e]

/-- Whatever state TREE_BUILD starts from, the tree it completes is one of R146. -/
theorem treeOk_of_buildTree_done {s t : State} (h : buildTree s = .done t) : t.TreeOk := by
  rcases buildTree_eq s with ⟨_, e⟩ | ⟨_, _, _, e⟩ | ⟨hc, _, e⟩
  · rw [e] at h; cases h
  · rw [e] at h; cases h
  · rw [e] at h
    cases h
    exact withTree_treeOk s hc

theorem readRecord_ne_stuck (r : Nat) (s : State) (f : Fault) : readRecord r s ≠ .stuck f := by
  unfold readRecord
  split
  · simp
  · dsimp only
    split
    · simp
    · split
      · simp
      · split <;> simp

theorem readHeader_ne_stuck (s : State) (f : Fault) : readHeader s ≠ .stuck f := by
  unfold readHeader
  split
  · simp
  · split
    · unfold readTable
      split
      · simp
      · exact Run.andThen_ne_stuck (forEach_ne_stuck readRecord_ne_stuck _ _) (fun _ _ => by simp) f
    · simp

/-- COMPRESS runs CODE_GEN on a tree its own TREE_BUILD completed, so it needs no premise (R146,
R232). -/
theorem compressSource_ne_stuck (s : State) (f : Fault) : compressSource s ≠ .stuck f := by
  rw [compressSource_eq]
  refine Run.andThen_ne_stuck (countSource_ne_stuck _) (fun a _ => ?_) f
  refine Run.andThen_ne_stuck (buildTree_ne_stuck a) fun b hb => ?_
  refine Run.andThen_ne_stuck (treeOk_of_buildTree_done hb).generateCodes_ne_stuck fun c _ => ?_
  refine Run.andThen_ne_stuck (by simp [writeHeader]) fun d _ => ?_
  exact Run.andThen_ne_stuck (packSource_ne_stuck d.srcRewind) fun e _ => by simp [flush]

theorem decompressSource_ne_stuck (s : State) (f : Fault) : decompressSource s ≠ .stuck f :=
  Run.andThen_ne_stuck (readHeader_ne_stuck s.clear) (fun t _ => unpackPayload_ne_stuck t) f

/-- CODE_GEN is the only command whose body needs the arena to be a tree (R161). -/
theorem bodyOf_ne_stuck (i : Instr) {s : State} (h : i = .codeGen → s.TreeOk) :
    ∀ f, bodyOf i s ≠ .stuck f := by
  cases i with
  | clear => simp [bodyOf, clearAll]
  | rewind => simp [bodyOf, rewindSource]
  | freqByte sym => exact countSymbol_ne_stuck sym s
  | freqRun => exact countSource_ne_stuck s
  | treeBuild => exact buildTree_ne_stuck s
  | codeGen => exact (h rfl).generateCodes_ne_stuck
  | encHeader => simp [bodyOf, writeHeader]
  | packSym sym => exact packSymbol_ne_stuck sym s
  | packRun => exact packSource_ne_stuck s
  | packFlush => simp [bodyOf, flush]
  | decHeader => exact readHeader_ne_stuck s
  | unpackRun => exact unpackPayload_ne_stuck s
  | compress => exact compressSource_ne_stuck s
  | decompress => exact decompressSource_ne_stuck s

/-! ### Commands and steps -/

/-- Dispatch lets CODE_GEN run in `TREE_READY` only (R22), where the invariant has a tree of R146. -/
theorem State.Inv.treeOk_of_codeGen_legal {s : State} (h : s.Inv)
    (hl : legalIn .codeGen s.phase = true) : s.TreeOk := by
  have hp : s.phase = .treeReady := by simpa [legalIn] using hl
  exact h.tree (by rw [hp]; rfl)

theorem exec_safe (i : Instr) {s : State} (h : s.Inv) : Safe (exec i s) := by
  rw [exec_eq_issue]
  rcases issue_cases i (bodyOf i) s with ⟨_, _, e⟩ | ⟨_, _, e⟩ | ⟨hl, e⟩
  · exact ⟨_, e⟩
  · exact ⟨_, e⟩
  · rw [e]
    refine Run.outcome_safe (bodyOf_ne_stuck i ?_)
    rintro rfl
    exact h.treeOk_of_codeGen_legal hl

/-- Every word written to `CMD`, illegal ones included, leaves a next state (R93, R94). -/
theorem command_safe (w : Word) {s : State} (h : s.Inv) : Safe (command w s) := by
  unfold command
  split
  · exact exec_safe _ h
  · split
    · exact ⟨_, rfl⟩
    · exact ⟨_, rfl⟩

theorem hostEvent_safe (e : HostEvent) {s : State} (h : s.Inv) : Safe (hostEvent e s) := by
  cases e with
  | writeReg addr data =>
    dsimp only [hostEvent]
    split
    · exact command_safe data h
    · exact ⟨_, rfl⟩
  | readReg addr => exact ⟨_, rfl⟩
  | attachSource consumed rest => exact ⟨_, rfl⟩
  | assertReset => exact ⟨_, rfl⟩

/-- Settles O57: the one body that can be stuck is CODE_GEN's, and where dispatch lets it run the
invariant has a tree of R146, whose traversal ends. -/
theorem stepsAreSafeUnderTheInvariant : Obligations.StepsAreSafeUnderTheInvariant := by
  intro s h
  show Safe (advanceHost s)
  unfold advanceHost
  split
  · exact ⟨_, rfl⟩
  · next e rest _ => exact hostEvent_safe e (h.withInputs s.src h.spLe rest s.rdata)

end Sys2Proof.Machine
end

section
/-! SUPPORT. What a step can do: the equation of each kind of host event (spec/10_state.md R38 to R40,
R291), and the inversion of a step and of a command word (spec/30_encoding.md R93 to R95). -/

namespace Sys2Proof.Machine

theorem step_of_host_nil {s : State} (h : s.host = []) : step s = .next s := by
  rw [step, advanceHost, h]

theorem step_of_host_cons {s : State} {e : HostEvent} {rest : List HostEvent}
    (h : s.host = e :: rest) : step s = hostEvent e { s with host := rest } := by
  rw [step, advanceHost, h]

theorem hostEvent_writeReg_cmd (w : Word) (s : State) :
    hostEvent (.writeReg 0x0000 w) s = command w s := rfl

theorem hostEvent_writeReg_ne {addr : Nat} (h : addr ≠ 0x0000) (w : Word) (s : State) :
    hostEvent (.writeReg addr w) s = .next s := if_neg h

theorem command_of_decode_ok {w : Word} {i : Instr} (h : decode w = .ok i) (s : State) :
    command w s = exec i s := by
  rw [command, h]

/-- Every way a step can end in a next state: nothing to do, or one event of the host. -/
theorem step_next_cases {s t : State} (h : step s = .next t) :
    s.host = [] ∧ t = s ∨
    ∃ e rest, s.host = e :: rest ∧ hostEvent e { s with host := rest } = .next t := by
  cases hh : s.host with
  | nil =>
    rw [step_of_host_nil hh] at h
    cases h
    exact .inl ⟨rfl, rfl⟩
  | cons e rest => exact .inr ⟨e, rest, rfl, (step_of_host_cons hh).symm.trans h⟩

/-- Every way a command word can end in a next state: ignored in `FAULT`, refused as illegal, or run (R93
to R95). -/
theorem command_next_cases {w : Word} {s t : State} (h : command w s = .next t) :
    t = s ∨ t = s.trap .illegalCommand w ∨ ∃ i, decode w = .ok i ∧ exec i s = .next t := by
  unfold command at h
  split at h
  · next i hi => exact .inr (.inr ⟨i, hi, h⟩)
  · split at h <;> cases h
    · exact .inl rfl
    · exact .inr (.inl rfl)

/-- Settles O6: a write to `CMD` hands its word to the dispatch, which runs the command it decodes to. -/
theorem stepRunsDecodedCommand : Obligations.StepRunsDecodedCommand := by
  intro s w i rest hh hi
  rw [step_of_host_cons hh, hostEvent_writeReg_cmd, command_of_decode_ok hi]

/-- Settles O59: each host event but a write to `CMD` has its own equation. -/
theorem hostAccessesHaveNoOtherEffect : Obligations.HostAccessesHaveNoOtherEffect := by
  intro s rest
  refine ⟨step_of_host_nil, fun addr hh => ?_, fun addr data hh ha => ?_, fun before after hh => ?_⟩
  · exact step_of_host_cons hh
  · rw [step_of_host_cons hh, hostEvent_writeReg_ne ha]
  · exact step_of_host_cons hh

end Sys2Proof.Machine
end

section
/-! SUPPORT. Every step keeps the invariant: the bodies one by one (spec/10_state.md R22), the bodies of
COMPRESS and DECOMPRESS as chains (R232, R233), dispatch, and the other host events. -/

namespace Sys2Proof.Machine

theorem Run.Leaves.next {r : Run} (h : r.Leaves State.Inv) {t : State} (ht : r.outcome = .next t) :
    t.Inv := by
  rcases Run.outcome_eq_next.1 ht with e | e
  · exact h.done t e
  · exact h.raised t e

theorem Run.Leaves.mono {r : Run} {P Q : State → Prop} (h : r.Leaves P) (hpq : ∀ t, P t → Q t) :
    r.Leaves Q := ⟨fun t ht => hpq t (h.done t ht), h.raised⟩

/-- COMPRESS starts from CLEAR and hands each unit command the phase it needs, so it needs of the
invariant only that `SP` is inside the source (R232). -/
theorem compressSource_inv (s : State) : (compressSource s).Leaves State.Inv := by
  have hclear : s.srcRewind.clear.Inv := State.Inv.clear (memory_wf_srcRewind s)
  have hstart : CountInv s.compressStart := ⟨hclear, .inl rfl⟩
  rw [compressSource_eq]
  refine (countSource_inv hstart).andThen fun a ha => ?_
  refine (buildTree_inv ha).andThen fun b ⟨hb, hbp⟩ => ?_
  refine (generateCodes_inv hb hbp).andThen fun c ⟨hc, hcp⟩ => ?_
  have hd : (writeHeader c).Leaves PackInv :=
    ⟨fun d e => ⟨(writeHeader_inv hc hcp).done d e, (writeHeader_ends c).done d e⟩,
      (writeHeader_inv hc hcp).raised⟩
  refine hd.andThen fun d ⟨hd, hdp⟩ => ?_
  exact (packSource_inv ⟨hd.srcRewind, hdp⟩).andThen fun e he => flush_inv he

theorem decompressSource_inv {s : State} (h : Memory.wf s) :
    (decompressSource s).Leaves State.Inv := by
  have hr : (readHeader s.clear).Leaves fun t => t.Inv ∧ t.phase = .tableReady :=
    ⟨fun t e => ⟨(readHeader_inv (State.Inv.clear h) rfl).done t e, (readHeader_ends _).done t e⟩,
      (readHeader_inv (State.Inv.clear h) rfl).raised⟩
  exact hr.andThen fun t ⟨ht, hp⟩ => unpackPayload_inv ht hp

/-- Where dispatch lets a command run (R22), its body keeps the invariant. -/
theorem bodyOf_inv {i : Instr} {s : State} (h : s.Inv) (hl : legalIn i s.phase = true) :
    (bodyOf i s).Leaves State.Inv := by
  cases i with
  | clear => exact Run.leaves_done (State.Inv.clear h.spLe)
  | rewind => exact Run.leaves_done h.srcRewind
  | freqByte sym =>
    exact (countSymbol_inv sym ⟨h, by simpa [legalIn] using hl⟩).mono fun _ ht => ht.1
  | freqRun => exact (countSource_inv ⟨h, by simpa [legalIn] using hl⟩).mono fun _ ht => ht.1
  | treeBuild => exact (buildTree_inv ⟨h, by simpa [legalIn] using hl⟩).mono fun _ ht => ht.1
  | codeGen => exact (generateCodes_inv h (by simpa [legalIn] using hl)).mono fun _ ht => ht.1
  | encHeader => exact writeHeader_inv h (by simpa [legalIn] using hl)
  | packSym sym =>
    exact (packSymbol_inv sym ⟨h, by simpa [legalIn] using hl⟩).mono fun _ ht => ht.1
  | packRun => exact (packSource_inv ⟨h, by simpa [legalIn] using hl⟩).mono fun _ ht => ht.1
  | packFlush => exact flush_inv ⟨h, by simpa [legalIn] using hl⟩
  | decHeader => exact readHeader_inv h (by simpa [legalIn] using hl)
  | unpackRun => exact unpackPayload_inv h (by simpa [legalIn] using hl)
  | compress => exact compressSource_inv s
  | decompress => exact decompressSource_inv h.spLe

theorem exec_inv {i : Instr} {s t : State} (h : s.Inv) (he : exec i s = .next t) : t.Inv := by
  rw [exec_eq_issue] at he
  rcases issue_cases i (bodyOf i) s with ⟨_, _, e⟩ | ⟨_, _, e⟩ | ⟨hl, e⟩ <;> rw [e] at he
  · cases he; exact h
  · cases he; exact h.fields.trap (by simp) (by simp) _
  · exact (bodyOf_inv h hl).next he

theorem command_inv {w : Word} {s t : State} (h : s.Inv) (hc : command w s = .next t) : t.Inv := by
  rcases command_next_cases hc with rfl | rfl | ⟨i, _, he⟩
  · exact h
  · exact h.fields.trap (by simp) (by simp) w
  · exact exec_inv h he

/-- Reset leaves what CLEAR leaves with `SP` and `SNK` emptied first (R290, R292). -/
theorem State.afterReset_eq_clear (s : State) :
    s.afterReset = ({ s with sp := 0, snk := [] } : State).clear := rfl

theorem hostEvent_inv {e : HostEvent} {s t : State} (h : s.Inv) (he : hostEvent e s = .next t) :
    t.Inv := by
  cases e with
  | writeReg addr w =>
    by_cases ha : addr = 0x0000
    · subst ha
      exact command_inv h he
    · rw [hostEvent_writeReg_ne ha] at he
      cases he; exact h
  | readReg addr => cases he; exact h.withInputs s.src h.spLe s.host _
  | attachSource consumed rest =>
    cases he
    exact h.withInputs (consumed ++ rest) (memory_wf_attach s consumed rest) s.host s.rdata
  | assertReset =>
    cases he
    rw [State.afterReset_eq_clear]
    exact State.Inv.clear (Nat.zero_le _)

/-- Settles O56: the invariant says nothing of the host's events, and each body keeps it in the phases
in which its command is legal. -/
theorem stepKeepsTheInvariant : Obligations.StepKeepsTheInvariant := by
  intro s t h hst
  rcases step_next_cases hst with ⟨_, rfl⟩ | ⟨e, rest, _, he⟩
  · exact h
  · exact hostEvent_inv (h.withInputs s.src h.spLe rest s.rdata) he

/-- Settles O55: reset leaves what CLEAR leaves at the start of an empty source. -/
theorem invariantHoldsAtReset : Obligations.InvariantHoldsAtReset := by
  have hclear : State.reset.clear.Inv := State.Inv.clear memory_wf_reset
  exact hclear

end Sys2Proof.Machine
end

section
/-! SUPPORT. The frame of every command (spec/10_state.md R22, R28 to R37, R42), and what follows from it:
no command changes the inputs of the block, and the sink only grows (R43, R61, R62). -/

namespace Sys2Proof.Machine

/-- A transitive relation that two bodies respect, their sequence respects. -/
theorem Run.Post.andThen_trans {r : Run} {k : State → Run} {s : State} {R : State → State → Prop}
    (htrans : ∀ a b c, R a b → R b c → R a c) (h : r.Post (R s)) (hk : ∀ t, (k t).Post (R t)) :
    (r.andThen k).Post (R s) :=
  Run.post_andThen h (fun t ht => (hk t).mono fun u hu => htrans s t u ht hu) h.2

theorem countSymbol_ftAt_ne (sym : Byte) (s : State) :
    (countSymbol sym s).Post fun t => ∀ b, b ≠ sym → t.ftAt b = s.ftAt b := by
  unfold countSymbol
  split
  · exact Run.post_raised.2 fun _ _ => rfl
  · refine Run.post_done.2 fun b hb => ?_
    exact (setFt_ftAt s sym b _).trans (if_neg hb.symm)

/-- What ENC_HEADER can change (R170). -/
def HeaderFrame (s t : State) : Prop :=
  s.snk <+: t.snk ∧ t = { s with
    pad := t.pad, snk := t.snk, acc := t.acc, fill := t.fill, phase := t.phase, err := t.err,
    errInfo := t.errInfo }

theorem writeHeader_frame (s : State) : (writeHeader s).Post (HeaderFrame s) :=
  Run.post_done.2 ⟨List.prefix_append _ _, rfl⟩

/-- What the unit commands of COMPRESS can change between them (R232). -/
def EncodeFrame (s t : State) : Prop :=
  s.snk <+: t.snk ∧ t = { s with
    phase := t.phase, err := t.err, errInfo := t.errInfo, nsym := t.nsym, pad := t.pad,
    total := t.total, ft := t.ft, nodes := t.nodes, nnodes := t.nnodes, root := t.root,
    wl := t.wl, wlStale := t.wlStale, ct := t.ct, acc := t.acc, fill := t.fill, sp := t.sp,
    snk := t.snk }

theorem EncodeFrame.trans (s t u : State) (h : EncodeFrame s t) (h' : EncodeFrame t u) :
    EncodeFrame s u := by
  refine ⟨h.1.trans h'.1, ?_⟩
  have := h'.2
  rw [h.2] at this
  exact this

theorem CountRunFrame.encode {s t : State} (h : CountRunFrame s t) : EncodeFrame s t := by
  rw [h]; exact ⟨List.prefix_rfl, rfl⟩

theorem TreeFrame.encode {s t : State} (h : TreeFrame s t) : EncodeFrame s t := by
  rw [h]; exact ⟨List.prefix_rfl, rfl⟩

theorem CodeFrame.encode {s t : State} (h : CodeFrame s t) : EncodeFrame s t := by
  rw [h]; exact ⟨List.prefix_rfl, rfl⟩

theorem HeaderFrame.encode {s t : State} (h : HeaderFrame s t) : EncodeFrame s t :=
  ⟨h.1, by rw [h.2]⟩

theorem PackFrame.encode {s t : State} (h : PackFrame s t) : EncodeFrame s t :=
  ⟨h.1, by rw [h.2]⟩

theorem flush_encode (s : State) : (flush s).Post (EncodeFrame s) :=
  (flush_frame s).mono fun _ h => ⟨h.1, by rw [h.2]⟩

theorem compressSource_frame (s : State) : (compressSource s).Post (EncodeFrame s.compressStart) := by
  rw [compressSource_eq]
  refine ((countSource_frame _).mono fun _ => CountRunFrame.encode).andThen_trans EncodeFrame.trans
    fun a => ?_
  refine ((buildTree_frame a).mono fun _ => TreeFrame.encode).andThen_trans EncodeFrame.trans
    fun b => ?_
  refine ((generateCodes_frame b).mono fun _ => CodeFrame.encode).andThen_trans EncodeFrame.trans
    fun c => ?_
  refine ((writeHeader_frame c).mono fun _ => HeaderFrame.encode).andThen_trans EncodeFrame.trans
    fun d => ?_
  have hd : EncodeFrame d d.srcRewind := ⟨List.prefix_rfl, rfl⟩
  have hp : (packSource d.srcRewind).Post (EncodeFrame d) :=
    (packSource_frame _).mono fun t ht => EncodeFrame.trans d _ t hd ht.encode
  exact hp.andThen_trans EncodeFrame.trans flush_encode

/-- What DEC_HEADER and UNPACK_RUN can change between them (R233). -/
def DecodeFrame (s t : State) : Prop :=
  s.snk <+: t.snk ∧ t = { s with
    phase := t.phase, err := t.err, errInfo := t.errInfo, nsym := t.nsym, pad := t.pad,
    it := t.it, itN := t.itN, cand := t.cand, candLen := t.candLen, sp := t.sp, snk := t.snk }

theorem DecodeFrame.trans (s t u : State) (h : DecodeFrame s t) (h' : DecodeFrame t u) :
    DecodeFrame s u := by
  refine ⟨h.1.trans h'.1, ?_⟩
  have := h'.2
  rw [h.2] at this
  exact this

theorem ReadFrame.decode {s t : State} (h : ReadFrame s t) : DecodeFrame s t := by
  rw [h]; exact ⟨List.prefix_rfl, rfl⟩

theorem UnpackFrame.decode {s t : State} (h : UnpackFrame s t) : DecodeFrame s t :=
  ⟨h.1, by rw [h.2]⟩

theorem decompressSource_frame (s : State) : (decompressSource s).Post (DecodeFrame s.clear) :=
  ((readHeader_frame s.clear).mono fun _ => ReadFrame.decode).andThen_trans DecodeFrame.trans
    fun t => (unpackPayload_frame t).mono fun _ => UnpackFrame.decode

/-- REWIND is legal wherever it is not ignored, so it never traps (R22, R231). -/
theorem exec_rewind_frame {s t : State} (h : exec .rewind s = .next t) : t = { s with sp := t.sp } := by
  by_cases hp : s.phase = .fault
  · rw [exec_ignored hp rfl] at h
    cases h; rfl
  · rw [exec_legal (by simpa [legalIn] using hp)] at h
    cases h; rfl

/-- Settles O54: dispatch writes the phase and the error only, and each body has its own frame. -/
theorem commandsKeepTheirFrame : Obligations.CommandsKeepTheirFrame := by
  intro i s t h
  cases i with
  | clear => rw [exec_legal rfl] at h; cases h; rfl
  | rewind => exact exec_rewind_frame h
  | freqByte sym =>
    have hc : CountFrame s t := issue_next h rfl rfl (countSymbol_frame sym s)
    exact ⟨issue_next h (fun _ _ => rfl) (fun _ _ => rfl) (countSymbol_ftAt_ne sym s), hc⟩
  | freqRun =>
    show CountRunFrame s t
    exact issue_next h rfl rfl (countSource_frame s)
  | treeBuild =>
    show TreeFrame s t
    exact issue_next h rfl rfl (buildTree_frame s)
  | codeGen =>
    show CodeFrame s t
    exact issue_next h rfl rfl (generateCodes_frame s)
  | decHeader =>
    show ReadFrame s t
    exact issue_next h rfl rfl (readHeader_frame s)
  | encHeader => exact issue_next h ⟨List.prefix_rfl, rfl⟩ ⟨List.prefix_rfl, rfl⟩ (writeHeader_frame s)
  | packSym sym =>
    exact issue_next h ⟨List.prefix_rfl, rfl⟩ ⟨List.prefix_rfl, rfl⟩ (packSymbol_frame sym s)
  | packRun => exact issue_next h ⟨List.prefix_rfl, rfl⟩ ⟨List.prefix_rfl, rfl⟩ (packSource_frame s)
  | packFlush => exact issue_next h ⟨List.prefix_rfl, rfl⟩ ⟨List.prefix_rfl, rfl⟩ (flush_frame s)
  | unpackRun =>
    exact issue_next h ⟨List.prefix_rfl, rfl⟩ ⟨List.prefix_rfl, rfl⟩ (unpackPayload_frame s)
  | compress =>
    rw [exec_legal rfl] at h
    exact (compressSource_frame s).next h
  | decompress =>
    rw [exec_legal rfl] at h
    exact (decompressSource_frame s).next h

/-- Settles O53: `SRC`, the parameters, the host and the last read are in no command's frame. -/
theorem commandsLeaveTheInputsAlone : Obligations.CommandsLeaveTheInputsAlone := by
  intro i s t h
  have hf := commandsKeepTheirFrame i s t h
  cases i
  case clear | rewind | freqRun | treeBuild | codeGen | decHeader =>
    rw [hf]; exact ⟨rfl, rfl, rfl, rfl⟩
  case freqByte | encHeader | packSym | packRun | packFlush | unpackRun | compress | decompress =>
    rw [hf.2]; exact ⟨rfl, rfl, rfl, rfl⟩

theorem exec_snk_prefix {i : Instr} {s t : State} (h : exec i s = .next t) : s.snk <+: t.snk := by
  have hf := commandsKeepTheirFrame i s t h
  cases i
  case clear | rewind | freqRun | treeBuild | codeGen | decHeader => rw [hf]
  case freqByte => rw [hf.2]
  case encHeader | packSym | packRun | packFlush | unpackRun | compress | decompress => exact hf.1

theorem command_snk_prefix {w : Word} {s t : State} (h : command w s = .next t) :
    s.snk <+: t.snk := by
  rcases command_next_cases h with rfl | rfl | ⟨i, _, he⟩
  · exact List.prefix_rfl
  · exact List.prefix_rfl
  · exact exec_snk_prefix he

theorem hostEvent_snk_prefix {e : HostEvent} {s t : State} (he : hostEvent e s = .next t)
    (hr : e ≠ .assertReset) : s.snk <+: t.snk := by
  cases e with
  | writeReg addr w =>
    by_cases ha : addr = 0x0000
    · subst ha
      exact command_snk_prefix he
    · rw [hostEvent_writeReg_ne ha] at he
      cases he; exact List.prefix_rfl
  | readReg addr => cases he; exact List.prefix_rfl
  | attachSource before after => cases he; exact List.prefix_rfl
  | assertReset => exact absurd rfl hr

/-- Settles O52: only reset shortens the sink, since a command only appends to it and the other host
events do not touch it. -/
theorem sinkOnlyGrows : Obligations.SinkOnlyGrows := by
  intro s t hst hnr
  rcases step_next_cases hst with ⟨_, rfl⟩ | ⟨e, rest, hh, he⟩
  · exact List.prefix_rfl
  · have hne : e ≠ .assertReset := by
      rintro rfl
      exact hnr rest hh
    have hgrow := hostEvent_snk_prefix he hne
    exact hgrow

end Sys2Proof.Machine
end

section
/-! SUPPORT. In `FAULT` only reset and the words of CLEAR, COMPRESS and DECOMPRESS end the trap
(spec/10_state.md R23, spec/30_encoding.md R95, spec/60_exceptions.md R267). -/

namespace Sys2Proof.Machine

/-- A word decodes by a row of the opcode map that selects it (R91). -/
theorem exists_row_of_decode_ok {w : Word} {i : Instr} (h : decode w = .ok i) :
    ∃ row ∈ opcodeTable, row.selects w = true ∧ row.build (operandOf w) = i := by
  unfold decode at h
  split at h
  · next row hrow =>
    cases h
    exact ⟨row, List.mem_of_find?_eq_some hrow, by simpa using List.find?_some hrow, rfl⟩
  · cases h

/-- A row whose mask has every bit selects its pattern only (R91). -/
theorem eq_pattern_of_selects {row : OpcodeRow} {w : Word} (hm : row.mask = 0xFFFF)
    (h : row.selects w = true) : w = row.pattern := by
  have hand : w &&& 0xFFFF = w := BitVec.and_allOnes
  rw [OpcodeRow.selects, hm, hand] at h
  exact eq_of_beq h

/-- The words that run in `FAULT` (R95). -/
theorem word_of_runsInFault {w : Word} {i : Instr} (h : decode w = .ok i)
    (hi : runsInFault i = true) : w = 0x0100 ∨ w = 0x8000 ∨ w = 0x8100 := by
  obtain ⟨row, hmem, hsel, rfl⟩ := exists_row_of_decode_ok h
  have hrows : ∀ row ∈ opcodeTable, runsInFault (row.build (operandOf w)) = true →
      row.mask = 0xFFFF ∧ (row.pattern = 0x0100 ∨ row.pattern = 0x8000 ∨ row.pattern = 0x8100) := by
    simp [opcodeTable, runsInFault]
  obtain ⟨hmask, hpat⟩ := hrows row hmem hi
  rwa [← eq_pattern_of_selects hmask hsel] at hpat

/-- In `FAULT` a word other than the three of R95 changes nothing (R95). -/
theorem command_of_fault {w : Word} {s : State} (hp : s.phase = .fault)
    (hw : ¬ (w = 0x0100 ∨ w = 0x8000 ∨ w = 0x8100)) : command w s = .next s := by
  unfold command
  split
  · next i hi =>
    refine exec_ignored hp ?_
    cases hr : runsInFault i
    · rfl
    · exact absurd (word_of_runsInFault hi hr) hw
  · rw [if_pos hp]

/-- In `FAULT` every host event but reset and a write of the three words keeps the error (R23, R267). -/
theorem hostEvent_keeps_error {e : HostEvent} {s t : State} (he : hostEvent e s = .next t)
    (hp : s.phase = .fault) :
    (t.phase = .fault ∧ t.err = s.err ∧ t.errInfo = s.errInfo) ∨ e = .assertReset ∨
      ∃ w, e = .writeReg 0x0000 w ∧ (w = 0x0100 ∨ w = 0x8000 ∨ w = 0x8100) := by
  cases e with
  | writeReg addr w =>
    by_cases ha : addr = 0x0000
    · subst ha
      by_cases hw : w = 0x0100 ∨ w = 0x8000 ∨ w = 0x8100
      · exact .inr (.inr ⟨w, rfl, hw⟩)
      · rw [hostEvent_writeReg_cmd, command_of_fault hp hw] at he
        cases he; exact .inl ⟨hp, rfl, rfl⟩
    · rw [hostEvent_writeReg_ne ha] at he
      cases he; exact .inl ⟨hp, rfl, rfl⟩
  | readReg addr => cases he; exact .inl ⟨hp, rfl, rfl⟩
  | attachSource before after => cases he; exact .inl ⟨hp, rfl, rfl⟩
  | assertReset => exact .inr (.inl rfl)

/-- Settles O51: every word but the three of R95 is ignored, and no host event but reset and such a
write touches the error. -/
theorem errorStaysUntilCleared : Obligations.ErrorStaysUntilCleared := by
  intro s t hp hst
  rcases step_next_cases hst with ⟨_, rfl⟩ | ⟨e, rest, hh, he⟩
  · exact .inl ⟨hp, rfl, rfl⟩
  · rcases hostEvent_keeps_error he hp with hk | rfl | ⟨w, rfl, hw⟩
    · exact .inl hk
    · exact .inr (.inl ⟨rest, hh⟩)
    · exact .inr (.inr ⟨w, rest, hh, hw⟩)

end Sys2Proof.Machine
end

section
/-! SUPPORT. The REG space: what each window holds (spec/10_state.md R38 to R41), and that under the
invariant every register fits the bus (spec/20_memory.md R63). -/

namespace Sys2Proof.Machine

/-! ### The register map -/

theorem window_add {base n : Nat} (read : Fin n → Nat) (i : Fin n) :
    window base n read (base + i) = some (read i) := by
  have h : base ≤ base + i.val ∧ base + i.val < base + n := by omega
  simp [window, h]

theorem window_eq_none {base n : Nat} {read : Fin n → Nat} {addr : Nat}
    (h : ¬ (base ≤ addr ∧ addr < base + n)) : window base n read addr = none := dif_neg h

theorem readReg_of_fileReg {s : State} {addr v : Nat} (h : s.fileReg addr = some v) :
    s.readReg addr = v := by
  rw [State.readReg, h]

/-- Below the files stand the scalar registers (R39). -/
theorem readReg_scalar (s : State) {addr : Nat} (h : addr < 0x0100) :
    s.readReg addr = s.scalarReg addr := by
  have hf : s.fileReg addr = none := by
    simp (disch := omega) [State.fileReg, window_eq_none]
  rw [State.readReg, hf]

theorem scalarReg_of_le (s : State) {addr : Nat} (h : 0x000F ≤ addr) : s.scalarReg addr = 0 := by
  unfold State.scalarReg
  split <;> omega

theorem readReg_unlisted (s : State) {addr : Nat} (h : Unlisted addr) : s.readReg addr = 0 := by
  unfold Unlisted at h
  have hf : s.fileReg addr = none := by
    simp (disch := omega) [State.fileReg, window_eq_none]
  rw [State.readReg, hf]
  exact scalarReg_of_le s (by omega)

theorem readReg_symbolFiles (s : State) (k : Fin 256) :
    s.readReg (0x0100 + k) = s.ft.get k ∧
      s.readReg (0x0200 + k) = (s.ct.get k).len.val ∧
      s.readReg (0x0300 + k) = (s.ct.get k).bits.toNat ∧
      s.readReg (0x0400 + k) = s.wlAt k ∧
      s.readReg (0x0500 + k) = (s.it.get k).sym.toNat ∧
      s.readReg (0x0600 + k) = (s.it.get k).code.len.val ∧
      s.readReg (0x0700 + k) = (s.it.get k).code.bits.toNat := by
  refine ⟨?_, ?_, ?_, ?_, ?_, ?_, ?_⟩ <;> apply readReg_of_fileReg <;>
    simp (disch := omega) [State.fileReg, window_eq_none, window_add]

theorem readReg_arena (s : State) (i : NodeIx) :
    s.readReg (0x0800 + i) = (s.nodeAt i).kind.code.toNat ∧
      s.readReg (0x0A00 + i) = (s.nodeAt i).sym.toNat ∧
      s.readReg (0x0C00 + i) = (s.nodeAt i).freq ∧
      s.readReg (0x0E00 + i) = (s.nodeAt i).left.val ∧
      s.readReg (0x1000 + i) = (s.nodeAt i).right.val := by
  refine ⟨?_, ?_, ?_, ?_, ?_⟩ <;> apply readReg_of_fileReg <;>
    simp (disch := omega) [State.fileReg, window_eq_none, window_add]

/-- Settles O58: the windows of R39 neither meet nor cover an unlisted address, so a read is the one
register its address names. -/
theorem hostReadsFollowTheRegisterMap : Obligations.HostReadsFollowTheRegisterMap := by
  intro s
  have hs : ∀ addr, addr < 0x0100 → s.readReg addr = s.scalarReg addr := fun _ => readReg_scalar s
  exact ⟨hs 0 (by omega), hs 1 (by omega), hs 2 (by omega), hs 3 (by omega), hs 4 (by omega),
    hs 5 (by omega), hs 6 (by omega), hs 7 (by omega), hs 8 (by omega), hs 9 (by omega),
    hs 10 (by omega), hs 11 (by omega), hs 12 (by omega), hs 13 (by omega), hs 14 (by omega),
    readReg_symbolFiles s, readReg_arena s, fun _ => readReg_unlisted s⟩

/-! ### The bus width -/

/-- A value the REG bus carries (R63). -/
def FitsBus (c : Config) (v : Nat) : Prop := v < 2 ^ c.busWidth

theorem fitsBus_of_word {c : Config} {v : Nat} (h : v < 2 ^ 16) : FitsBus c v :=
  h.trans_le (Nat.pow_le_pow_right (by omega) (Nat.le_max_right _ _))

theorem fitsBus_of_count {c : Config} {v : Nat} (h : v ≤ c.maxCount) : FitsBus c v := by
  have hpos : 0 < 2 ^ c.cntW := Nat.two_pow_pos _
  have hlt : v < 2 ^ c.cntW := by unfold Config.maxCount at h; omega
  exact hlt.trans_le (Nat.pow_le_pow_right (by omega) (Nat.le_max_left _ _))

theorem State.wlAt_lt (s : State) (k : Nat) : s.wlAt k < 511 := by
  unfold State.wlAt
  split
  · next x _ => exact x.isLt
  · omega

theorem ft_get_le_sum (s : State) (i : Fin 256) : s.ft.get i ≤ s.ft.cells.sum := by
  obtain ⟨b, rfl⟩ := symIx_surj i
  exact ftAt_le_sum s b

/-- What holds of every entry of a window holds of what it returns. -/
theorem forall_mem_window {P : Nat → Prop} {base n : Nat} {read : Fin n → Nat} (addr : Nat)
    (h : ∀ i, P (read i)) : ∀ v ∈ window base n read addr, P v := by
  intro v hv
  unfold window at hv
  split at hv
  · cases hv; exact h _
  · cases hv

/-- What holds of what each of two windows returns holds of what the first that holds the address
returns. -/
theorem forall_mem_orElse {P : Nat → Prop} {a b : Option Nat} (ha : ∀ v ∈ a, P v)
    (hb : ∀ v ∈ b, P v) : ∀ v ∈ (a <|> b), P v := by
  cases a with
  | none => simpa using hb
  | some x => simpa using ha

theorem State.Inv.scalarReg_fitsBus {s : State} (h : s.Inv) (addr : Nat) :
    FitsBus s.cfg (s.scalarReg addr) := by
  have hwl := h.wlSize
  unfold State.scalarReg
  split
  -- The seventh register is `TOTAL`, the only count among them.
  case h_7 => exact fitsBus_of_count h.totalLe
  all_goals exact fitsBus_of_word (by omega)

theorem State.Inv.fileReg_fitsBus {s : State} (h : s.Inv) (addr : Nat) :
    ∀ v ∈ s.fileReg addr, FitsBus s.cfg v := by
  have hft : ∀ i, s.ft.get i ≤ s.cfg.maxCount := fun i =>
    (ft_get_le_sum s i).trans (h.totalEq ▸ h.totalLe)
  have hwl : ∀ k, FitsBus s.cfg (s.wlAt k) := fun k =>
    fitsBus_of_word ((s.wlAt_lt k).trans (by omega))
  have hcode : ∀ c : Code, FitsBus s.cfg c.len.val := fun c => fitsBus_of_word (by omega)
  have hbyte : ∀ b : Byte, FitsBus s.cfg b.toNat := fun b => fitsBus_of_word (by omega)
  have hword : ∀ w : Word, FitsBus s.cfg w.toNat := fun w => fitsBus_of_word (by omega)
  have hnode : ∀ i : NodeIx, FitsBus s.cfg i.val := fun i => fitsBus_of_word (by omega)
  refine forall_mem_orElse (forall_mem_window addr fun i => fitsBus_of_count (hft i)) ?_
  refine forall_mem_orElse (forall_mem_window addr fun i => hcode _) ?_
  refine forall_mem_orElse (forall_mem_window addr fun i => hword _) ?_
  refine forall_mem_orElse (forall_mem_window addr fun i => hwl i.val) ?_
  refine forall_mem_orElse (forall_mem_window addr fun i => hbyte _) ?_
  refine forall_mem_orElse (forall_mem_window addr fun i => hcode _) ?_
  refine forall_mem_orElse (forall_mem_window addr fun i => hword _) ?_
  refine forall_mem_orElse (forall_mem_window addr fun i => fitsBus_of_word (by omega)) ?_
  refine forall_mem_orElse (forall_mem_window addr fun i => hbyte _) ?_
  refine forall_mem_orElse (forall_mem_window addr fun i => fitsBus_of_count (h.freqLe i)) ?_
  refine forall_mem_orElse (forall_mem_window addr fun i => hnode _) ?_
  exact forall_mem_window addr fun i => hnode _

/-- Settles O60: the counts are within `2^CNT_W − 1` by the invariant, and every other register has at
most 16 bits. -/
theorem registerReadsFitTheBus : Obligations.RegisterReadsFitTheBus := by
  intro s addr h
  show FitsBus s.cfg (s.readReg addr)
  unfold State.readReg
  split
  · next v hv => exact h.fileReg_fitsBus addr v hv
  · exact h.scalarReg_fitsBus addr

/-! ### Reset -/

theorem reset_wlAt {k : Nat} (h : k < 256) : State.reset.wlAt k = 0 := by
  unfold State.wlAt
  rw [State.reset_wl, List.nil_append, State.reset_wlStale, List.getElem?_replicate, if_pos h]
  rfl

/-- Settles O10: the registers by the reset values, the files entry by entry. -/
theorem resetLeavesEveryFieldEmpty : Obligations.ResetLeavesEveryFieldEmpty := by
  refine ⟨rfl, rfl, rfl, rfl, rfl, rfl, fun b => ?_, fun b => ?_, fun i => ?_, rfl, rfl, rfl,
    fun k => reset_wlAt, fun k => ?_, rfl, rfl, rfl, rfl, rfl, rfl, rfl, cleanEntry_reset,
    sourceAtStart_reset, sinkBase_reset⟩
  · exact Table.get_fill 0 (symIx b)
  · exact Table.get_fill Code.zero (symIx b)
  · exact Table.get_fill Node.zero i
  · exact Table.get_fill Entry.zero k

end Sys2Proof.Machine
end

section
/-! SUPPORT. DECOMPRESS of a whole file (spec/46_control_and_top.md R233, spec/20_memory.md R74). -/

namespace Sys2Proof.Machine

/-- Either form of the premise on the source says what is left to read (R294). -/
theorem rest_eq_of_whole_or_rest {s : State} {file : List Byte}
    (h : SourceAtStart s ∧ s.src = file ∨ s.rest = file) : s.rest = file := by
  rcases h with ⟨hstart, hsrc⟩ | hrest
  · rw [rest_of_sourceAtStart hstart, hsrc]
  · exact hrest

/-- Settles O48: DECOMPRESS is legal in every phase, and its body clears, reads the records into a table
whose codes are the pairwise incomparable ones of the file, and decodes the payload by that table. -/
theorem decompressReadsAFile : Obligations.DecompressReadsAFile := by
  intro s p c recs ys payload S0 padding file _ hsnk hfile hp hlen hv hinc hy hpad hbits
  obtain ⟨t, hrun, htsnk, htsp, htnsym, htpad, hterr⟩ := decompressSource_done s p c recs ys payload
    padding (rest_eq_of_whole_or_rest hfile) hp (hlen.trans (readCountByte_val c).symm) hv hinc hy hpad
    hbits
  have hexec : exec .decompress s = .next t :=
    (exec_legal rfl).trans (congrArg Run.outcome hrun)
  exact ⟨t, hexec, (decompressSource_ends s).done t hrun, hterr, hsnk ▸ htsnk, htsp, htnsym, htpad⟩

end Sys2Proof.Machine
end

section
/-! SUPPORT. The command encoding (spec/30_encoding.md R90 to R94): the two bytes of a word, the rows of
the opcode map, and the decoder held against the encoder in both directions. -/

namespace Sys2Proof.Machine

/-! ### The two bytes of a word -/

@[simp] theorem opcodeOf_wordOf (opcode operand : Byte) : opcodeOf (wordOf opcode operand) = opcode :=
  BitVec.extractLsb'_append_eq_left

@[simp] theorem operandOf_wordOf (opcode operand : Byte) :
    operandOf (wordOf opcode operand) = operand :=
  BitVec.extractLsb'_append_eq_right

theorem wordOf_bytes (w : Word) : wordOf (opcodeOf w) (operandOf w) = w := by
  unfold wordOf opcodeOf operandOf
  exact BitVec.extractLsb'_append_extractLsb'_eq_extractLsb' rfl |>.trans BitVec.extractLsb'_eq_self

theorem Word.ext_bytes {w v : Word} (h₁ : opcodeOf w = opcodeOf v) (h₂ : operandOf w = operandOf v) :
    w = v := by
  rw [← wordOf_bytes w, h₁, h₂, wordOf_bytes]

/-! ### The rows of the opcode map -/

/-- A word selects a row when each of its bytes, under the mask, is the pattern's (R91). -/
theorem selects_iff {row : OpcodeRow} {w : Word} : row.selects w = true ↔
    opcodeOf w &&& opcodeOf row.mask = opcodeOf row.pattern ∧
      operandOf w &&& operandOf row.mask = operandOf row.pattern := by
  have hop : opcodeOf (w &&& row.mask) = opcodeOf w &&& opcodeOf row.mask := BitVec.extractLsb'_and
  have harg : operandOf (w &&& row.mask) = operandOf w &&& operandOf row.mask :=
    BitVec.extractLsb'_and
  rw [OpcodeRow.selects, beq_iff_eq, ← hop, ← harg]
  exact ⟨fun h => by rw [h]; exact ⟨rfl, rfl⟩, fun ⟨h₁, h₂⟩ => Word.ext_bytes h₁ h₂⟩

/-- Every row fixes the whole opcode byte (R91). -/
theorem opcodeOf_of_selects {row : OpcodeRow} {w : Word} (hrow : row ∈ opcodeTable)
    (h : row.selects w = true) : opcodeOf w = opcodeOf row.pattern := by
  have hmask : ∀ row ∈ opcodeTable, opcodeOf row.mask = BitVec.allOnes 8 := by decide
  have hop := (selects_iff.1 h).1
  rwa [hmask row hrow, BitVec.and_allOnes] at hop

/-- The opcode bytes of the rows are all different (R91). -/
theorem opcodes_nodup : (opcodeTable.map fun row => opcodeOf row.pattern).Nodup := by decide

theorem row_eq_of_selects {row row' : OpcodeRow} {w : Word} (hrow : row ∈ opcodeTable)
    (hrow' : row' ∈ opcodeTable) (h : row.selects w = true) (h' : row'.selects w = true) :
    row = row' :=
  List.inj_on_of_nodup_map opcodes_nodup hrow hrow'
    ((opcodeOf_of_selects hrow h).symm.trans (opcodeOf_of_selects hrow' h'))

/-- A word decodes by the row it selects, whichever that is: no other row comes before it (R91). -/
theorem decode_of_selects {row : OpcodeRow} {w : Word} (hrow : row ∈ opcodeTable)
    (h : row.selects w = true) : decode w = .ok (row.build (operandOf w)) := by
  unfold decode
  split
  · next row' hfind =>
    have hrow' := List.mem_of_find?_eq_some hfind
    have h' : row'.selects w = true := by simpa using List.find?_some hfind
    rw [row_eq_of_selects hrow' hrow h' h]
  · next hnone => exact absurd h (List.find?_eq_none.1 hnone row hrow)

/-- A row of format `S` takes every operand byte (R90, R92). -/
theorem decode_wordOf_symbolRow {row : OpcodeRow} (hrow : row ∈ opcodeTable)
    (hm : row.mask = 0xFF00) (hp : operandOf row.pattern = 0) (sym : Byte) :
    decode (wordOf (opcodeOf row.pattern) sym) = .ok (row.build sym) := by
  have hsel : row.selects (wordOf (opcodeOf row.pattern) sym) = true := by
    have hop : opcodeOf 0xFF00 = BitVec.allOnes 8 := by decide
    have harg : operandOf 0xFF00 = 0 := by decide
    rw [selects_iff, hm, hop, harg, hp, opcodeOf_wordOf, BitVec.and_allOnes]
    exact ⟨rfl, BitVec.and_zero⟩
  rw [decode_of_selects hrow hsel, operandOf_wordOf]

/-- The two bytes of the command a row builds: the row's opcode, and any operand byte the row selects
(R90, R91). -/
theorem build_bytes : ∀ row ∈ opcodeTable, ∀ b,
    (row.build b).opcode = opcodeOf row.pattern ∧
      (b &&& operandOf row.mask = operandOf row.pattern → (row.build b).operand = b) := by
  have hz : ∀ b : Byte, b &&& BitVec.allOnes 8 = 0 → 0 = b := fun b h => by
    rw [← h, BitVec.and_allOnes]
  simp only [opcodeTable, List.cons_append, List.nil_append, List.forall_mem_cons]
  refine ⟨fun b => ⟨rfl, hz b⟩, fun b => ⟨rfl, hz b⟩, fun b => ⟨rfl, fun _ => rfl⟩,
    fun b => ⟨rfl, hz b⟩, fun b => ⟨rfl, hz b⟩, fun b => ⟨rfl, hz b⟩, fun b => ⟨rfl, hz b⟩,
    fun b => ⟨rfl, fun _ => rfl⟩, fun b => ⟨rfl, hz b⟩, fun b => ⟨rfl, hz b⟩, fun b => ⟨rfl, hz b⟩,
    fun b => ⟨rfl, hz b⟩, fun b => ⟨rfl, hz b⟩, fun b => ⟨rfl, hz b⟩, ?_⟩
  simp

theorem encode_build_of_selects {row : OpcodeRow} {w : Word} (hrow : row ∈ opcodeTable)
    (h : row.selects w = true) : encode (row.build (operandOf w)) = w := by
  obtain ⟨hop, harg⟩ := build_bytes row hrow (operandOf w)
  rw [encode, hop, harg (selects_iff.1 h).2, ← opcodeOf_of_selects hrow h, wordOf_bytes]

/-- A well-formed pair of bytes is the opcode and the operand of a command (R90, R94). -/
theorem exists_instr_of_wordWellFormed {opcode operand : Byte}
    (h : wordWellFormed opcode operand = true) :
    ∃ i : Instr, i.opcode = opcode ∧ i.operand = operand := by
  unfold wordWellFormed opcodeFormat at h
  by_cases hs : opcode ∈ [0x10#8, 0x50#8]
  · simp only [List.mem_cons, List.not_mem_nil, or_false] at hs
    rcases hs with rfl | rfl
    · exact ⟨.freqByte operand, rfl, rfl⟩
    · exact ⟨.packSym operand, rfl, rfl⟩
  · rw [if_neg hs] at h
    split_ifs at h with hz
    obtain rfl : operand = 0 := eq_of_beq h
    simp only [List.mem_cons, List.not_mem_nil, or_false] at hz
    rcases hz with rfl | rfl | rfl | rfl | rfl | rfl | rfl | rfl | rfl | rfl | rfl | rfl
    · exact ⟨.clear, rfl, rfl⟩
    · exact ⟨.rewind, rfl, rfl⟩
    · exact ⟨.freqRun, rfl, rfl⟩
    · exact ⟨.treeBuild, rfl, rfl⟩
    · exact ⟨.codeGen, rfl, rfl⟩
    · exact ⟨.encHeader, rfl, rfl⟩
    · exact ⟨.packRun, rfl, rfl⟩
    · exact ⟨.packFlush, rfl, rfl⟩
    · exact ⟨.decHeader, rfl, rfl⟩
    · exact ⟨.unpackRun, rfl, rfl⟩
    · exact ⟨.compress, rfl, rfl⟩
    · exact ⟨.decompress, rfl, rfl⟩

/-- The two bytes of every command are well formed (R90, R94). -/
theorem wordWellFormed_of_instr (i : Instr) : wordWellFormed i.opcode i.operand = true := by
  cases i with
  | clear => exact Laws.CommandWord.clear.2
  | rewind => exact Laws.CommandWord.rewind.2
  | freqByte sym => exact (Laws.CommandWord.freqByte sym).2
  | freqRun => exact Laws.CommandWord.freqRun.2
  | treeBuild => exact Laws.CommandWord.treeBuild.2
  | codeGen => exact Laws.CommandWord.codeGen.2
  | encHeader => exact Laws.CommandWord.encHeader.2
  | packSym sym => exact (Laws.CommandWord.packSym sym).2
  | packRun => exact Laws.CommandWord.packRun.2
  | packFlush => exact Laws.CommandWord.packFlush.2
  | decHeader => exact Laws.CommandWord.decHeader.2
  | unpackRun => exact Laws.CommandWord.unpackRun.2
  | compress => exact Laws.CommandWord.compress.2
  | decompress => exact Laws.CommandWord.decompress.2

/-! ### The statements -/

/-- Settles O2: a command of format `S` decodes by its row whatever its operand, and each of format `Z`
has one word. -/
theorem decodeEncodeAgree : Obligations.DecodeEncodeAgree := by
  intro i
  cases i with
  | freqByte sym =>
    exact decode_wordOf_symbolRow (row := ⟨0x1000, 0xFF00, .freqByte⟩) (by simp [opcodeTable]) rfl rfl
      sym
  | packSym sym =>
    exact decode_wordOf_symbolRow (row := ⟨0x5000, 0xFF00, .packSym⟩) (by simp [opcodeTable]) rfl rfl
      sym
  | clear | rewind | freqRun | treeBuild | codeGen | encHeader | packRun | packFlush | decHeader
  | unpackRun | compress | decompress => rfl

/-- Settles O3: a word decodes by a row that selects it, and the command that row builds has the word's
two bytes. -/
theorem decodedWordEncodesBack : Obligations.DecodedWordEncodesBack := by
  intro w i h
  obtain ⟨row, hrow, hsel, rfl⟩ := exists_row_of_decode_ok h
  exact encode_build_of_selects hrow hsel

/-- Settles O4: the words that decode are the words of commands (O2, O3), and the bytes of commands are
the well-formed ones. -/
theorem decodeAcceptsExactlyWellFormedWords : Obligations.DecodeAcceptsExactlyWellFormedWords := by
  intro w
  constructor
  · rintro ⟨i, h⟩
    rw [← decodedWordEncodesBack w i h, encode, opcodeOf_wordOf, operandOf_wordOf]
    exact wordWellFormed_of_instr i
  · intro h
    obtain ⟨i, hop, harg⟩ := exists_instr_of_wordWellFormed h
    have hw : encode i = w := by rw [encode, hop, harg, wordOf_bytes]
    exact ⟨i, hw ▸ decodeEncodeAgree i⟩

/-- Settles O1: each word of the opcode map is the word its command encodes to (O2). -/
theorem opcodeWordsDecode : Obligations.OpcodeWordsDecode :=
  ⟨decodeEncodeAgree .clear, decodeEncodeAgree .rewind, decodeEncodeAgree .freqRun,
    decodeEncodeAgree .treeBuild, decodeEncodeAgree .codeGen, decodeEncodeAgree .encHeader,
    decodeEncodeAgree .packRun, decodeEncodeAgree .packFlush, decodeEncodeAgree .decHeader,
    decodeEncodeAgree .unpackRun, decodeEncodeAgree .compress, decodeEncodeAgree .decompress,
    fun sym => decodeEncodeAgree (.freqByte sym), fun sym => decodeEncodeAgree (.packSym sym)⟩

/-- Settles O5: the rows that select a word all have its opcode byte, and no two rows share one. -/
theorem opcodeRowsNeverOverlap : Obligations.OpcodeRowsNeverOverlap := by
  intro w
  have hnodup : ((opcodeTable.filter (·.selects w)).map fun row => opcodeOf row.pattern).Nodup :=
    opcodes_nodup.sublist (List.filter_sublist.map _)
  have hsame : (opcodeTable.filter (·.selects w)).map (fun row => opcodeOf row.pattern) =
      List.replicate (opcodeTable.filter (·.selects w)).length (opcodeOf w) := by
    refine List.eq_replicate_iff.2 ⟨List.length_map _, fun b hb => ?_⟩
    obtain ⟨row, hmem, rfl⟩ := List.mem_map.1 hb
    obtain ⟨hrow, hsel⟩ := List.mem_filter.1 hmem
    exact (opcodeOf_of_selects hrow hsel).symm
  rw [hsame, List.nodup_replicate] at hnodup
  exact hnodup

/-- Settles O8: the step is the word's command, which in `FAULT` does nothing for any but the three
words. -/
theorem faultIgnoresOtherWords : Obligations.FaultIgnoresOtherWords := by
  intro s w rest hh hp h₁ h₂ h₃
  rw [step_of_host_cons hh, hostEvent_writeReg_cmd]
  exact command_of_fault hp fun hw => hw.elim h₁ fun hw => hw.elim h₂ h₃

end Sys2Proof.Machine
end

section
/-! SUPPORT. The header and the records (spec/43_codec_framer.md R170 to R175): what ENC_HEADER writes,
and how DEC_HEADER ends on a well-formed and on a bad record. -/

namespace Sys2Proof.Machine

/-! ### ENC_HEADER -/

/-- Choice `i` of a code is bit `15 − i` of its register (R29). -/
theorem Code.bit_eq_getLsbD (c : Code) {i : Nat} (h : i < 16) : c.bit i = c.bits.getLsbD (15 - i) := by
  simp [Code.bit, BitVec.getMsbD, h]

theorem codeField_eq_bits (c : Code) : codeField c = (List.range 16).map fun i =>
    if i < c.len.val then (if c.bits.getLsbD (15 - i) then 0x31#8 else 0x30#8) else 0x00#8 := by
  refine List.map_congr_left fun i hi => ?_
  rw [Code.bit_eq_getLsbD c (List.mem_range.1 hi)]
  rfl

/-- Settles O27: the body of ENC_HEADER appends the header bytes and the records of the coded symbols. -/
theorem encHeaderWritesHeaderAndRecords : Obligations.EncHeaderWritesHeaderAndRecords := by
  intro s S0 _ hsnk hp
  have hexec := (exec_legal (i := .encHeader) (by simp [legalIn, hp])).trans
    (congrArg Run.outcome (writeHeader_eq s))
  refine ⟨_, hexec, ?_, ?_, rfl⟩
  · rw [← encodedBits_eq]
    exact padOf_val s.encodedBits
  · simp only [← codeField_eq_bits]
    rw [← hsnk]
    exact congrArg (s.snk ++ padByte (padOf s.encodedBits) :: countByte s.nsym :: ·) (tableBytes_eq s)

/-! ### DEC_HEADER -/

theorem exec_decHeader {s : State} (hp : s.phase = .idle) :
    exec .decHeader s = (readHeader s).outcome := exec_legal (by simp [legalIn, hp])

/-- Settles O28: DEC_HEADER is legal in `IDLE`, and its body reads the file in either form of the
premise on the source. -/
theorem decHeaderReadsTheTable : Obligations.DecHeaderReadsTheTable := by
  intro s p c recs tail file _ hphase hfile hp hlen hv hnd
  obtain ⟨t, hrun, hpad, hnsym, hitN, hrecs, _, hframe⟩ := readHeader_done s p c recs tail
    (rest_eq_of_whole_or_rest hfile.symm) hp (hlen.trans (readCountByte_val c).symm) hv hnd
  have hexec : exec .decHeader s = .next t :=
    (exec_decHeader hphase).trans (congrArg Run.outcome hrun)
  exact ⟨t, hexec, hpad, hnsym, hitN, hrecs, hframe⟩

/-- DEC_HEADER at a record that raises: the records before it are in the inverse table, and `SP` is
after them and the bytes of the bad record that were consumed (R173, R175, R265 item 3). -/
theorem decHeader_raises (s : State) (p c : Byte) (recs : List FileRecord) (tail : List Byte)
    (hphase : s.phase = .idle) (hitN : s.itN = 0)
    (hrest : s.rest = p :: c :: (recs.flatMap FileRecord.bytes ++ tail)) (hp : p.toNat ≤ 7)
    (hlen : recs.length < if c = 0 then 256 else c.toNat) (hv : ∀ r ∈ recs, r.Valid)
    (hnd : (recs.map FileRecord.code).Nodup) :
    ∃ u, u.rest = tail ∧ u.it.cells.take recs.length = recs.map FileRecord.entry ∧
      ∀ n k info, readRecord recs.length u = .raised (({ u with sp := u.sp + n } : State).trap k info) →
        ∃ t, exec .decHeader s = .next t ∧ t.records = recs.map FileRecord.entry ∧
          t.phase = .fault ∧ t.err = k ∧ t.errInfo = info ∧
          t.sp = s.sp + 2 + 17 * recs.length + n := by
  rw [← readCountByte_val] at hlen
  obtain ⟨u, htake, hurest, husp, huitN, hnext⟩ := readHeader_next s p c recs tail hrest hp hlen hv hnd
  have hn : u.itN.val = recs.length := by
    rw [huitN, hitN]
    split
    · next hnil => rw [hnil]; rfl
    · rfl
  refine ⟨u, hurest, htake, fun n k info hraise => ?_⟩
  refine ⟨_, (exec_decHeader hphase).trans (congrArg Run.outcome (hnext _ hraise)), ?_, rfl, rfl, rfl, ?_⟩
  · show u.it.cells.take u.itN.val = _
    rw [hn, htake]
  · show u.sp + n = _
    rw [husp]

/-- Settles O30: the records before the bad one are accepted, and the three kinds of bad record are the
three ways in which reading one record raises. -/
theorem decHeaderRejectsBadRecords : Obligations.DecHeaderRejectsBadRecords := by
  intro s p c recs tail _ hclean hrest hp hlen hv hnd
  obtain ⟨hphase, hitN⟩ : s.phase = .idle ∧ s.itN = 0 :=
    hclean.elim (fun h => ⟨h.phaseIdle, h.itNReset⟩) id
  obtain ⟨u, hurest, htake, hraises⟩ :=
    decHeader_raises s p c recs tail hphase hitN hrest hp hlen hv hnd
  refine ⟨fun hshort => ?_, fun sym field more htail hfield hbad => ?_,
    fun r more htail hr hdup => ?_⟩
  · exact hraises 0 _ _ (readRecord_short recs.length u (hurest ▸ hshort))
  · have hread := readRecord_eq recs.length u sym field more (hurest.trans htail) hfield
    rw [readCodeField_bad hbad] at hread
    exact hraises 17 _ _ hread
  · have hread := readRecord_valid u recs r more hv hr htake (hurest.trans htail)
    rw [if_pos hdup] at hread
    exact hraises 17 _ _ hread

end Sys2Proof.Machine
end

section
/-! SUPPORT. The sequence ENC_HEADER, PACK_SYM for each symbol, PACK_FLUSH (spec/44_bit_packer.md R204):
its payload is the codes of the symbols and the padding the header declares. -/

namespace Sys2Proof.Machine

/-- Whatever the accumulator, the sink, the padding and the phase, the codes are those of the code
table (R102). -/
theorem codeBits_congr {s t : State} (h : t.ct = s.ct) (xs : List Byte) :
    t.codeBits xs = s.codeBits xs := by
  unfold State.codeBits State.ctAt
  rw [h]

/-- A PACK_SYM for each of a sequence of symbols appends their codes (R201). -/
theorem execAll_packSyms (xs : List Byte) (s : State) (hp : s.phase = .packing)
    (hl : ∀ x ∈ xs, 0 < (s.ctAt x).len.val) (h : s.AccClear) :
    ∃ t bytes, execAll (xs.map .packSym) s = .next t ∧
      bitsOf bytes ++ t.pendingBits = s.pendingBits ++ s.codeBits xs ∧ t.AccClear ∧
      t = { s with snk := s.snk ++ bytes, acc := t.acc, fill := t.fill } := by
  induction xs generalizing s with
  | nil => exact ⟨s, [], rfl, by simp [State.codeBits], h, by simp⟩
  | cons x xs ih =>
    obtain ⟨u, bs, hx, hbits, _, hclear, hu⟩ := packSymbol_done x s (hl x (by simp)) h
    have hct : u.ct = s.ct := by rw [hu]
    obtain ⟨t, cs, hxs, hbits', hclear', ht⟩ := ih u (by rw [hu]; exact hp)
      (fun y hy => by rw [State.ctAt, hct]; exact hl y (by simp [hy])) hclear
    refine ⟨t, bs ++ cs, ?_, ?_, hclear', ?_⟩
    · rw [List.map_cons, execAll, exec_legal (by simp [legalIn, hp]), bodyOf, hx]
      exact hxs
    · calc bitsOf (bs ++ cs) ++ t.pendingBits
          = bitsOf bs ++ (u.pendingBits ++ s.codeBits xs) := by
            rw [bitsOf_append, List.append_assoc, hbits', codeBits_congr hct]
        _ = s.pendingBits ++ s.codeBits (x :: xs) := by
            rw [← List.append_assoc, hbits, List.append_assoc]
            rfl
    · rw [ht, hu]
      simp only [List.append_assoc]

/-- Settles O37: ENC_HEADER writes the head and leaves an empty accumulator, the PACK_SYMs append the
codes, and PACK_FLUSH pads them to a byte boundary, with as many bits as the header declared since the
sequence has the counts of the table. -/
theorem packedPayloadHasTheDeclaredPadding : Obligations.PackedPayloadHasTheDeclaredPadding := by
  intro s xs S0 _ hsnk hp hcount hcoded
  have hhead := (exec_legal (i := .encHeader) (by simp [legalIn, hp])).trans
    (congrArg Run.outcome (writeHeader_eq s))
  generalize hd : ({ s with
      pad := padOf s.encodedBits, snk := s.snk ++ s.headBytes, acc := 0, fill := 0,
      phase := .packing } : State) = d at hhead
  have hct : d.ct = s.ct := by rw [← hd]
  have hdclear : d.AccClear := by
    rw [← hd]
    exact fun j _ => BitVec.getMsbD_zero
  have hl : ∀ x ∈ xs, 0 < (d.ctAt x).len.val := fun x hx => by
    rw [State.ctAt, hct]
    exact hcoded x (hcount x ▸ List.count_pos_iff.2 hx)
  obtain ⟨u, bytes, hpack, hbits, hclear, hu⟩ := execAll_packSyms xs d (by rw [← hd]) hl hdclear
  obtain ⟨t, bytes', hflush, hbits', ht⟩ := flush_spec u hclear
  have hpend : d.pendingBits = [] := by rw [← hd]; rfl
  rw [hpend, List.nil_append, codeBits_congr hct] at hbits
  have hpad : t.pad = padOf s.encodedBits := by rw [ht, hu, ← hd]
  obtain ⟨hpayload, hlen⟩ := packed_payload s xs u t bytes bytes' hcount hbits hbits' hpad
  refine ⟨t, s.headBytes, bytes ++ bytes', ?_, by rw [ht], ?_, headBytes_length s, hpayload, hlen⟩
  · have huphase : u.phase = .packing := by rw [hu, ← hd]
    rw [execAll, hhead]
    show execAll (xs.map .packSym ++ [.packFlush]) d = .next t
    rw [execAll_append, hpack]
    show execAll [.packFlush] u = .next t
    rw [execAll_singleton, exec_legal (by simp [legalIn, huphase]), bodyOf, hflush]
    rfl
  · rw [ht, hu, ← hd, ← hsnk]
    simp only [List.append_assoc]

end Sys2Proof.Machine
end

section
/-! SUPPORT. FREQ_BYTE and FREQ_RUN as commands (spec/40_frequency_analyzer.md R130 to R132): both are
legal in `IDLE` and `COUNTING`, where each is what its body does. -/

namespace Sys2Proof.Machine

theorem exec_freqByte (sym : Byte) {s : State} (hp : s.phase = .idle ∨ s.phase = .counting) :
    exec (.freqByte sym) s = (countSymbol sym s).outcome :=
  exec_legal (by simpa [legalIn] using hp)

theorem exec_freqRun {s : State} (hp : s.phase = .idle ∨ s.phase = .counting) :
    exec .freqRun s = (countSource s).outcome :=
  exec_legal (by simpa [legalIn] using hp)

/-- Reading what remains ends at the end of the source (R36, R65). -/
theorem State.sp_add_rest_length {s : State} (h : s.sp ≤ s.src.length) :
    s.sp + s.rest.length = s.src.length := by
  rw [State.rest, List.length_drop, Nat.add_sub_cancel' h]

/-- Settles O15: the loop of FREQ_RUN counts each byte that remains, and from an empty table with the
source at its start those counts are the counts of the source. -/
theorem freqRunCountsTheRemainingSource : Obligations.FreqRunCountsTheRemainingSource := by
  intro s _ hp hsp hfits
  obtain ⟨t, hrun, hcount, hframe⟩ := countSource_done s hfits
  have hexec : exec .freqRun s = .next t := (exec_freqRun hp).trans (congrArg Run.outcome hrun)
  rw [State.sp_add_rest_length hsp] at hframe
  refine ⟨t, hexec, hcount, fun hclean hstart b => ?_, hframe⟩
  rw [hcount b, hclean.ftAt_eq, rest_of_sourceAtStart hstart, Nat.zero_add]

/-- Settles O16: the loop of FREQ_RUN counts the bytes the bound has room for and raises at the next. -/
theorem freqRunStopsAtCountOverflow : Obligations.FreqRunStopsAtCountOverflow := by
  intro s _ hp hle hpast
  obtain ⟨t, b, hrun, hbyte, hcount, hframe⟩ := countSource_raised s hle hpast
  have hexec : exec .freqRun s = .next t := (exec_freqRun hp).trans (congrArg Run.outcome hrun)
  exact ⟨t, b, hexec, hbyte, hcount, hframe⟩

/-- Settles O14: the body of FREQ_BYTE counts its symbol below the bound and raises at it. -/
theorem freqByteCountsOneSymbol : Obligations.FreqByteCountsOneSymbol := by
  intro s sym hp
  constructor
  · intro hbelow
    have hexec : exec (.freqByte sym) s = .next (s.counted1 sym) :=
      (exec_freqByte sym hp).trans (congrArg Run.outcome (countSymbol_lt sym s hbelow))
    refine ⟨s.counted1 sym, hexec, ?_, fun b hb => ?_, rfl⟩
    · rw [counted1_ftAt, if_pos rfl]
    · rw [counted1_ftAt, if_neg hb.symm, Nat.add_zero]
  · intro hbound
    exact (exec_freqByte sym hp).trans (congrArg Run.outcome (countSymbol_max sym s hbound))

end Sys2Proof.Machine
end

section
/-! SUPPORT. TREE_BUILD as a command (spec/41_tree_builder.md R140 to R147): it is legal in `IDLE` and
`COUNTING`, and each way its body ends has its condition on the frequency table. -/

namespace Sys2Proof.Machine

theorem exec_treeBuild {s : State} (hp : s.phase = .idle ∨ s.phase = .counting) :
    exec .treeBuild s = (buildTree s).outcome :=
  exec_legal (by simpa [legalIn] using hp)

/-- The table has two entries exactly when two symbols have a count (R28). -/
theorem two_le_counted_length {s : State} :
    2 ≤ s.counted.length ↔ ∃ b c, b ≠ c ∧ 0 < s.ftAt b ∧ 0 < s.ftAt c := by
  rw [counted_length, ← List.toFinset_card_of_nodup (symbols_nodup.filter _)]
  refine Finset.one_lt_card_iff.trans (exists_congr fun b => exists_congr fun c => ?_)
  simp only [List.mem_toFinset, List.mem_filter, mem_symbols, true_and, decide_eq_true_eq]
  tauto

theorem counted_ne_nil {s : State} : s.counted ≠ [] ↔ ∃ b, 0 < s.ftAt b := by
  simp only [ne_eq, counted_eq_nil, not_forall, Nat.pos_iff_ne_zero]

/-- A table with an entry, and two under the policy `FAULT`, has a tree (R140, R145). -/
theorem buildTree_done {s : State} (hne : s.counted ≠ [])
    (htwo : s.cfg.policy = .oneBitCode ∨ 2 ≤ s.counted.length) : buildTree s = .done s.withTree := by
  rcases buildTree_eq s with ⟨hnil, _⟩ | ⟨e, hone, hpol, _⟩ | ⟨_, _, hdone⟩
  · exact absurd hnil hne
  · simp [hone, hpol] at htwo
  · exact hdone

/-- A table with exactly one entry has no tree under the policy `FAULT` (R145, R252). -/
theorem buildTree_raised_of_singleton {s : State} {b : Byte} (hpol : s.cfg.policy = .fault)
    (hb : 0 < s.ftAt b) (hother : ∀ c, c ≠ b → s.ftAt c = 0) :
    buildTree s = .raised (({ s.setNode 0 (leafOf b (s.ftAt b)) with nsym := 1 } : State).trap
      .singleSymbolInput (zext16 b)) := by
  have hmem : (b, s.ftAt b) ∈ s.counted := mem_counted.2 ⟨hb, rfl⟩
  rcases buildTree_eq s with ⟨hnil, _⟩ | ⟨e, hone, _, hraised⟩ | ⟨_, htwo, _⟩
  · simp [hnil] at hmem
  · obtain rfl : (b, s.ftAt b) = e := by simpa [hone] using hmem
    exact hraised
  · have hlen : 2 ≤ s.counted.length := htwo.resolve_left (by simp [hpol])
    obtain ⟨c, d, hcd, hc, hd⟩ := two_le_counted_length.1 hlen
    have only : ∀ x, 0 < s.ftAt x → x = b := fun x hx => by_contra fun h => hx.ne' (hother x h)
    exact absurd ((only c hc).trans (only d hd).symm) hcd

/-- A TREE_BUILD that enters `TREE_READY` found an entry in the table and left its tree: being ignored,
refused by the phase, or raised never enters that phase (R22, R95, R140). -/
theorem eq_withTree_of_exec_treeBuild {s t : State} (h : exec .treeBuild s = .next t)
    (ht : t.phase = .treeReady) (hs : s.phase ≠ .treeReady) : s.counted ≠ [] ∧ t = s.withTree := by
  rw [exec_eq_issue] at h
  refine issue_next (P := fun u => u.phase = .treeReady → s.counted ≠ [] ∧ u = s.withTree) h
    (fun hp => absurd hp hs) (fun hp => by cases hp) ?_ ht
  show (buildTree s).Post _
  rcases buildTree_eq s with ⟨_, e⟩ | ⟨_, _, _, e⟩ | ⟨hne, _, e⟩ <;> rw [e]
  · exact Run.post_raised.2 fun hp => by cases hp
  · exact Run.post_raised.2 fun hp => by cases hp
  · exact Run.post_done.2 fun _ => ⟨hne, rfl⟩

/-- Settles O19: the body of TREE_BUILD runs to its end, and the merge loop's invariant gives the tree. -/
theorem treeBuildEstablishesTheTree : Obligations.TreeBuildEstablishesTheTree := by
  intro s hp hone hpol
  have hne : s.counted ≠ [] := counted_ne_nil.2 hone
  have hexec : exec .treeBuild s = .next s.withTree :=
    (exec_treeBuild hp).trans
      (congrArg Run.outcome (buildTree_done hne (hpol.imp_right two_le_counted_length.2)))
  obtain ⟨_, _, _, hnsym, _⟩ := withTree_spec s hne
  exact ⟨s.withTree, hexec, rfl, withTree_treeOk s hne, hnsym.trans (counted_length s),
    withTree_frame s⟩

/-- Settles O20: the merge loop keeps the choice of the two least live nodes for every Internal made so
far, and the tree is what the loop leaves. -/
theorem treeBuildMergesTheTwoLeast : Obligations.TreeBuildMergesTheTwoLeast := by
  intro s t h ht hs
  obtain ⟨hne, rfl⟩ := eq_withTree_of_exec_treeBuild h ht hs
  obtain ⟨hmerging, _, _, hnsym, _⟩ := withTree_spec s hne
  unfold State.LiveAt
  rw [hnsym]
  exact hmerging.least

/-- Settles O18: the one entry of the table is that of the symbol, so the body raises after its leaf. -/
theorem treeBuildOfOneSymbolTrapsUnderFaultPolicy :
    Obligations.TreeBuildOfOneSymbolTrapsUnderFaultPolicy := by
  intro s b hp hpol hb hother
  have hexec := (exec_treeBuild hp).trans
    (congrArg Run.outcome (buildTree_raised_of_singleton hpol hb hother))
  refine ⟨_, hexec, ?_, fun i hi => ?_, rfl⟩
  · exact (setNode_nodeAt s 0 0 _).trans (if_pos rfl)
  · exact (setNode_nodeAt s 0 i _).trans (if_neg hi.symm)

/-- Settles O22: the place InsertOrdered finds splits the list, and an ascending list stays so. -/
theorem insertOrderedKeepsTheOrder : Obligations.InsertOrderedKeepsTheOrder :=
  fun s x => ⟨insertOrdered_split s x, insertOrdered_ascending s x⟩

end Sys2Proof.Machine
end

section
/-! SUPPORT. The tree is a function of the frequency table (spec/41_tree_builder.md R147): insertions and
merges read only the working list and the nodes that were made, so they keep two runs alike. -/

namespace Sys2Proof.Machine

/-- The two states have the same nodes and the same working list, and the list holds nodes that were
made: what the merge loop reads (R140). -/
structure SameArena (s t : State) : Prop where
  nnodes : s.nnodes = t.nnodes
  wl : s.wl = t.wl
  made : ∀ i ∈ s.wl, i.val < s.nnodes.val
  nodes : ∀ i : NodeIx, i.val < s.nnodes.val → s.nodeAt i = t.nodeAt i

theorem SameArena.freqOf {s t : State} (h : SameArena s t) {i : NodeIx} (hi : i.val < s.nnodes.val) :
    s.freqOf i = t.freqOf i := congrArg Node.freq (h.nodes i hi)

/-- The place InsertOrdered finds depends on the frequencies of the list and of the node (R141). -/
theorem insertPos_congr {s t : State} {x : NodeIx} (hwl : s.wl = t.wl)
    (hfreq : ∀ i ∈ x :: s.wl, s.freqOf i = t.freqOf i) : s.insertPos x = t.insertPos x := by
  obtain ⟨hx, hlist⟩ := List.forall_mem_cons.1 hfreq
  unfold State.insertPos
  rw [← hwl, hx]
  generalize s.wl = list at hlist
  induction list with
  | nil => rfl
  | cons k ks ih =>
    obtain ⟨hk, hks⟩ := List.forall_mem_cons.1 hlist
    rw [List.findIdx_cons, List.findIdx_cons, hk, ih hks]

theorem SameArena.insertOrdered {s t : State} (h : SameArena s t) {x : NodeIx}
    (hx : x.val < s.nnodes.val) : SameArena (s.insertOrdered x) (t.insertOrdered x) := by
  have hmade : ∀ i ∈ x :: s.wl, i.val < s.nnodes.val := List.forall_mem_cons.2 ⟨hx, h.made⟩
  exact
    { nnodes := h.nnodes
      wl := by
        rw [State.insertOrdered_wl, State.insertOrdered_wl,
          insertPos_congr h.wl fun i hi => h.freqOf (hmade i hi), h.wl]
      made := fun i hi => hmade i ((insertOrdered_perm s x).mem_iff.1 hi)
      nodes := h.nodes }

theorem SameArena.insertLeaves {s t : State} (h : SameArena s t) (is : List Nat)
    (his : ∀ i ∈ is, (nodeIx i).val < s.nnodes.val) :
    SameArena (insertLeaves is s) (insertLeaves is t) := by
  induction is generalizing s t with
  | nil => exact h
  | cons i is ih =>
    obtain ⟨hi, his⟩ := List.forall_mem_cons.1 his
    exact ih (h.insertOrdered hi) his

/-- A merge step before its insertion: the two heads are out of the list and their parent is made
(R143). -/
def State.withParent (s : State) (a b : NodeIx) (rest : List NodeIx) : State :=
  { ({ s with wl := rest, wlStale := (a :: b :: rest).drop rest.length ++ s.wlStale } : State).setNode
      (nodeIx s.nnodes.val) (mergedNode s a b) with nnodes := Fin.ofNat 512 (s.nnodes.val + 1) }

theorem mergeStep_eq (a b : NodeIx) (rest : List NodeIx) (s : State) :
    mergeStep a b rest s = (s.withParent a b rest).insertOrdered (nodeIx s.nnodes.val) := rfl

theorem withParent_nnodes (a b : NodeIx) (rest : List NodeIx) {s : State} (h : s.nnodes.val < 511) :
    (s.withParent a b rest).nnodes.val = s.nnodes.val + 1 := mergeStep_nnodes a b rest s h

theorem withParent_nodeAt (a b : NodeIx) (rest : List NodeIx) (s : State) (i : NodeIx) :
    (s.withParent a b rest).nodeAt i =
      if nodeIx s.nnodes.val = i then mergedNode s a b else s.nodeAt i := mergeStep_nodeAt a b rest s i

theorem SameArena.mergeStep {s t : State} (h : SameArena s t) {a b : NodeIx} {rest : List NodeIx}
    (hwl : s.wl = a :: b :: rest) (hroom : s.nnodes.val < 511) :
    SameArena (mergeStep a b rest s) (mergeStep a b rest t) := by
  have hnn := withParent_nnodes a b rest hroom
  have hmade := h.made
  rw [hwl] at hmade
  obtain ⟨ha, hmade⟩ := List.forall_mem_cons.1 hmade
  obtain ⟨hb, hrest⟩ := List.forall_mem_cons.1 hmade
  have hparent : mergedNode s a b = mergedNode t a b := by
    simp only [mergedNode, h.freqOf ha, h.freqOf hb]
  have hbefore : SameArena (s.withParent a b rest) (t.withParent a b rest) :=
    { nnodes := by simp only [State.withParent, h.nnodes]
      wl := rfl
      made := fun i hi => by have := hrest i hi; omega
      nodes := fun i hi => by
        rw [withParent_nodeAt, withParent_nodeAt, ← h.nnodes, hparent]
        split
        · rfl
        · next hne =>
          refine h.nodes i (lt_of_le_of_ne (by omega) fun e => hne ?_)
          rw [← e, nodeIx_of_val] }
  rw [mergeStep_eq, mergeStep_eq, ← h.nnodes]
  exact hbefore.insertOrdered (by rw [nodeIx_val hroom]; omega)

theorem SameArena.mergeFor {n : Nat} {s t : State} (h : SameArena s t) (hm : Merging n s) (fuel : Nat) :
    SameArena (mergeFor fuel s) (mergeFor fuel t) := by
  induction fuel generalizing s t with
  | zero => exact h
  | succ fuel ih =>
    rw [Machine.mergeFor, Machine.mergeFor, ← h.wl]
    split
    · next a b rest hwl =>
      have hroom : s.nnodes.val < 511 := by
        have hcount := hm.count
        have hle := hm.le
        rw [hwl, List.length_cons, List.length_cons] at hcount
        omega
      exact ih (h.mergeStep hwl hroom) (hm.step hwl)
    · exact h

theorem counted_congr {s t : State} (h : s.ft = t.ft) : s.counted = t.counted := by
  rw [State.counted, State.counted, h]

/-- TREE_BUILD before its first insertion: the leaves are made and the list is empty (R140). -/
def State.leavesPlaced (s : State) : State :=
  { ({ placeLeaves s.counted 0 s with nsym := Fin.ofNat 257 s.counted.length } : State).emptyWl with
    nnodes := Fin.ofNat 512 s.counted.length }

theorem withLeaves_eq (s : State) :
    s.withLeaves = insertLeaves (List.range s.counted.length) s.leavesPlaced := rfl

theorem leavesPlaced_nnodes (s : State) : s.leavesPlaced.nnodes.val = s.counted.length :=
  Nat.mod_eq_of_lt ((counted_length_le s).trans_lt (by decide))

theorem leavesPlaced_nodeAt (s : State) {i : NodeIx} (hi : i.val < s.counted.length) :
    s.leavesPlaced.nodeAt i = leafOf s.counted[i.val].1 s.counted[i.val].2 := by
  have hleaf := withLeaves_leaf s i.val hi
  rwa [withLeaves_eq, insertLeaves_nodeAt, nodeIx_of_val] at hleaf

/-- The leaves are a function of the table (R142). -/
theorem leavesPlaced_sameArena {s t : State} (h : s.ft = t.ft) :
    SameArena s.leavesPlaced t.leavesPlaced where
  nnodes := by simp only [State.leavesPlaced, counted_congr h]
  wl := rfl
  made := fun _ hi => absurd hi List.not_mem_nil
  nodes := fun i hi => by
    have hs : i.val < s.counted.length := leavesPlaced_nnodes s ▸ hi
    have ht : i.val < t.counted.length := counted_congr h ▸ hs
    rw [leavesPlaced_nodeAt s hs, leavesPlaced_nodeAt t ht]
    simp only [counted_congr h]

/-- So is their order in the list (R141, R142). -/
theorem withLeaves_sameArena {s t : State} (h : s.ft = t.ft) :
    SameArena s.withLeaves t.withLeaves := by
  rw [withLeaves_eq, withLeaves_eq, ← counted_congr h]
  refine (leavesPlaced_sameArena h).insertLeaves _ fun i hi => ?_
  have hlt := List.mem_range.1 hi
  have hle := counted_length_le s
  rw [nodeIx_val (by omega), leavesPlaced_nnodes]
  exact hlt

/-- Settles O21: both runs insert the same leaves and merge the same arena, and the number of leaves is
the number of entries. -/
theorem treeDependsOnTheTableOnly : Obligations.TreeDependsOnTheTableOnly := by
  intro s s' t t' hft _ h h' ht ht' hs hs'
  obtain ⟨hne, rfl⟩ := eq_withTree_of_exec_treeBuild h ht hs
  obtain ⟨hne', rfl⟩ := eq_withTree_of_exec_treeBuild h' ht' hs'
  have hleaves := withLeaves_sameArena hft
  have htree : SameArena (mergeFor s.withLeaves.wl.length s.withLeaves)
      (mergeFor s'.withLeaves.wl.length s'.withLeaves) := by
    rw [← hleaves.wl]
    exact hleaves.mergeFor (withLeaves_merging s hne) _
  obtain ⟨_, _, _, hnsym, _⟩ := withTree_spec s hne
  obtain ⟨_, _, _, hnsym', _⟩ := withTree_spec s' hne'
  refine ⟨Fin.ext ?_, htree.nnodes, congrArg (·.headD 0) htree.wl, htree.wl, htree.nodes⟩
  rw [hnsym, hnsym', counted_congr hft]

end Sys2Proof.Machine
end

section
/-! SUPPORT. CODE_GEN as a command (spec/42_code_table_generator.md R160 to R164): it is legal in
`TREE_READY`, where it is what its body does. -/

namespace Sys2Proof.Machine

theorem exec_codeGen {s : State} (hp : s.phase = .treeReady) :
    exec .codeGen s = (generateCodes s).outcome := exec_legal (by simp [legalIn, hp])

/-- A CODE_GEN that ends in `CODES_READY` ran to its end: a raise ends in `FAULT` (R22, R263). -/
theorem generateCodes_done_of_exec {s t : State} (hp : s.phase = .treeReady)
    (h : exec .codeGen s = .next t) (ht : t.phase = .codesReady) : generateCodes s = .done t := by
  rw [exec_codeGen hp] at h
  rcases Run.outcome_eq_next.1 h with hdone | hraised
  · exact hdone
  · have hfault : t.phase = .fault := ((generateCodes_ends s).raised t hraised).1
    rw [ht] at hfault
    cases hfault

/-- Settles O25: the body ran to its end, and on a tree of R146 it then leaves the codes of R163: the
leaves' paths are incomparable and share the code space out between them. -/
theorem generatedCodesArePrefixFreeAndComplete :
    Obligations.GeneratedCodesArePrefixFreeAndComplete := by
  intro s t hp htree hct h ht
  obtain ⟨hcodes, hlen, _, hkraft⟩ := htree.codes hct (generateCodes_done_of_exec hp h ht)
  exact ⟨hcodes, hlen, hkraft⟩

/-- Settles O23: the body writes the code of the root's symbol and no other. -/
theorem codeGenOfSingleLeafAssignsZero : Obligations.CodeGenOfSingleLeafAssignsZero := by
  intro s hp hleaf
  have hexec := (exec_codeGen hp).trans (congrArg Run.outcome (generateCodes_single hleaf))
  refine ⟨_, hexec, ?_, fun b hb => ?_, rfl⟩
  · exact (setCt_ctAt s _ _ _).trans (if_pos rfl)
  · exact (setCt_ctAt s _ b _).trans (if_neg hb.symm)

/-- Settles O24: the traversal meets every leaf of the tree, and a path of at most 16 choices is read
back from the code it is packed into. -/
theorem codeGenWritesRootToLeafPaths : Obligations.CodeGenWritesRootToLeafPaths := by
  intro s hp htree htwo hshallow
  obtain ⟨t, hrun, hcode, hother, hframe⟩ := htree.generateCodes_done htwo hshallow
  have hexec : exec .codeGen s = .next t := (exec_codeGen hp).trans (congrArg Run.outcome hrun)
  refine ⟨t, hexec, fun path i hpath => ?_, fun b => (htree.exists_leafPath b).1, hother, hframe⟩
  rw [hcode path i hpath]
  exact Code.toBits_ofBits (hshallow path i hpath)

/-- Settles O26: the traversal meets the leaves in the order of their paths, and the first that is too
deep raises. -/
theorem codeGenTrapsAtFirstTooDeepLeaf : Obligations.CodeGenTrapsAtFirstTooDeepLeaf := by
  intro s hp htree hdeep
  obtain ⟨t, path, i, hrun, hpath, hlong, hfirst, hframe⟩ := htree.generateCodes_raised hdeep
  have hexec : exec .codeGen s = .next t := (exec_codeGen hp).trans (congrArg Run.outcome hrun)
  exact ⟨t, path, i, hexec, hpath, hlong, hfirst, hframe⟩

end Sys2Proof.Machine
end

section
/-! SUPPORT. COMPRESS as a command (spec/46_control_and_top.md R232): where the source has enough symbols
and not too many bytes, the tree it builds has no leaf too deep, so every body of the chain runs to its
end. -/

namespace Sys2Proof.Machine

/-- A command that completes hands its state to the rest of a sequence (R75). -/
theorem execAll_cons_done {i : Instr} {is : List Instr} {s t : State}
    (hl : legalIn i s.phase = true) (h : bodyOf i s = .done t) :
    execAll (i :: is) s = execAll is t := by
  rw [execAll, exec_legal hl, h]
  rfl

/-- Where no leaf is deeper than 16 CODE_GEN runs to its end, the one-leaf tree included (R161, R162). -/
theorem State.TreeOk.generateCodes_completes {s : State} (h : s.TreeOk)
    (hshallow : ∀ path i, s.LeafPath path i → path.length ≤ 16) :
    ∃ t, generateCodes s = .done t := by
  by_cases hleaf : (s.nodeAt s.root).kind = .leaf
  · exact ⟨_, generateCodes_single hleaf⟩
  · have htwo : 2 ≤ s.nsym.val := by
      have hpos := h.nsymPos
      have hone := mt h.root_kind.2 hleaf
      omega
    obtain ⟨t, hrun, _⟩ := h.generateCodes_done htwo hshallow
    exact ⟨t, hrun⟩

/-- The distinct bytes of a sequence are the symbols with a count in it (R28). -/
theorem filter_count_length (xs : List Byte) :
    (symbols.filter fun b => decide (0 < xs.count b)).length = xs.dedup.length := by
  refine ((List.perm_ext_iff_of_nodup (symbols_nodup.filter _) xs.nodup_dedup).2 fun b => ?_).length_eq
  simp [mem_symbols]

/-- `a` is what the counting of a COMPRESS from `s` leaves: its table counts the source (R131, R232). -/
structure SourceCounted (s a : State) : Prop where
  run : countSource s.compressStart = .done a
  counts : ∀ b, a.ftAt b = s.src.count b
  cfg : a.cfg = s.cfg

theorem exists_sourceCounted {s : State} (hfits : s.src.length ≤ s.cfg.maxCount) :
    ∃ a, SourceCounted s a := by
  have hbound :
      s.compressStart.total + s.compressStart.rest.length ≤ s.compressStart.cfg.maxCount := by
    rw [compressStart_rest]
    exact (Nat.zero_add _).trans_le hfits
  obtain ⟨a, hrun, hcount, hframe⟩ := countSource_done s.compressStart hbound
  refine ⟨a, hrun, fun b => ?_, by rw [hframe]; rfl⟩
  rw [hcount b, compressStart_ftAt, compressStart_rest, Nat.zero_add]

/-- A byte of the source is a byte with a count (R28). -/
theorem SourceCounted.ftAt_pos {s a : State} (h : SourceCounted s a) {b : Byte} :
    0 < a.ftAt b ↔ b ∈ s.src := by
  rw [h.counts b, List.count_pos_iff]

theorem SourceCounted.counted_length {s a : State} (h : SourceCounted s a) :
    a.counted.length = s.src.dedup.length := by
  rw [Machine.counted_length, ← filter_count_length]
  simp only [h.counts]

theorem SourceCounted.counted_ne_nil {s a : State} (h : SourceCounted s a) (hne : s.src ≠ []) :
    a.counted ≠ [] := by
  obtain ⟨b, hb⟩ := List.exists_mem_of_ne_nil _ hne
  exact Machine.counted_ne_nil.2 ⟨b, h.ftAt_pos.2 hb⟩

/-- A source with a symbol, two under the policy `FAULT`, has a tree (R140, R145). -/
theorem SourceCounted.buildTree_done {s a : State} (h : SourceCounted s a) (hne : s.src ≠ [])
    (hpol : s.cfg.policy = .oneBitCode ∨ ∃ b c, b ≠ c ∧ b ∈ s.src ∧ c ∈ s.src) :
    buildTree a = .done a.withTree := by
  refine Machine.buildTree_done (h.counted_ne_nil hne) ?_
  rw [h.cfg, two_le_counted_length]
  simpa only [h.ftAt_pos] using hpol

/-- The unit commands up to TREE_BUILD leave the tree COMPRESS builds (R232). -/
theorem SourceCounted.execAll_treeBuild {s a : State} (h : SourceCounted s a)
    (hbuild : buildTree a = .done a.withTree) :
    execAll [.clear, .rewind, .freqRun, .treeBuild] s = .next a.withTree := by
  have hcounting : a.phase = .counting := (countSource_ends _).done a h.run
  calc execAll [.clear, .rewind, .freqRun, .treeBuild] s
      = execAll [.rewind, .freqRun, .treeBuild] s.clear := execAll_cons_done rfl rfl
    _ = execAll [.freqRun, .treeBuild] s.compressStart := execAll_cons_done rfl rfl
    _ = execAll [.treeBuild] a := execAll_cons_done rfl h.run
    _ = execAll [] a.withTree := execAll_cons_done (by rw [hcounting]; rfl) hbuild

/-- With at most 17 symbols no leaf is deeper than 16, since a path is shorter than the number of
symbols (R164). -/
theorem SourceCounted.leafPath_length_le {s a : State} (h : SourceCounted s a) (hne : s.src ≠ [])
    (hfew : s.src.dedup.length ≤ 17) {path : List Bool} {i : NodeIx}
    (hpath : a.withTree.LeafPath path i) : path.length ≤ 16 := by
  have htree := withTree_treeOk a (h.counted_ne_nil hne)
  have hlen := htree.leafPath_length hpath
  have hnsym := htree.counted_length
  rw [withTree_counted, h.counted_length] at hnsym
  omega

/-- Settles O45: the source fits the count bound, so it is counted; its table has a tree; the tree has no
leaf too deep, so it has codes; and from there header, payload and flush run to their end. A state that
meets the invariant outside `FAULT` has no error. -/
theorem compressCompletes : Obligations.CompressCompletes := by
  intro s S0 _ hsnk hne hfits hpol hdeep
  obtain ⟨a, ha⟩ := exists_sourceCounted hfits
  have hbuild := ha.buildTree_done hne hpol
  have hshallow : ∀ path i, a.withTree.LeafPath path i → path.length ≤ 16 := fun path i hpath =>
    hdeep.elim (fun hfew => ha.leafPath_length_le hne hfew hpath)
      fun hall => hall _ path i (ha.execAll_treeBuild hbuild) hpath
  obtain ⟨c, hcodes⟩ := (withTree_treeOk a (ha.counted_ne_nil hne)).generateCodes_completes hshallow
  have hc := compressed_of ha.run hbuild hcodes
  obtain ⟨t, payload, htail, htsnk, _, hpayload, _, hsp, ht⟩ := compress_tail hc
  have hrun : compressSource s = .done t := by
    rw [compressSource_eq, ha.run, Run.done_andThen, hbuild, Run.done_andThen, hcodes,
      Run.done_andThen, htail]
  have hexec : exec .compress s = .next t := (exec_legal rfl).trans (congrArg Run.outcome hrun)
  have hnsym : t.nsym.val = c.nsym.val := by rw [ht]
  have hft : ∀ b, t.ftAt b = c.ftAt b := fun b => by rw [ht]; rfl
  have hct : ∀ b, t.ctAt b = c.ctAt b := fun b => by rw [ht]; rfl
  refine ⟨t, c.headBytes ++ payload, hexec, by rw [ht], ?_, ?_, by rw [ht]; exact hc.total, hsp,
    fun b => (hft b).trans (hc.counts b), by rw [htsnk, hsnk, List.append_assoc], ?_⟩
  · by_contra herr
    have hfault : t.phase = .fault := ((compressSource_inv s).done t hrun).errIff.1 herr
    rw [ht] at hfault
    cases hfault
  · rw [hnsym, hc.nsym, ← filter_count_length]
    simp only [hc.counts]
  · rw [List.length_append, headBytes_length, hc.coded_length, hnsym, Nat.mul_add, hpayload]
    simp only [hft, hct]
    omega

end Sys2Proof.Machine
end

section
/-! SUPPORT. DEC_HEADER at a header it rejects (spec/43_codec_framer.md R172), and DEC_HEADER over what
ENC_HEADER wrote (R177). -/

namespace Sys2Proof.Machine

/-! ### A malformed header -/

/-- Fewer than 2 bytes are left: neither header byte is consumed (R172). -/
theorem readHeader_short {s : State} (h : s.rest.length < 2) :
    readHeader s = .raised (s.trap .malformedHeader 0xFFFF) := by
  unfold readHeader
  rw [State.srcRemaining_eq, if_pos h, State.raise_eq]

/-- A padding byte above 7 is rejected after both header bytes are consumed (R172). -/
theorem readHeader_badPad {s : State} {p c : Byte} {tail : List Byte} (hrest : s.rest = p :: c :: tail)
    (hp : 7 < p.toNat) :
    readHeader s = .raised (({ s with sp := s.sp + 2 } : State).trap .malformedHeader 0xFFFF) := by
  have hlen : 2 ≤ s.rest.length := by simp [hrest]
  unfold readHeader
  rw [State.srcRemaining_eq, if_neg (by omega), State.srcReads_eq 2 s hlen, hrest]
  exact if_pos hp

/-- Settles O29: in `IDLE` the body of DEC_HEADER runs, and the two malformed headers are the two ways in
which it raises before its first record. -/
theorem decHeaderRejectsMalformedHeaderBytes : Obligations.DecHeaderRejectsMalformedHeaderBytes := by
  intro s _ hphase
  rw [exec_decHeader hphase]
  exact ⟨fun hshort => congrArg Run.outcome (readHeader_short hshort),
    fun p c tail hrest hp => congrArg Run.outcome (readHeader_badPad hrest hp)⟩

/-! ### What ENC_HEADER wrote -/

/-- The written records have different codes where the code table has (R177). -/
theorem fileRecords_codes_nodup {s : State}
    (hal : ∀ b, LeftAligned (s.ctAt b).len.val (s.ctAt b).bits)
    (hne : ∀ b d, b ≠ d → 0 < (s.ctAt b).len.val → s.ctAt b ≠ s.ctAt d) :
    (s.fileRecords.map FileRecord.code).Nodup := by
  rw [State.fileRecords, List.map_map]
  refine (symbols_nodup.filter _).map_on fun b hb d _ heq => ?_
  by_contra hbd
  exact hne b d hbd (mem_coded.1 hb) ((Code.toBits_inj (hal b) (hal d)).1 heq)

/-- The entries of the written records are the coded symbols with their codes (R98, R33). -/
theorem fileRecords_entries {s : State}
    (hal : ∀ b, LeftAligned (s.ctAt b).len.val (s.ctAt b).bits) :
    s.fileRecords.map FileRecord.entry = s.coded.map fun b => { sym := b, code := s.ctAt b } := by
  rw [State.fileRecords, List.map_map]
  exact List.map_congr_left fun b _ => writtenRecord_entry b (hal b)

theorem exec_encHeader {s : State} (hp : s.phase = .codesReady) :
    exec .encHeader s = (writeHeader s).outcome := exec_legal (by simp [legalIn, hp])

/-- The body of DEC_HEADER over the bytes ENC_HEADER appends and any payload after them (R177). -/
theorem readHeader_headBytes {s u : State} {payload : List Byte}
    (hal : ∀ b, LeftAligned (s.ctAt b).len.val (s.ctAt b).bits)
    (hne : ∀ b d, b ≠ d → 0 < (s.ctAt b).len.val → s.ctAt b ≠ s.ctAt d)
    (hnsym : s.nsym.val = s.coded.length) (hpos : 1 ≤ s.nsym.val)
    (hrest : u.rest = s.headBytes ++ payload) :
    ∃ v, readHeader u = .done v ∧ v.phase = .tableReady ∧ v.pad = padOf s.encodedBits ∧
      v.nsym = s.nsym ∧ v.records = s.coded.map (fun b => { sym := b, code := s.ctAt b }) ∧
      v.rest = payload := by
  have hlen : s.fileRecords.length = s.nsym.val := by rw [State.fileRecords, List.length_map, hnsym]
  have hfile : u.rest = padByte (padOf s.encodedBits) :: countByte s.nsym ::
      (s.fileRecords.flatMap FileRecord.bytes ++ payload) := by
    rw [hrest, State.headBytes, tableBytes_records]
    rfl
  obtain ⟨v, hrun, hpad, hn, _, hrecs, hvrest, hframe⟩ := readHeader_done u _ _ s.fileRecords payload
    hfile (by rw [padByte_toNat]; omega) (by rw [readCountByte_countByte hpos, hlen])
    (fileRecords_valid s) (fileRecords_codes_nodup hal hne)
  exact ⟨v, hrun, by rw [hframe], Fin.ext (hpad.trans (padByte_toNat _)), Fin.ext (hn.trans hlen),
    hrecs.trans (fileRecords_entries hal), hvrest⟩

/-- Settles O31: past the base of the sink stand the header bytes of `s`, and DEC_HEADER reads them
back. -/
theorem decHeaderReadsWhatEncHeaderWrote : Obligations.DecHeaderReadsWhatEncHeaderWrote := by
  intro s t u S0 payload _ hsnk hphase hal hne hnsym hpos henc hidle hsrc
  rw [exec_encHeader hphase, writeHeader_eq, Run.done_outcome] at henc
  cases henc
  have hbytes : (s.snk ++ s.headBytes).drop S0.length = s.headBytes := by
    rw [hsnk, List.drop_left]
  have hrest : u.rest = s.headBytes ++ payload := hbytes ▸ rest_eq_of_whole_or_rest hsrc.symm
  obtain ⟨v, hrun, hv⟩ := readHeader_headBytes hal hne hnsym hpos hrest
  exact ⟨v, (exec_decHeader hidle).trans (congrArg Run.outcome hrun), hv⟩

end Sys2Proof.Machine
end

section
/-! SUPPORT. PACK_SYM, PACK_RUN and PACK_FLUSH as commands (spec/44_bit_packer.md R200 to R203): they are
legal in `PACKING` alone, where each is what its body does, and a table made from a FREQ_RUN over the
same source has a code for every byte PACK_RUN reads. -/

namespace Sys2Proof.Machine

/-! ### PACK_SYM and PACK_FLUSH -/

theorem exec_packSym (sym : Byte) {s : State} (hp : s.phase = .packing) :
    exec (.packSym sym) s = (packSymbol sym s).outcome := exec_legal (by simp [legalIn, hp])

theorem exec_packFlush {s : State} (hp : s.phase = .packing) :
    exec .packFlush s = (flush s).outcome := exec_legal (by simp [legalIn, hp])

/-- Settles O33: the body of PACK_SYM raises before it places a bit. -/
theorem packSymOfUncodedSymbolTraps : Obligations.PackSymOfUncodedSymbolTraps :=
  fun s sym _ hp huncoded =>
    (exec_packSym sym hp).trans (congrArg Run.outcome (packSymbol_raised sym s huncoded))

/-- Settles O32: the body of PACK_SYM appends the code; as `FILL` is below 8, the number of bits placed
fixes both the number of bytes written and what is left in the accumulator. -/
theorem packSymAppendsTheCode : Obligations.PackSymAppendsTheCode := by
  rintro s sym S0 _ rfl hp hclear hcoded
  obtain ⟨t, bytes, hrun, hbits, hlen, htclear, hframe⟩ := packSymbol_done sym s hcoded hclear
  have hexec : exec (.packSym sym) s = .next t :=
    (exec_packSym sym hp).trans (congrArg Run.outcome hrun)
  have hfill : t.fill.val < 8 := t.fill.isLt
  exact ⟨t, bytes, hexec, hbits, by omega, by omega, htclear, hframe⟩

/-- Settles O36: the body of PACK_FLUSH writes the accumulator exactly where it holds a bit. -/
theorem packFlushWritesThePartialByte : Obligations.PackFlushWritesThePartialByte := by
  rintro s S0 _ rfl hp
  rw [exec_packFlush hp, flush]
  constructor
  · intro hfill
    rw [if_neg hfill]
    rfl
  · intro hfill
    rw [if_pos hfill]
    rfl

/-! ### PACK_RUN -/

theorem exec_packRun {s : State} (hp : s.phase = .packing) :
    exec .packRun s = (packSource s).outcome := exec_legal (by simp [legalIn, hp])

/-- A FREQ_RUN that does not end in `FAULT` has run its body to the end: being ignored, refused by the
phase, or raised all do (R95, R131, R263). -/
theorem countSource_done_of_exec_freqRun {s t : State} (h : exec .freqRun s = .next t)
    (ht : t.phase ≠ .fault) : countSource s = .done t := by
  rw [exec_eq_issue] at h
  rcases issue_cases .freqRun (bodyOf .freqRun) s with
    ⟨hfault, _, hself⟩ | ⟨_, _, htrap⟩ | ⟨_, hbody⟩
  · rw [hself] at h
    cases h
    exact absurd hfault ht
  · rw [htrap] at h
    cases h
    exact absurd rfl ht
  · rw [hbody] at h
    refine (Run.outcome_eq_next.1 h).resolve_right fun hraised => ht ?_
    exact ((countSource_ends s).raised t hraised).1

/-- A FREQ_RUN over the whole source has a count for every byte a pass over the same source has left to
read (R61, R131, R300). -/
theorem ftAt_pos_of_exec_freqRun {r s t : State} (hstart : SourceAtStart r) (hfixed : SourceFixed r s)
    (h : exec .freqRun r = .next t) (ht : t.phase ≠ .fault) {b : Byte} (hb : b ∈ s.rest) :
    0 < t.ftAt b := by
  have hcount := countSource_counts (countSource_done_of_exec_freqRun h ht) b
  have hmem : 0 < r.rest.count b := List.count_pos_iff.2 (hfixed.mem_rest hstart hb)
  omega

/-- Settles O34: under either premise every byte that remains has a code, so the loop of PACK_RUN appends
the codes of all of them. -/
theorem packRunAppendsTheRemainingSource : Obligations.PackRunAppendsTheRemainingSource := by
  rintro s S0 _ rfl hp hclear hsp hpremise
  have hcoded : ∀ b ∈ s.rest, 0 < (s.ctAt b).len.val := by
    rcases hpremise with hall | ⟨r, t, hstart, hfixed, hrun, hcounting, hft, hcounted⟩
    · exact hall
    · intro b hb
      have hpos : 0 < t.ftAt b :=
        ftAt_pos_of_exec_freqRun hstart hfixed hrun (by simp [hcounting]) hb
      exact hcounted b (by rwa [State.ftAt, hft])
  obtain ⟨t, bytes, hrun, hbits, htclear, _, hframe⟩ := packAll_done s.rest s hcoded hclear
  rw [← packSource_eq] at hrun
  rw [State.sp_add_rest_length hsp] at hframe
  exact ⟨t, bytes, (exec_packRun hp).trans (congrArg Run.outcome hrun), hbits, htclear, hframe⟩

/-- Settles O35: the loop of PACK_RUN appends the codes up to the first byte without one and raises
there, that byte being read. -/
theorem packRunStopsAtUncodedByte : Obligations.PackRunStopsAtUncodedByte := by
  rintro s xs b ys S0 _ rfl hp hclear hrest hcoded huncoded
  obtain ⟨t, bytes, hrun, hbits, _, hframe⟩ := packAll_raised xs b ys s hcoded huncoded hclear
  rw [← hrest, ← packSource_eq] at hrun
  exact ⟨t, bytes, (exec_packRun hp).trans (congrArg Run.outcome hrun), hbits, hframe⟩

end Sys2Proof.Machine
end

section
/-! SUPPORT. UNPACK_RUN as a command (spec/45_bit_unpacker.md R215 to R217): it is legal in `TABLE_READY`
alone, where it consumes all bits of the payload but the padding, and over a prefix-free table codes
followed by bits that begin with no code leave those bits as the candidate. -/

namespace Sys2Proof.Machine

theorem exec_unpackRun {s : State} (hp : s.phase = .tableReady) :
    exec .unpackRun s = (unpackPayload s).outcome := exec_legal (by simp [legalIn, hp])

theorem State.emptyCand_of {s : State} (h : s.cand = 0) (h' : s.candLen = 0) : s.emptyCand = s := by
  rw [State.emptyCand, ← h, ← h']

/-- Settles O40: without a payload byte the body of UNPACK_RUN looks at the padding alone. -/
theorem unpackRunOfEmptyPayload : Obligations.UnpackRunOfEmptyPayload := by
  intro s _ hp hrest
  rw [exec_unpackRun hp, decodePayload_nil s hrest]
  constructor
  · intro hpad
    rw [if_pos hpad, Run.done_outcome]
  · intro hpad
    rw [if_neg hpad]
    rfl

/-- Settles O38: the state is the one with `c` as its candidate, and appending `b` matches a code, leaves
room for another bit, or fills the candidate. -/
theorem unpackBitTestsTheCandidateAfterEveryBit :
    Obligations.UnpackBitTestsTheCandidateAfterEveryBit := by
  intro s c b hc hcand hlen hal hne
  have hs : s.withCand c = s := State.withCand_of hcand hlen
  refine ⟨fun e he hm => ?_, fun hm hc => ?_, fun hm hc => ?_⟩
  · have hrun := unpackBit_match s c b hc hal hne he hm
    rwa [hs] at hrun
  · have hrun := unpackBit_more s c b hc hm
    rwa [hs, State.withCand, List.length_append, List.length_singleton] at hrun
  · have hrun := unpackBit_full s c b hc hm
    rwa [hs, State.withCand, List.length_append, List.length_singleton, hc] at hrun

/-- Settles O39: the body of UNPACK_RUN decodes the codes, as `unpackPayload_codes` says. -/
theorem unpackRunDecodesPrefixFreeCodes : Obligations.UnpackRunDecodesPrefixFreeCodes := by
  rintro s S0 ys padding _ rfl hp hcand hlen hsp hinc hal hy hpad hbits
  rw [exec_unpackRun hp, unpackPayload_codes s ys padding (State.emptyCand_of hcand hlen) hsp
    ⟨hinc, hal⟩ hy hpad hbits, Run.done_outcome]

/-- Bits that begin with no code, after codes: they become the candidate while it has room (R215,
R216). -/
theorem unpackBits_codes_append (s : State) (h : s.PrefixFree) (ys : List Entry) (cut : List Bool)
    (hy : ∀ y ∈ ys, y ∈ s.records) (hlen : cut.length ≤ 15)
    (hcut : ∀ e ∈ s.records, ¬ e.code.toBits <+: cut) :
    forEach unpackBit (ys.flatMap (fun y => y.code.toBits) ++ cut) s.emptyCand =
      .done ((s.sinkWrites (ys.map fun y => y.sym)).withCand cut) := by
  rw [forEach_append, unpackBits_codes ys s h hy, Run.done_andThen, ← State.withCand_nil,
    unpackBits_more cut _ [] (by simpa using hlen), List.nil_append]
  rintro p hprefix _ e he rfl
  exact hcut e he hprefix

theorem rest_ne_nil_of_bits {s : State} {bits : List Bool} (h : bitsOf s.rest = bits)
    (hpos : 0 < bits.length) : s.rest ≠ [] := by
  intro hrest
  rw [hrest, bitsOf_nil] at h
  simp [← h] at hpos

/-- Settles O41: no bit raises, and after the last one the cut bits are a candidate that is not
empty. -/
theorem unpackRunEndingInsideACodeTraps : Obligations.UnpackRunEndingInsideACodeTraps := by
  rintro s S0 ys cut padding _ rfl hp hcand hlen hsp hinc hal hy hpad hpos hcut hnone hbits
  have hrest : s.rest ≠ [] := rest_ne_nil_of_bits hbits (by simp; omega)
  have hrun := unpackBits_codes_append s ⟨hinc, hal⟩ ys cut hy hcut hnone
  rw [State.emptyCand_of hcand hlen,
    ← consumedBits_of_padded s.pad s.rest _ padding hrest hpad hbits] at hrun
  have hval : (Fin.ofNat 17 cut.length).val = cut.length := Nat.mod_eq_of_lt (by omega)
  have hne : Fin.ofNat 17 cut.length ≠ 0 := by
    rw [Ne, Fin.ext_iff, hval, Fin.val_zero]
    omega
  rw [exec_unpackRun hp, unpackPayload_done s _ hrest hrun, State.withCand, if_neg hne, hval,
    State.sp_add_rest_length hsp]
  rfl

/-- Bits that the padding does not reach are consumed, whatever stands after them (R216). -/
theorem exists_consumedBits_append {pad : Fin 8} {bytes : List Byte} {bits more : List Bool}
    (h : bytes ≠ []) (hpad : pad.val ≤ more.length) (hbits : bitsOf bytes = bits ++ more) :
    ∃ post, consumedBits pad bytes = bits ++ post := by
  have hmore : bits ++ more = bits ++ more.take (more.length - pad.val) ++
      more.drop (more.length - pad.val) := by
    rw [List.append_assoc, List.take_append_drop]
  have hlen : (more.drop (more.length - pad.val)).length = pad.val := by
    rw [List.length_drop]
    omega
  exact ⟨_, consumedBits_of_padded pad bytes _ _ h hlen (hbits.trans hmore)⟩

/-- Settles O42: the first fifteen of the lost bits become the candidate and the sixteenth fills it, in
the byte that the number of bits before it names. -/
theorem unpackRunOfUnmatchedBitsTraps : Obligations.UnpackRunOfUnmatchedBitsTraps := by
  rintro s S0 ys lost more _ rfl hp hcand hlen hinc hal hy hpad hlost hnone hbits
  obtain ⟨c, b, rfl⟩ : ∃ c b, lost = c ++ [b] := by
    have hne : lost ≠ [] := List.ne_nil_of_length_pos (by omega)
    exact ⟨_, _, (List.dropLast_append_getLast hne).symm⟩
  have hc : c.length = 15 := by simpa using hlost
  have hrest : s.rest ≠ [] := rest_ne_nil_of_bits hbits (by simp)
  have hpre := unpackBits_codes_append s ⟨hinc, hal⟩ ys c hy hc.le
    fun e he hprefix => hnone e he (hprefix.trans (List.prefix_append c [b]))
  have hfull := unpackBit_full (s.sinkWrites (ys.map fun y => y.sym)) c b hc
    fun e he heq => hnone e he (heq ▸ List.prefix_rfl)
  obtain ⟨post, hconsumed⟩ := exists_consumedBits_append hrest hpad hbits
  have hsp : s.sp + (ys.flatMap (fun y => y.code.toBits) ++ c).length / 8 + 1 =
      s.sp + ((ys.flatMap fun y => y.code.toBits).length + 16 + 7) / 8 := by
    rw [List.length_append, hc]
    omega
  rw [State.emptyCand_of hcand hlen] at hpre
  rw [exec_unpackRun hp, unpackPayload_raised s _ _ _ _ b hrest (by simpa using hconsumed) hpre hfull,
    hsp, State.withCand, List.length_append, List.length_singleton, hc]
  rfl

end Sys2Proof.Machine
end

section
/-! SUPPORT. CLEAR and REWIND as commands (spec/46_control_and_top.md R230, R231). -/

namespace Sys2Proof.Machine

/-- Settles O12: CLEAR is legal in every phase, and its body is the clearing operation. -/
theorem clearRestoresAllButTheStreams : Obligations.ClearRestoresAllButTheStreams := by
  intro s S0 hsnk
  exact ⟨s.clear, exec_legal rfl, cleanEntry_clear s, sinkBase_clear hsnk, rfl, rfl⟩

theorem exec_rewind {s : State} (hp : s.phase ≠ .fault) : exec .rewind s = .next s.srcRewind :=
  exec_legal (by simpa [legalIn] using hp)

/-- Settles O13: outside `FAULT` REWIND is legal and runs its body, and `FAULT` ignores it. -/
theorem rewindMovesTheSourceToItsStart : Obligations.RewindMovesTheSourceToItsStart := by
  intro s
  exact ⟨fun hp => ⟨exec_rewind hp, sourceAtStart_srcRewind s⟩, fun hp => exec_ignored hp rfl⟩

end Sys2Proof.Machine
end

section
/-! SUPPORT. A sequence of commands as one body (spec/30_encoding.md R93, R95, spec/10_state.md R22):
where each command leaves the phase the next one needs, dispatch lets every body run, and after a raise
`FAULT` ignores what is left. COMPRESS and DECOMPRESS are two such sequences
(spec/46_control_and_top.md R232, R233). -/

namespace Sys2Proof.Machine

/-- Where a command is legal its body completes in the phase R22 gives, or traps. -/
theorem bodyOf_ends {i : Instr} {s : State} (hl : legalIn i s.phase = true) :
    (bodyOf i s).Ends (nextPhase i s.phase) := by
  cases i with
  | clear => exact clearAll_ends s
  | rewind => exact rewindSource_ends s
  | freqByte sym => exact countSymbol_ends sym s
  | freqRun => exact countSource_ends s
  | treeBuild => exact buildTree_ends s
  | codeGen => exact generateCodes_ends s
  | encHeader => exact writeHeader_ends s
  | packSym sym =>
    have hp : s.phase = .packing := by simpa [legalIn] using hl
    exact hp ▸ packSymbol_ends sym s
  | packRun =>
    have hp : s.phase = .packing := by simpa [legalIn] using hl
    exact hp ▸ packSource_ends s
  | packFlush => exact flush_ends s
  | decHeader => exact readHeader_ends s
  | unpackRun => exact unpackPayload_ends s
  | compress => exact compressSource_ends s
  | decompress => exact decompressSource_ends s

/-- The bodies of a list of commands, one after the other, up to the first raise. -/
def bodiesOf : List Instr → State → Run
  | [], s => .done s
  | i :: is, s => (bodyOf i s).andThen (bodiesOf is)

/-- Each command of the list is legal in the phase in which the one before it completes (R22). -/
def legalFrom : List Instr → Phase → Bool
  | [], _ => true
  | i :: is, p => legalIn i p && legalFrom is (nextPhase i p)

/-- A sequence whose commands are legal one after the other runs their bodies, when `FAULT` ignores all
commands after the first (R22, R93, R95). -/
theorem execAll_eq_bodiesOf {i : Instr} {is : List Instr} {s : State}
    (hl : legalFrom (i :: is) s.phase = true) (hi : ∀ j ∈ is, runsInFault j = false) :
    execAll (i :: is) s = (bodiesOf (i :: is) s).outcome := by
  induction is generalizing i s with
  | nil =>
    obtain ⟨hfirst, -⟩ := Bool.and_eq_true_iff.1 hl
    exact execAll_cons hfirst (bodyOf_ends hfirst).traps hi fun _ _ => rfl
  | cons j is ih =>
    obtain ⟨hfirst, hrest⟩ := Bool.and_eq_true_iff.1 hl
    refine execAll_cons hfirst (bodyOf_ends hfirst).traps hi fun t ht => ih ?_ fun k hk => hi k ?_
    · rw [(bodyOf_ends hfirst).done t ht]
      exact hrest
    · exact List.mem_cons_of_mem j hk

theorem Run.andThen_done (r : Run) : r.andThen .done = r := by cases r <;> rfl

theorem compressSource_eq_bodiesOf (s : State) :
    compressSource s = bodiesOf
      [.clear, .rewind, .freqRun, .treeBuild, .codeGen, .encHeader, .rewind, .packRun, .packFlush] s := by
  have hflush : bodiesOf [.packFlush] = flush := funext fun t => Run.andThen_done (flush t)
  unfold compressSource
  simp only [Run.andThen_assoc, ← hflush]
  rfl

theorem decompressSource_eq_bodiesOf (s : State) :
    decompressSource s = bodiesOf [.clear, .decHeader, .unpackRun] s := by
  have hunpack : bodiesOf [.unpackRun] = unpackPayload :=
    funext fun t => Run.andThen_done (unpackPayload t)
  unfold decompressSource
  simp only [Run.andThen_assoc, ← hunpack]
  rfl

/-- At a *CleanEntry* under the invariant CLEAR has nothing to do (R230, R294). -/
theorem CleanEntry.execAll_clear {s : State} (hc : CleanEntry s) (h : s.Inv) (is : List Instr) :
    execAll (.clear :: is) s = execAll is s :=
  execAll_cons_done rfl (congrArg Run.done (hc.clear_eq h))

/-- At *SourceAtStart*, outside `FAULT`, REWIND has nothing to do (R231, R294). -/
theorem execAll_rewind {s : State} (hstart : SourceAtStart s) (hp : s.phase ≠ .fault)
    (is : List Instr) : execAll (.rewind :: is) s = execAll is s :=
  execAll_cons_done (by simpa [legalIn] using hp) (congrArg Run.done (srcRewind_eq hstart))

/-- Settles O43: the bodies COMPRESS runs are those of its unit commands, each of which is legal in the
phase the one before it leaves; a *CleanEntry* at *SourceAtStart* leaves CLEAR and REWIND nothing to do. -/
theorem compressIsTheUnitSequence : Obligations.CompressIsTheUnitSequence := by
  intro s _
  have hseq : exec .compress s = execAll
      [.clear, .rewind, .freqRun, .treeBuild, .codeGen, .encHeader, .rewind, .packRun, .packFlush]
      s := by
    rw [execAll_eq_bodiesOf rfl (by decide), ← compressSource_eq_bodiesOf]
    exact exec_legal rfl
  refine ⟨hseq, fun hinv hclean hstart => ?_⟩
  have hp : s.phase ≠ .fault := by simp [hclean.phaseIdle]
  rw [hseq, hclean.execAll_clear hinv, execAll_rewind hstart hp]

/-- Settles O44: as for COMPRESS, with the two unit commands of DECOMPRESS. -/
theorem decompressIsTheUnitSequence : Obligations.DecompressIsTheUnitSequence := by
  intro s _
  have hseq : exec .decompress s = execAll [.clear, .decHeader, .unpackRun] s := by
    rw [execAll_eq_bodiesOf rfl (by decide), ← decompressSource_eq_bodiesOf]
    exact exec_legal rfl
  exact ⟨hseq, fun hinv hclean => by rw [hseq, hclean.execAll_clear hinv]⟩

end Sys2Proof.Machine
end

section
/-! SUPPORT. DECOMPRESS of what COMPRESS wrote (spec/46_control_and_top.md R234): the records are those of
the code table, whose codes are prefix-free, and the payload is the source coded by that table. -/

namespace Sys2Proof.Machine

/-- A COMPRESS that does not end in `FAULT` ran to its end: a raise ends in `FAULT` (R22, R263). -/
theorem compressSource_done_of_exec {s t : State} (h : exec .compress s = .next t)
    (ht : t.phase ≠ .fault) : compressSource s = .done t := by
  rw [exec_legal rfl] at h
  exact (Run.outcome_eq_next.1 h).resolve_right fun hr => ht ((compressSource_ends s).raised t hr).1

/-- The records ENC_HEADER writes have prefix-free codes (R163 item 3). -/
theorem fileRecords_incomparable {c : State} (h : c.CodesOk) :
    c.fileRecords.Pairwise fun r q => Incomparable r.code q.code := by
  rw [State.fileRecords, List.pairwise_map]
  refine (symbols_nodup.filter _).imp_of_mem fun {b d} hb hd hbd => ?_
  have hb := mem_coded.1 hb
  have hd := mem_coded.1 hd
  exact ⟨h.prefixFree b d hbd hb hd, h.prefixFree d b hbd.symm hd hb⟩

/-- A byte of the source has a record in the file (R163 item 1, R170). -/
theorem Compressed.mem_fileRecords {s c : State} (h : Compressed s c) {b : Byte} (hb : b ∈ s.src) :
    writtenRecord b (c.ctAt b) ∈ c.fileRecords := by
  refine List.mem_map_of_mem (mem_coded.2 ((h.codes.codedIffCounted b).2 ?_))
  rw [h.counts]
  exact List.count_pos_iff.2 hb

/-- Settles O49: past the base of the sink stands a file in the sense of R74, whose records are those of
the code table and whose payload spells the source in their codes; DECOMPRESS reads such a file. -/
theorem roundTripIdentity : Obligations.RoundTripIdentity := by
  intro s t u S0 S1 _ hs hu hexec ht hsrc
  obtain ⟨c, payload, hc, htsnk, hpayload, -, htpad, -, -⟩ :=
    compressSource_done (compressSource_done_of_exec hexec (by simp [ht]))
  have hrest : u.rest = padByte t.pad :: countByte c.nsym ::
      (c.fileRecords.flatMap FileRecord.bytes ++ payload) := by
    rw [rest_eq_of_whole_or_rest hsrc, htsnk, hs, List.append_assoc, List.drop_left, State.headBytes,
      tableBytes_records, htpad]
    rfl
  have hlen : c.fileRecords.length = (readCountByte (countByte c.nsym)).val := by
    rw [readCountByte_countByte hc.nsymPos, State.fileRecords, List.length_map, hc.coded_length]
  have hbits : bitsOf payload =
      (s.src.map fun b => writtenRecord b (c.ctAt b)).flatMap FileRecord.code ++
        List.replicate t.pad.val false := by
    rw [hpayload, List.flatMap_map]
    rfl
  obtain ⟨v, hrun, hvsnk, -⟩ := decompressSource_done u _ _ c.fileRecords
    (s.src.map fun b => writtenRecord b (c.ctAt b)) payload _ hrest
    (by rw [padByte_toNat]; omega) hlen (fileRecords_valid c) (fileRecords_incomparable hc.codes)
    (by simpa using fun b hb => hc.mem_fileRecords hb)
    (by rw [List.length_replicate, padByte_toNat]) hbits
  have hsym : (s.src.map fun b => writtenRecord b (c.ctAt b)).map FileRecord.sym = s.src :=
    List.map_map.trans (List.map_id _)
  refine ⟨v, (exec_legal rfl).trans (congrArg Run.outcome hrun), ?_, ?_⟩
  · exact (decompressSource_ends u).done v hrun
  · rw [hvsnk, hsym, hu]

end Sys2Proof.Machine
end

section
/-! SUPPORT. A COMPRESS that fails (spec/46_control_and_top.md R232): only the three bodies before
ENC_HEADER raise, and none of them writes the sink. -/

namespace Sys2Proof.Machine

/-- FREQ_RUN from an empty table raises for one reason (R131, R260). -/
theorem countSource_raised_err {s t : State} (hs : s.total ≤ s.cfg.maxCount)
    (h : countSource s = .raised t) : t.err = .countOverflow := by
  have hover : s.cfg.maxCount < s.total + s.rest.length := by
    by_contra hfits
    obtain ⟨u, hu, -⟩ := countSource_done s (not_lt.1 hfits)
    rw [h] at hu
    cases hu
  obtain ⟨u, b, hu, -, -, hframe⟩ := countSource_raised s hs hover
  rw [h] at hu
  cases hu
  rw [hframe]

theorem buildTree_raised_err {s t : State} (h : buildTree s = .raised t) :
    t.err = .emptyInput ∨ t.err = .singleSymbolInput := by
  rcases buildTree_eq s with ⟨-, e⟩ | ⟨_, -, -, e⟩ | ⟨-, -, e⟩
  · rw [e] at h; cases h; exact .inl rfl
  · rw [e] at h; cases h; exact .inr rfl
  · rw [e] at h; cases h

theorem State.TreeOk.generateCodes_raised_err {s t : State} (hs : s.TreeOk)
    (h : generateCodes s = .raised t) : t.err = .codeTooLong := by
  rcases hs.generateCodes_cases with ⟨_, e, -⟩ | ⟨_, _, e, ht⟩
  · rw [e] at h; cases h
  · rw [e] at h; cases h; rw [ht]; rfl

theorem CountRunFrame.snk {s t : State} (h : CountRunFrame s t) : t.snk = s.snk := by rw [h]

theorem TreeFrame.snk {s t : State} (h : TreeFrame s t) : t.snk = s.snk := by rw [h]

theorem CodeFrame.snk {s t : State} (h : CodeFrame s t) : t.snk = s.snk := by rw [h]

/-- Where a COMPRESS can raise: in its FREQ_RUN, its TREE_BUILD or its CODE_GEN (R232). -/
theorem compressSource_raised {s t : State} (h : compressSource s = .raised t) :
    t.snk = s.snk ∧ (t.err = .countOverflow ∨ t.err = .emptyInput ∨ t.err = .singleSymbolInput ∨
      t.err = .codeTooLong) := by
  rw [compressSource_eq] at h
  rcases Run.andThen_eq_raised.1 h with ha | ⟨a, ha, h⟩
  · have hsnk := ((countSource_frame _).2 t ha).snk
    exact ⟨hsnk, .inl (countSource_raised_err (Nat.zero_le _) ha)⟩
  have hasnk : a.snk = s.snk := ((countSource_frame _).1 a ha).snk
  rcases Run.andThen_eq_raised.1 h with hb | ⟨b, hb, h⟩
  · have hsnk := ((buildTree_frame a).2 t hb).snk
    exact ⟨hsnk.trans hasnk, (buildTree_raised_err hb).elim (.inr ∘ .inl) (.inr ∘ .inr ∘ .inl)⟩
  have hbsnk := ((buildTree_frame a).1 b hb).snk.trans hasnk
  rcases Run.andThen_eq_raised.1 h with hc | ⟨c, hc, h⟩
  · have hsnk := ((generateCodes_frame b).2 t hc).snk
    have herr := (treeOk_of_buildTree_done hb).generateCodes_raised_err hc
    exact ⟨hsnk.trans hbsnk, .inr (.inr (.inr herr))⟩
  · obtain ⟨u, _, hu, -⟩ := compress_tail (compressed_of ha hb hc)
    rw [h] at hu
    cases hu

/-- Settles O46: a COMPRESS that ends in `FAULT` raised, and it can raise before its ENC_HEADER only. -/
theorem failedCompressWritesNothing : Obligations.FailedCompressWritesNothing := by
  intro s t S0 _ hs hexec ht
  rw [exec_legal rfl] at hexec
  rcases Run.outcome_eq_next.1 hexec with hdone | hraised
  · have hphase : t.phase = .done := (compressSource_ends s).done t hdone
    rw [ht] at hphase
    cases hphase
  · obtain ⟨hsnk, herr⟩ := compressSource_raised hraised
    exact ⟨hsnk.trans hs, herr⟩

end Sys2Proof.Machine
end

section
/-! SUPPORT. No body of COMPRESS looks at the bytes already in the sink, at the host's queue or at the last
read (spec/46_control_and_top.md R236): a run over other ones is the same run, with its bytes after theirs. -/

namespace Sys2Proof.Machine

/-- The state `s` with the sink of `w` under its own, and the host's side of `w`. -/
def State.onto (s w : State) : State :=
  { s with snk := w.snk ++ s.snk, host := w.host, rdata := w.rdata }

/-- The same of the state a body leaves. -/
def Run.onto (w : State) : Run → Run
  | .done s => .done (s.onto w)
  | .raised s => .raised (s.onto w)
  | .stuck f => .stuck f

/-- A body does the same over every sink and host (R236). -/
def IgnoresOutside (body : State → Run) : Prop := ∀ s w, body (s.onto w) = (body s).onto w

theorem IgnoresOutside.andThen {r k : State → Run} (hr : IgnoresOutside r) (hk : IgnoresOutside k) :
    IgnoresOutside fun s => (r s).andThen k := by
  intro s w
  show (r (s.onto w)).andThen k = ((r s).andThen k).onto w
  rw [hr s w]
  cases r s with
  | done t => exact hk t w
  | raised t => rfl
  | stuck f => rfl

theorem ignoresOutside_drainFor {body : Byte → State → Run} (h : ∀ b, IgnoresOutside (body b))
    (n : Nat) : IgnoresOutside (drainFor body n) := by
  induction n with
  | zero => exact fun s w => rfl
  | succ n ih =>
    intro s w
    have hbyte : (s.onto w).srcByte = s.srcByte := rfl
    rw [drainFor, drainFor, hbyte]
    split
    · rfl
    · next b _ => exact (h b).andThen ih s.advance w

theorem ignoresOutside_drain {body : Byte → State → Run} (h : ∀ b, IgnoresOutside (body b)) :
    IgnoresOutside (drain body) := fun s w => ignoresOutside_drainFor h s.srcRemaining s w

/-! ### Counting (R130, R131) -/

theorem ignoresOutside_countSymbol (sym : Byte) : IgnoresOutside (countSymbol sym) := by
  intro s w
  unfold countSymbol
  by_cases hmax : s.total = s.cfg.maxCount
  · rw [if_pos hmax]
    exact if_pos hmax
  · rw [if_neg hmax]
    exact if_neg hmax

theorem ignoresOutside_countSource : IgnoresOutside countSource :=
  (ignoresOutside_drain ignoresOutside_countSymbol).andThen fun _ _ => rfl

/-! ### The tree (R140 to R145) -/

theorem placeLeaves_onto (es : List (Byte × Nat)) (n : Nat) (s w : State) :
    placeLeaves es n (s.onto w) = (placeLeaves es n s).onto w := by
  induction es generalizing n s with
  | nil => rfl
  | cons e es ih => exact ih (n + 1) (s.setNode (nodeIx n) (leafOf e.1 e.2))

theorem insertLeaves_onto (is : List Nat) (s w : State) :
    insertLeaves is (s.onto w) = (insertLeaves is s).onto w := by
  induction is generalizing s with
  | nil => rfl
  | cons i is ih => exact ih (s.insertOrdered (nodeIx i))

theorem mergeFor_onto (n : Nat) (s w : State) : mergeFor n (s.onto w) = (mergeFor n s).onto w := by
  induction n generalizing s with
  | zero => rfl
  | succ n ih =>
    have hwl : (s.onto w).wl = s.wl := rfl
    rw [mergeFor, mergeFor, hwl]
    split
    · next a b rest _ => exact ih (mergeStep a b rest s)
    · rfl

theorem leavesPlaced_onto (s w : State) : (s.onto w).leavesPlaced = s.leavesPlaced.onto w := by
  have hcounted : (s.onto w).counted = s.counted := rfl
  unfold State.leavesPlaced
  rw [hcounted, placeLeaves_onto]
  rfl

theorem withLeaves_onto (s w : State) : (s.onto w).withLeaves = s.withLeaves.onto w := by
  rw [withLeaves_eq, withLeaves_eq, leavesPlaced_onto]
  exact insertLeaves_onto _ _ w

theorem withTree_onto (s w : State) : (s.onto w).withTree = s.withTree.onto w := by
  have hwl : (s.withLeaves.onto w).wl = s.withLeaves.wl := rfl
  unfold State.withTree
  rw [withLeaves_onto, hwl, mergeFor_onto]
  rfl

theorem ignoresOutside_buildTree : IgnoresOutside buildTree := by
  intro s w
  have hcounted : (s.onto w).counted = s.counted := rfl
  have hcfg : (s.onto w).cfg = s.cfg := rfl
  unfold buildTree
  dsimp only
  rw [hcounted, hcfg]
  split
  · rw [placeLeaves_onto]
    rfl
  · split
    · rw [placeLeaves_onto]
      rfl
    · exact congrArg Run.done (withTree_onto s w)

/-! ### The codes (R160, R161) -/

theorem ignoresOutside_visit (n : Nat) (i : NodeIx) (path : List Bool) :
    IgnoresOutside (visit n i path) := by
  induction n generalizing i path with
  | zero => exact fun s w => rfl
  | succ n ih =>
    intro s w
    have hnode : (s.onto w).nodeAt i = s.nodeAt i := rfl
    rw [visit, visit, hnode]
    split
    · by_cases hdeep : 16 < path.length
      · rw [if_pos hdeep, if_pos hdeep]
        rfl
      · rw [if_neg hdeep, if_neg hdeep]
        rfl
    · exact (ih (s.nodeAt i).left _).andThen (ih (s.nodeAt i).right _) s w

theorem ignoresOutside_assignCodes : IgnoresOutside assignCodes := by
  intro s w
  have hroot : (s.onto w).nodeAt (s.onto w).root = s.nodeAt s.root := rfl
  unfold assignCodes
  rw [hroot]
  split
  · rfl
  · exact ignoresOutside_visit 511 s.root [] s w

theorem ignoresOutside_generateCodes : IgnoresOutside generateCodes :=
  ignoresOutside_assignCodes.andThen fun _ _ => rfl

/-! ### The file (R170, R200 to R203) -/

theorem sinkWrites_onto (s w : State) (bs : List Byte) :
    (s.onto w).sinkWrites bs = (s.sinkWrites bs).onto w := by
  unfold State.sinkWrites State.onto
  rw [List.append_assoc]

theorem sinkWrite_onto (s w : State) (b : Byte) : (s.onto w).sinkWrite b = (s.sinkWrite b).onto w :=
  sinkWrites_onto s w [b]

theorem ignoresOutside_writeHeader : IgnoresOutside writeHeader := by
  intro s w
  rw [writeHeader_eq, writeHeader_eq]
  simp only [State.onto, Run.onto, List.append_assoc]
  rfl

theorem putBit_onto (s w : State) (b : Bool) : putBit (s.onto w) b = (putBit s b).onto w := by
  unfold putBit
  by_cases hfull : s.fill = 7
  · rw [if_pos hfull, if_pos (show (s.onto w).fill = 7 from hfull)]
    exact congrArg State.emptyAcc (sinkWrite_onto { s with acc := placeBit s.acc s.fill b } w _)
  · rw [if_neg hfull, if_neg (show (s.onto w).fill ≠ 7 from hfull)]
    rfl

theorem putBits_onto (bs : List Bool) (s w : State) :
    bs.foldl putBit (s.onto w) = (bs.foldl putBit s).onto w := by
  induction bs generalizing s with
  | nil => rfl
  | cons b bs ih =>
    rw [List.foldl_cons, List.foldl_cons, putBit_onto, ih]

theorem ignoresOutside_packSymbol (sym : Byte) : IgnoresOutside (packSymbol sym) := by
  intro s w
  have hcode : (s.onto w).ctAt sym = s.ctAt sym := rfl
  unfold packSymbol
  rw [hcode]
  split
  · rfl
  · rw [putBits_onto]
    rfl

theorem ignoresOutside_packSource : IgnoresOutside packSource :=
  ignoresOutside_drain ignoresOutside_packSymbol

theorem ignoresOutside_flush : IgnoresOutside flush := by
  intro s w
  have hfill : (s.onto w).fill = s.fill := rfl
  have hacc : (s.onto w).acc = s.acc := rfl
  unfold flush
  rw [hfill, hacc, sinkWrite_onto]
  split
  · rfl
  · rfl

/-! ### COMPRESS (R232, R236) -/

/-- COMPRESS after its CLEAR and its first REWIND (R232). -/
def encodeSource (s : State) : Run :=
  (countSource s).andThen fun a => (buildTree a).andThen fun b =>
    (generateCodes b).andThen fun c => (writeHeader c).andThen fun d =>
      (rewindSource d).andThen fun e => (packSource e).andThen flush

theorem compressSource_eq_encodeSource (s : State) :
    compressSource s = encodeSource s.compressStart := compressSource_eq s

theorem ignoresOutside_rewindSource : IgnoresOutside rewindSource := fun _ _ => rfl

theorem ignoresOutside_encodeSource : IgnoresOutside encodeSource := by
  have hpack := ignoresOutside_packSource.andThen ignoresOutside_flush
  have hwrite := ignoresOutside_writeHeader.andThen (ignoresOutside_rewindSource.andThen hpack)
  have hcode := ignoresOutside_generateCodes.andThen hwrite
  have hbuild := IgnoresOutside.andThen ignoresOutside_buildTree hcode
  exact ignoresOutside_countSource.andThen hbuild

/-- The state after reset with the source and the parameters of `s`, and nothing else of it. -/
def State.blank (s : State) : State := { State.reset with src := s.src, cfg := s.cfg }

theorem compressStart_eq_onto (s : State) : s.compressStart = s.blank.onto s := by
  have hsnk : s.snk ++ s.blank.snk = s.snk := List.append_nil s.snk
  unfold State.onto
  rw [hsnk]
  rfl

/-- From every state COMPRESS is the run from the blank state with the same source and parameters, over
the state's own sink and host (R236). -/
theorem compressSource_eq_onto (s : State) : compressSource s = (encodeSource s.blank).onto s := by
  rw [compressSource_eq_encodeSource, compressStart_eq_onto, ignoresOutside_encodeSource s.blank s]

theorem Run.onto_outcome_eq_next {r : Run} {w t : State} (h : (r.onto w).outcome = .next t) :
    ∃ z, r.outcome = .next z ∧ t = z.onto w := by
  cases r with
  | done z => cases h; exact ⟨z, rfl, rfl⟩
  | raised z => cases h; exact ⟨z, rfl, rfl⟩
  | stuck f => cases h

/-- Settles O47: both runs are the run from one blank state, each over its own sink and host. -/
theorem compressDependsOnTheSourceOnly : Obligations.CompressDependsOnTheSourceOnly := by
  intro s s' t t' S0 S0' _ hs hs' hsrc hcfg hexec hexec'
  have hblank : s'.blank = s.blank := by rw [State.blank, State.blank, hsrc, hcfg]
  rw [exec_legal rfl, bodyOf, compressSource_eq_onto] at hexec hexec'
  obtain ⟨z, hz, rfl⟩ := Run.onto_outcome_eq_next hexec
  obtain ⟨z', hz', rfl⟩ := Run.onto_outcome_eq_next hexec'
  rw [hblank, hz] at hz'
  cases hz'
  exact ⟨z.snk, congrArg (· ++ z.snk) hs, congrArg (· ++ z.snk) hs', rfl⟩

end Sys2Proof.Machine
end

section
/-! SUPPORT. The phase table (spec/10_state.md R22), trap entry and the exceptions of dispatch
(spec/60_exceptions.md R251, R261 to R263), and reset (spec/70_reset_and_hazards.md R290). -/

namespace Sys2Proof.Machine

/-! ### The phase table -/

/-- The two readings of the column "legal in" agree, row by row (R22). -/
theorem mem_legalPhases {i : Instr} {p : Phase} : p ∈ legalPhases i ↔ legalIn i p = true := by
  cases i with
  | clear | rewind | compress | decompress => cases p <;> decide
  | freqByte | freqRun | treeBuild | codeGen | encHeader | packSym | packRun | packFlush | decHeader
    | unpackRun => simp [legalPhases, legalIn]

theorem legalIn_eq_false_of_not_mem {i : Instr} {p : Phase} (h : p ∉ legalPhases i) :
    legalIn i p = false :=
  Bool.eq_false_iff.2 (h ∘ mem_legalPhases.2)

/-- The commands legal in `FAULT` are those it does not ignore (R22, R95). -/
theorem legalIn_fault (i : Instr) : legalIn i .fault = runsInFault i := by
  cases i <;> rfl

/-- A command that is not legal outside `FAULT` raises `BadSequence` with its word (R22, R261). -/
theorem exec_illegal {i : Instr} {s : State} (hp : s.phase ≠ .fault) (h : legalIn i s.phase = false) :
    exec i s = .next (s.trap .badSequence (encode i)) := by
  rw [exec_eq_issue, issue_illegal _ h hp]

/-- Settles O9: dispatch traps or ignores a command outside its phases, and the body of a legal one
completes in the phase of the table or traps. -/
theorem commandsFollowThePhaseTable : Obligations.CommandsFollowThePhaseTable := by
  intro i s
  refine ⟨fun hp hout => ?_, fun hp hout => ?_, fun hin t ht => ?_⟩
  · exact exec_illegal hp (legalIn_eq_false_of_not_mem hout)
  · have hfault : legalIn i .fault = false := hp ▸ legalIn_eq_false_of_not_mem hout
    exact exec_ignored hp ((legalIn_fault i).symm.trans hfault)
  · have hlegal := mem_legalPhases.1 hin
    rw [exec_legal hlegal] at ht
    exact (Run.outcome_eq_next.1 ht).imp ((bodyOf_ends hlegal).done t) ((bodyOf_ends hlegal).raised t)

/-! ### Traps -/

/-- Settles O50: raising is trap entry, which writes the three fields (R263). -/
theorem trapEntryWritesThreeFields : Obligations.TrapEntryWritesThreeFields := fun _ _ _ => rfl

/-- A table with no entry has no tree (R140, R251). -/
theorem buildTree_raised_of_empty {s : State} (h : s.counted = []) :
    buildTree s = .raised (({ s with nsym := 0 } : State).trap .emptyInput 0) := by
  rcases buildTree_eq s with ⟨_, hraised⟩ | ⟨_, hone, _⟩ | ⟨hne, _⟩
  · exact hraised
  · simp [h] at hone
  · exact absurd h hne

/-- Settles O17: with every count 0 the table has no entry, so the body raises before its first leaf. -/
theorem treeBuildOfEmptyTableTraps : Obligations.TreeBuildOfEmptyTableTraps := by
  intro s hp hzero
  exact (exec_treeBuild hp).trans
    (congrArg Run.outcome (buildTree_raised_of_empty (counted_eq_nil.2 hzero)))

/-- Outside `FAULT` a word that is no command raises `IllegalCommand` with itself (R94, R262). -/
theorem command_of_not_decodes {w : Word} {s : State} (hp : s.phase ≠ .fault)
    (h : ¬ ∃ i, decode w = .ok i) : command w s = .next (s.trap .illegalCommand w) := by
  unfold command
  split
  · next i hi => exact absurd ⟨i, hi⟩ h
  · exact if_neg hp

/-- Settles O7: the step hands the word to dispatch, and an ill-formed word decodes to no command. -/
theorem illegalWordTraps : Obligations.IllegalWordTraps := by
  intro s w rest hh hp hw
  have hnone : ¬ ∃ i, decode w = .ok i := fun hi =>
    Bool.eq_false_iff.1 hw ((decodeAcceptsExactlyWellFormedWords w).1 hi)
  rw [step_of_host_cons hh, hostEvent_writeReg_cmd]
  exact command_of_not_decodes hp hnone

/-! ### Reset -/

/-- Settles O11: the step is the reset event, which writes the reset state over every field of R20. -/
theorem resetEventRestoresTheResetState : Obligations.ResetEventRestoresTheResetState :=
  fun _ _ hh => step_of_host_cons hh

end Sys2Proof.Machine
end
